-- ==== Sys2Proof/Word.lean ====
section
/-! DEFINITION. The words of the core: bytes, 32-bit registers and text elements, 16-byte blocks (spec/00_scope.md R11, R12). -/

namespace Sys2Proof

/-- A byte, 0 to 255 (R11). -/
abbrev Byte := BitVec 8

/-- A 32-bit control register, command word or text element (R37, R39, R90). -/
abbrev Word := BitVec 32

/-- A block of the cipher: 16 bytes, byte 0 first (R3, R64). -/
abbrev Block := Vector Byte 16

end Sys2Proof
end

