-- ==== Sys2Proof/Syntax.lean ====
section
/-! DEFINITION. The commands of the core, one constructor per row of spec/opcode_table.json (spec/30_encoding.md R93). -/

namespace Sys2Proof

/-- A command. Format K carries the key-size operand nBits as a plain number (R92, R94); format N carries none (R91). -/
inductive Instr where
  /-- DERIVE nBits (R120). -/
  | derive (nb : Nat)
  /-- NONCEGEN (R140). -/
  | nonceGen
  /-- CBINIT (R145). -/
  | cbInit
  /-- RUN (R160). -/
  | run
  /-- UTF8ENC (R200). -/
  | utf8Enc
  /-- UTF8DEC (R202). -/
  | utf8Dec
  /-- B64ENC (R205). -/
  | b64Enc
  /-- B64DEC (R207). -/
  | b64Dec
  /-- ENCRYPT nBits (R230). -/
  | encrypt (nb : Nat)
  /-- DECRYPT nBits (R231). -/
  | decrypt (nb : Nat)
  /-- CLR (R250). -/
  | clr
deriving DecidableEq, Repr

end Sys2Proof
end

