-- ==== Sys2Proof/WellFormed.lean ====
section
/-! DEFINITION. Which commands the command word can carry (spec/30_encoding.md R90, R92). -/

namespace Sys2Proof

/-- The NB field holds nBits as an unsigned 16-bit integer (R90): every value from 0 to 65535 can be written (R92). -/
def nbFits (nb : Nat) : Bool := nb < 65536

/-- A command is well-formed when its operand fits its field. A value of nBits outside 128, 192 and 256 is
well-formed (R95): the command raises InvalidKeySize. -/
def Instr.wf : Instr → Bool
  | .derive nb => nbFits nb
  | .nonceGen => true
  | .cbInit => true
  | .run => true
  | .utf8Enc => true
  | .utf8Dec => true
  | .b64Enc => true
  | .b64Dec => true
  | .encrypt nb => nbFits nb
  | .decrypt nb => nbFits nb
  | .clr => true

end Sys2Proof
end

