-- ==== Sys2Proof/Decode.lean ====
section
/-! DEFINITION. The command word: its fields, decoder and encoder (spec/30_encoding.md R90 to R96). -/

namespace Sys2Proof

/-- Why a command word is illegal (R95). -/
inductive DecodeError where
  /-- OP is not in the opcode map. -/
  | unknownOp
  /-- RSV, bits 15 to 8, is not 0. -/
  | reservedNotZero
  /-- A format-N word whose NB, bits 31 to 16, is not 0. -/
  | operandNotZero
deriving DecidableEq, Repr

/-- Field OP, bits 7 to 0 (R90). -/
def fieldOp (w : Word) : Byte := w.extractLsb' 0 8

/-- Field RSV, bits 15 to 8 (R90). -/
def fieldRsv (w : Word) : Byte := w.extractLsb' 8 8

/-- Field NB, bits 31 to 16 (R90). -/
def fieldNb (w : Word) : BitVec 16 := w.extractLsb' 16 16

/-- A format-N word must have NB = 0 (R91, R95). -/
def formatN (nb : BitVec 16) (i : Instr) : Except DecodeError Instr :=
  if nb = 0 then .ok i else .error .operandNotZero

/-- The opcode map (R93), with the operand assembled as R94 says: `nBits = zext_16(word bits[31:16])`. -/
def decodeOp (op : Byte) (nb : BitVec 16) : Except DecodeError Instr :=
  match op.toNat with
  | 0x01 => .ok (.derive nb.toNat)
  | 0x02 => formatN nb .nonceGen
  | 0x03 => formatN nb .cbInit
  | 0x04 => formatN nb .run
  | 0x05 => formatN nb .utf8Enc
  | 0x06 => formatN nb .utf8Dec
  | 0x07 => formatN nb .b64Enc
  | 0x08 => formatN nb .b64Dec
  | 0x10 => .ok (.encrypt nb.toNat)
  | 0x11 => .ok (.decrypt nb.toNat)
  | 0x1F => formatN nb .clr
  | _ => .error .unknownOp

/-- The decoder: total on every 32-bit word; an illegal word is rejected with its reason (R95). -/
def decode (w : Word) : Except DecodeError Instr :=
  if fieldRsv w = 0 then decodeOp (fieldOp w) (fieldNb w) else .error .reservedNotZero

/-- The opcode number of a command (R93). -/
def opcodeOf : Instr → Byte
  | .derive _ => 0x01
  | .nonceGen => 0x02
  | .cbInit => 0x03
  | .run => 0x04
  | .utf8Enc => 0x05
  | .utf8Dec => 0x06
  | .b64Enc => 0x07
  | .b64Dec => 0x08
  | .encrypt _ => 0x10
  | .decrypt _ => 0x11
  | .clr => 0x1F

/-- The operand nBits of a command, 0 in format N (R90). -/
def operandOf : Instr → Nat
  | .derive nb => nb
  | .nonceGen => 0
  | .cbInit => 0
  | .run => 0
  | .utf8Enc => 0
  | .utf8Dec => 0
  | .b64Enc => 0
  | .b64Dec => 0
  | .encrypt nb => nb
  | .decrypt nb => nb
  | .clr => 0

/-- The word with given OP and NB and RSV = 0: `NB << 16 | OP` (R92; `OP` when NB is 0, R91). -/
def commandWord (op : Byte) (nb : BitVec 16) : Word := (nb.setWidth 32 <<< 16) ||| op.setWidth 32

/-- The encoder: the command word of a well-formed command (R91, R92). -/
def encode (i : Instr) : Word := commandWord (opcodeOf i) (BitVec.ofNat 16 (operandOf i))

/-- The command word whose low `nbits` bits are those of `w` and whose other bits are 0. A command word is written
to CMD whole (R67, R79), so the table's numbering of bits is the word's own. -/
def tableWord (nbits w : Nat) : Word := BitVec.ofNat 32 (w % 2 ^ nbits)

/-- The command that the decoder reads from a word of spec/opcode_table.json, none where it refuses. -/
def decodeTableWord (nbits w : Nat) : Option Instr :=
  match decode (tableWord nbits w) with
  | .ok i => some i
  | .error _ => none

end Sys2Proof
end

