-- ==== Sys2Proof/Config.lean ====
section
/-! DEFINITION. What one build of the core fixes and the values the spec leaves open (spec/00_scope.md R9, R10,
spec/93_implementation_defined.md U1 to U13). None of it is state (R42). -/

namespace Sys2Proof

/-- The KeySchedule: opaque to the core, which only hands it from `keyExpansion` to `cipher` (R26, U6). It is carried
as the bytes of the round keys. DESIGN CHOICE, log 13. -/
structure Schedule where
  bytes : List Byte
deriving DecidableEq, Repr, Inhabited

/-- What utf8Decode does with malformed bytes (R204). -/
inductive DecodePolicy where
  /-- FAIL: raise MalformedUtf8. -/
  | fail
  /-- REPLACE: the text is `utf8_replace` of the bytes. -/
  | replace
deriving DecidableEq, Repr, Inhabited

/-- A well-formed text element: bits 31 to 21 zero, a value in 0 to 0xD7FF or 0xE000 to 0x10FFFF (R39). -/
def isScalarValue (e : Word) : Bool :=
  decide (e.toNat ≤ 0xD7FF) || (decide (0xE000 ≤ e.toNat) && decide (e.toNat ≤ 0x10FFFF))

/-- A Unicode scalar value (R18, R39). -/
structure Scalar where
  val : Word
  ok : isScalarValue val = true
deriving DecidableEq, Repr

/-- The parameters of a build that are plain data (R10), fixed for the life of a core. -/
structure Params where
  /-- MAXLEN, the capacity of every buffer; none is unbounded (R10). -/
  maxLen : Option Nat
  /-- UTF8_DECODE_POLICY (R10, R204). -/
  policy : DecodePolicy
  /-- PROGRESS_INTERVAL less 1, so that the interval is positive (R10, R172). -/
  progressIntervalLess1 : Nat
  /-- ENC_AVAILABLE (R10, R211). -/
  encAvailable : Bool
  /-- EPOCH, the instant that a clock reading counts from (R10, R141, U5), as milliseconds on a time line outside the core.
  No rule says which instant it is. Log 25. -/
  epoch : Int
deriving DecidableEq, Repr, Inhabited

/-- The functions a build takes as arguments, the answers of the outside world, the free values, and the parameters that a
core has from reset. Every meaning is written over an arbitrary `Config`; the machine uses the opaque `Config.actual`, of
which nothing can be proved. -/
structure Config where
  /-- The parameters of the core that leaves reset. -/
  params : Params
  /-- `keyExpansion` of the block-cipher primitive (R9). -/
  keyExpansion : List Byte → Schedule
  /-- `cipher` of the block-cipher primitive, one forward block transform (R9). -/
  cipher : Block → Schedule → Block
  /-- `utf8_replace`: every element it returns is a well-formed scalar value (R204). -/
  utf8Replace : List Byte → List Scalar
  /-- ClockRead of an EPOCH: milliseconds since it, under no law (R141). Free value, log 8. -/
  clockRead : Int → Nat → Nat
  /-- RngDraw: a 16-bit value under no law (R142). Free value, log 8. -/
  rngDraw : Nat → BitVec 16
  /-- Whether a due progress signal appears (R172, U4). Free value, log 9. -/
  progressShown : Nat → Bool
  /-- Whether a STATUS read that the host has issued is answered before the running command ends (R70). Free value, log 10. -/
  statusReadFirst : Nat → Bool
  /-- Unspecified contents of a byte buffer, by the buffer's `gen` and the index (R40). Free value, log 4. -/
  freeByte : Nat → Nat → Byte
  /-- Unspecified contents of a text buffer, by the buffer's `gen` and the index (R40). Free value, log 4. -/
  freeText : Nat → Nat → Word
  /-- The keystream block O outside the command that wrote it (R27). Free value, log 6. -/
  freeBlock : Nat → Block
  /-- J outside a RUN (R28). Free value, log 6. -/
  freeJ : Nat → BitVec 64
  /-- NBLK outside a RUN (R28). Free value, log 6. -/
  freeNblk : Nat → BitVec 64
  /-- A length register after a result of 2^32 elements or more. Free value, log 7. -/
  freeLength : Nat → Word
deriving Inhabited

/-- The build at hand: opaque, so that a claim about the machine holds whatever its parameters and free values are. -/
opaque Config.actual : Config

end Sys2Proof
end

