-- ==== Sys2Proof/Machine/State.lean ====
section
/-! DEFINITION. The state of one core as plain data, its reset value, and the reasons a step can stop
(spec/10_state.md R20 to R45, spec/60_exceptions.md R260). -/

namespace Sys2Proof.Machine

/-- Why the machine stops with a fault. No command raises one: the spec's errors are next states (R270). -/
inductive Fault where
  /-- Raised by a host access to an element that does not exist: index MAXLEN or above of a buffer (R60, R74), or an
  index outside KEY, CB or NONCE. Safe: the spec gives such an access no meaning. Log 16. -/
  | noSuchElement (index : Nat)
deriving DecidableEq, Repr

/-- Why an instruction is refused. -/
inductive Refusal where
  /-- Raised by an arm of `exec` that has no meaning yet; no arm does. Safe. -/
  | notModelled (mnemonic : String)
deriving DecidableEq, Repr

/-- STATUS.ST (R32). -/
inductive St where
  /-- 0: no command has run since reset or CLR. -/
  | idle
  /-- 1: a command is executing. -/
  | busy
  /-- 2: the last command ended without error. -/
  | done
  /-- 3: the last command raised. -/
  | error
deriving DecidableEq, Repr

/-- ERR.CODE by name (R260). Codes 10 to 15 are never written. -/
inductive ErrCode where
  | noError
  | invalidKeySize
  | encodingUnavailable
  | malformedUtf8
  | malformedBase64
  | malformedPayload
  | illegalCommand
  | operandNotReady
  | capacityExceeded
  | invalidScalar
deriving DecidableEq, Repr

/-- PHASE, a symbolic name of the step in progress (R30). `clrDiscard` is the model's own name for CLR's, log 11. -/
inductive Phase where
  | idle
  | kdCheck
  | kdFill
  | kdExpand
  | kdCipher
  | kdExtend
  | ngSample
  | cbLoad
  | ceCheck
  | ceExpand
  | ceCipher
  | ceXor
  | ceInc
  | ceEnd
  | tcScan
  | clrDiscard
deriving DecidableEq, Repr

/-- The register arrays (R60 b). -/
inductive Arr where
  | key
  | cb
  | nonce
deriving DecidableEq, Repr

/-- The byte buffers and the character buffer (R60 c). -/
inductive ByteBuf where
  | pw
  | inp
  | out
  | b64
deriving DecidableEq, Repr

/-- The text buffers (R60 d). -/
inductive TextBuf where
  | pwt
  | txt
deriving DecidableEq, Repr

/-- One access of the host; it moves one element (R69). Registers are read and written whole, by index (R67). -/
inductive HostAccess where
  | readReg (index : Nat)
  | writeReg (index : Nat) (value : Word)
  | readArr (arr : Arr) (index : Nat)
  | writeArr (arr : Arr) (index : Nat) (value : Byte)
  | readByte (buf : ByteBuf) (index : Nat)
  | writeByte (buf : ByteBuf) (index : Nat) (value : Byte)
  | readText (buf : TextBuf) (index : Nat)
  | writeText (buf : TextBuf) (index : Nat) (value : Word)
deriving DecidableEq, Repr

/-- A read of the host that has completed, and the value it returned. -/
structure Reply where
  access : HostAccess
  value : Word
deriving DecidableEq, Repr

/-- What leaves the core during a command: the calls of R14 in the order made (R314), with their arguments or answers,
and the progress signals that appeared (R172). -/
inductive Event where
  | keyExpansion (key : List Byte)
  | cipher (block : List Byte)
  | clockRead (t : Nat)
  | rngDraw (r : BitVec 16)
  | progress (done total : Nat)
deriving DecidableEq, Repr

/-- A buffer (R38): the elements with a known value, by rising index. An element not listed is unspecified (R40) and reads
as the free value that `gen` and its index name. For w = 8 the cells are Host.Cell. -/
structure Buffer (w : Nat) where
  cells : List (Nat × BitVec w)
  gen : Nat
deriving DecidableEq, Repr

/-- The state of one core (R20). -/
structure State where
  /-- KEY (R21). -/
  key : Vector Byte 32
  /-- KLEN (R22). -/
  klen : BitVec 8
  /-- CB (R23). -/
  cb : Block
  /-- NONCE (R24). -/
  nonce : Vector Byte 8
  /-- VALID.NV (R25). -/
  nv : Bool
  /-- VALID.CBV (R25). -/
  cbv : Bool
  /-- KS, the schedule of the command in progress, or none (R26). -/
  ks : Option Schedule
  /-- O, the keystream block (R27). -/
  o : Block
  /-- J, the block index (R28). -/
  j : Nat
  /-- NBLK, the number of blocks (R28). -/
  nblk : Nat
  /-- DBUF, the derive buffer (R29). -/
  dbuf : Vector Byte 32
  /-- OPC, latched (R30). -/
  opc : Byte
  /-- NBITS, latched (R30). -/
  nbits : BitVec 16
  /-- PHASE (R30). -/
  phase : Phase
  /-- STATUS.ST (R32). -/
  st : St
  /-- STATUS.FATAL (R32). -/
  fatal : Bool
  /-- ERR.CODE (R33). -/
  err : ErrCode
  /-- CTL.OBS_EN (R36). -/
  obsEn : Bool
  /-- PWLEN (R35). -/
  pwLen : Word
  /-- PWTLEN (R35). -/
  pwtLen : Word
  /-- TXTLEN (R35). -/
  txtLen : Word
  /-- INLEN (R35). -/
  inLen : Word
  /-- OUTLEN (R35). -/
  outLen : Word
  /-- B64LEN (R35). -/
  b64Len : Word
  /-- PW (R38). -/
  pw : Buffer 8
  /-- PWT (R38). -/
  pwt : Buffer 32
  /-- TXT (R38). -/
  txt : Buffer 32
  /-- IN (R38). -/
  inp : Buffer 8
  /-- OUT (R38). -/
  out : Buffer 8
  /-- B64 (R38, R103). -/
  b64 : Buffer 8
  /-- The parameters of this core, which no step changes: arguments of the step relation (R42), not architectural state. Log 15. -/
  params : Params
  /-- The host's accesses that have not completed, in the order issued (R70). -/
  pending : List HostAccess
  /-- Model's own: the reads that have completed, oldest first. Log 17. -/
  replies : List Reply
  /-- Model's own: the event trace, oldest first (R172). Log 19. -/
  events : List Event
  /-- Model's own: the number of the next free value. Log 22. -/
  draws : Nat
deriving DecidableEq, Repr

/-- The state after reset of a core with parameters as given (R44, R302). DESIGN CHOICE for O, DBUF, OPC, NBITS
(logs 1 to 3) and for the model's own fields (logs 17, 19, 22). -/
def State.resetWith (p : Params) : State where
  key := Vector.replicate 32 0
  klen := 0
  cb := Vector.replicate 16 0
  nonce := Vector.replicate 8 0
  nv := false
  cbv := false
  ks := none
  o := Vector.replicate 16 0
  j := 0
  nblk := 0
  dbuf := Vector.replicate 32 0
  opc := 0
  nbits := 0
  phase := .idle
  st := if p.encAvailable then .idle else .error
  fatal := !p.encAvailable
  err := if p.encAvailable then .noError else .encodingUnavailable
  obsEn := false
  pwLen := 0
  pwtLen := 0
  txtLen := 0
  inLen := 0
  outLen := 0
  b64Len := 0
  pw := ⟨[], 0⟩
  pwt := ⟨[], 1⟩
  txt := ⟨[], 2⟩
  inp := ⟨[], 3⟩
  out := ⟨[], 4⟩
  b64 := ⟨[], 5⟩
  params := p
  pending := []
  replies := []
  events := []
  draws := 6

/-- The machine right after reset (R300, R301, R302). -/
def State.reset : State := State.resetWith Config.actual.params

end Sys2Proof.Machine
end

