-- ==== Sys2Proof/Machine/Ops.lean ====
section
/-! DEFINITION. The shared operations: byte arrays, buffers, the end of a command, error entry (spec/60_exceptions.md R270),
the acceptance of a command word, the discard, and the writing of a result. -/

namespace Sys2Proof.Machine

/-! ## Byte arrays -/

/-- The first `n` elements of a list, filled up with `d`. -/
def padTo {α : Type} (d : α) : Nat → List α → List α
  | 0, _ => []
  | n + 1, [] => d :: padTo d n []
  | n + 1, x :: xs => x :: padTo d n xs

theorem padTo_length {α : Type} (d : α) (n : Nat) (l : List α) : (padTo d n l).length = n := by
  induction n generalizing l with
  | zero => rfl
  | succ n ih => cases l <;> simp [padTo, ih]

/-- The array of `n` bytes that a byte sequence gives, zero-filled. -/
def packBytes (n : Nat) (l : List Byte) : Vector Byte n := ⟨⟨padTo 0 n l⟩, padTo_length 0 n l⟩

/-- Byte `i` of an array, as R13 writes it (`KEY[i]`); 0 outside the array. -/
def byteAt {n : Nat} (v : Vector Byte n) (i : Nat) : Byte := v.toList.getD i 0

/-- The array with byte `i` replaced. -/
def setByteAt {n : Nat} (v : Vector Byte n) (i : Nat) (x : Byte) : Vector Byte n := packBytes n (v.toList.set i x)

/-- `zeros(n)` (R11). -/
def zeros (n : Nat) : Vector Byte n := Vector.replicate n 0

/-! ## Buffers -/

/-- The listed value of an element, if it is listed. -/
def cellsGet {w : Nat} : List (Nat × BitVec w) → Nat → Option (BitVec w)
  | [], _ => none
  | (b, x) :: t, a => if a = b then some x else cellsGet t a

/-- The list with element `a` at value `v`, indices still rising. -/
def cellsSet {w : Nat} : List (Nat × BitVec w) → Nat → BitVec w → List (Nat × BitVec w)
  | [], a, v => [(a, v)]
  | (b, x) :: t, a, v =>
    if a < b then (a, v) :: (b, x) :: t else if a = b then (a, v) :: t else (b, x) :: cellsSet t a v

/-- The cells of a sequence that starts at element `a`. -/
def cellsFrom {w : Nat} : Nat → List (BitVec w) → List (Nat × BitVec w)
  | _, [] => []
  | a, x :: xs => (a, x) :: cellsFrom (a + 1) xs

/-- Strictly rising indices. -/
def cellsRising {w : Nat} : List (Nat × BitVec w) → Bool
  | [] => true
  | [_] => true
  | x :: y :: t => decide (x.1 < y.1) && cellsRising (y :: t)

/-- The canonical form of a buffer: indices strictly rising. No listed element equals what an unlisted one reads as, since
an unlisted element has no value of its own. -/
def Buffer.wf {w : Nat} (b : Buffer w) : Bool := cellsRising b.cells

/-- The value of element `i`: the listed one, else the free value of the buffer's unspecified contents (R40). -/
def Buffer.get {w : Nat} (free : Nat → Nat → BitVec w) (b : Buffer w) (i : Nat) : BitVec w :=
  (cellsGet b.cells i).getD (free b.gen i)

/-- Element `i` written, no other changed (R71). -/
def Buffer.put {w : Nat} (b : Buffer w) (i : Nat) (v : BitVec w) : Buffer w := { b with cells := cellsSet b.cells i v }

/-- MemRead(S, 0, n) (R13): every operand starts at element 0 (R61). -/
def Buffer.memRead {w : Nat} (free : Nat → Nat → BitVec w) (b : Buffer w) (n : Nat) : List (BitVec w) :=
  (List.range n).map (b.get free)

/-- The buffer after a command wrote a result into it: elements at and beyond the result unspecified (R40). -/
def Buffer.result {w : Nat} (gen : Nat) (vs : List (BitVec w)) : Buffer w := ⟨cellsFrom 0 vs, gen⟩

/-- A buffer whose contents have become unspecified. -/
def Buffer.unspecified {w : Nat} (gen : Nat) : Buffer w := ⟨[], gen⟩

/-! ## The end of a command -/

/-- Error entry, `raise E`: the code, ST = ERROR, PHASE = IDLE, KS = none; nothing else is saved (R270). -/
def raise (e : ErrCode) (s : State) : State := { s with err := e, st := .error, phase := .idle, ks := none }

/-- The end without error: ERR = 0, ST = DONE (R33), and PHASE returns to IDLE (R31). -/
def finish (s : State) : State := { s with err := .noError, st := .done, phase := .idle }

/-! ## Acceptance of a command word

There is no return from an error: the next command word is accepted in state ERROR as in IDLE or DONE (R273). -/

/-- The first phase of a command (R30, R31). ENCRYPT and DECRYPT begin with the key-size check (R123). -/
def firstPhase : Instr → Phase
  | .derive _ => .kdCheck
  | .nonceGen => .ngSample
  | .cbInit => .cbLoad
  | .run => .ceCheck
  | .utf8Enc => .tcScan
  | .utf8Dec => .tcScan
  | .b64Enc => .tcScan
  | .b64Dec => .tcScan
  | .encrypt _ => .kdCheck
  | .decrypt _ => .kdCheck
  | .clr => .clrDiscard

/-- A legal word is accepted: OPC and NBITS are latched, ST becomes BUSY, the first phase is entered (R31, R90). -/
def acceptCommand (i : Instr) (w : Word) (s : State) : State :=
  { s with opc := fieldOp w, nbits := fieldNb w, st := .busy, phase := firstPhase i, draws := s.draws + 1 }

/-- A write of CMD while ST is not BUSY (R34): ignored in the fatal state (R262); an illegal word ends at once with
IllegalCommand and starts nothing (R95, R267); a legal one is accepted. -/
def writeCommand (w : Word) (s : State) : State :=
  if s.fatal then s
  else
    match decode w with
    | .ok i => acceptCommand i w s
    | .error _ => raise .illegalCommand s

/-- The command word that OPC and NBITS were latched from: RSV is 0 in every accepted word. -/
def latchedWord (s : State) : Word := commandWord s.opc s.nbits

/-- The command in progress while ST is BUSY. -/
def latchedCommand (s : State) : Except DecodeError Instr := decode (latchedWord s)

/-! ## Unspecified internal registers, results, the discard -/

/-- O outside the command that wrote it: a free value (R27). Log 6. -/
def forgetO (c : Config) (s : State) : State := { s with o := c.freeBlock s.draws, draws := s.draws + 1 }

/-- J and NBLK outside a RUN: free values below 2^64 (R28). Log 6. -/
def forgetCounts (c : Config) (s : State) : State :=
  { s with j := (c.freeJ s.draws).toNat, nblk := (c.freeNblk s.draws).toNat, draws := s.draws + 1 }

/-- A length register after a result of `n` elements (R35). The spec states no value when `n` needs more than 32 bits: a
free value. DESIGN CHOICE, log 7. -/
def lengthReg (c : Config) (k n : Nat) : Word := if n < 2 ^ 32 then BitVec.ofNat 32 n else c.freeLength k

/-- A result in OUT with its length (R35, R40). -/
def putOut (c : Config) (bs : List Byte) (s : State) : State :=
  { s with out := .result s.draws bs, outLen := lengthReg c s.draws bs.length, draws := s.draws + 1 }

/-- A result in TXT with its length. -/
def putTxt (c : Config) (es : List Word) (s : State) : State :=
  { s with txt := .result s.draws es, txtLen := lengthReg c s.draws es.length, draws := s.draws + 1 }

/-- A result in B64 with its length. -/
def putB64 (c : Config) (cs : List Byte) (s : State) : State :=
  { s with b64 := .result s.draws cs, b64Len := lengthReg c s.draws cs.length, draws := s.draws + 1 }

/-- What an error inside a scan leaves of OUT: length 0, contents unspecified (R270 b). -/
def voidOut (s : State) : State := { s with out := .unspecified s.draws, outLen := 0, draws := s.draws + 1 }

/-- What an error leaves of TXT (R270 b, c). -/
def voidTxt (s : State) : State := { s with txt := .unspecified s.draws, txtLen := 0, draws := s.draws + 1 }

/-- What an error leaves of B64 (R270 c). -/
def voidB64 (s : State) : State := { s with b64 := .unspecified s.draws, b64Len := 0, draws := s.draws + 1 }

/-- The discard at the end of ENCRYPT and DECRYPT (R233). NONCE and NV are kept. -/
def discard (s : State) : State :=
  { s with
    key := zeros 32, klen := 0, cb := zeros 16, cbv := false, ks := none, dbuf := zeros 32
    pwLen := 0, inLen := 0, outLen := 0
    pw := .unspecified s.draws, inp := .unspecified (s.draws + 1), out := .unspecified (s.draws + 2)
    draws := s.draws + 3 }

end Sys2Proof.Machine
end

