-- ==== Sys2Proof/Machine/Operands.lean ====
section
/-! DEFINITION. Operands: the key size, capacity, and the sequences that the buffers and their length registers give
(spec/30_encoding.md R94, spec/20_memory.md R61, R74). -/

namespace Sys2Proof.Machine

/-- `nBits ∈ {128, 192, 256}` (R94). -/
def keySizeOk (nb : Nat) : Bool := nb == 128 || nb == 192 || nb == 256

/-- `nBytes = nBits div 8` (R94). -/
def keyBytes (nb : Nat) : Nat := nb / 8

/-- The Key is valid when KLEN is 16, 24 or 32 (R22). -/
def keyLenOk (klen : BitVec 8) : Bool := klen == 16 || klen == 24 || klen == 32

/-- `n` elements fit a buffer (R74). -/
def fits (p : Params) (n : Nat) : Bool :=
  match p.maxLen with
  | none => true
  | some m => decide (n ≤ m)

/-- The Key, `KEY[0, KLEN)` (R21). -/
def theKey (s : State) : List Byte := s.key.toList.take s.klen.toNat

/-- The first bytes of `PW[0, PWLEN)`, as many as `n`: a longer password is never read further (R122). -/
def pwBytes (c : Config) (n : Nat) (s : State) : List Byte := s.pw.memRead c.freeByte (min s.pwLen.toNat n)

/-- `PWT[0, PWTLEN)`. -/
def pwtText (c : Config) (s : State) : List Word := s.pwt.memRead c.freeText s.pwtLen.toNat

/-- `TXT[0, TXTLEN)`. -/
def txtText (c : Config) (s : State) : List Word := s.txt.memRead c.freeText s.txtLen.toNat

/-- `IN[0, INLEN)`. -/
def inBytes (c : Config) (s : State) : List Byte := s.inp.memRead c.freeByte s.inLen.toNat

/-- `OUT[0, OUTLEN)`: what the host reads as a result. -/
def outBytes (c : Config) (s : State) : List Byte := s.out.memRead c.freeByte s.outLen.toNat

/-- `B64[0, B64LEN)`. -/
def b64Chars (c : Config) (s : State) : List Byte := s.b64.memRead c.freeByte s.b64Len.toNat

end Sys2Proof.Machine
end

