-- ==== Sys2Proof/Machine/Flags.lean ====
section
/-! DEFINITION. The status, error, control and valid registers as the host sees them: the places of their fields
(spec/10_state.md R25, R32, R33, R36, spec/60_exceptions.md R260). -/

namespace Sys2Proof.Machine

/-- STATUS.ST as a number (R32). -/
def St.code : St → Word
  | .idle => 0
  | .busy => 1
  | .done => 2
  | .error => 3

/-- ERR.CODE as a number (R260). -/
def ErrCode.code : ErrCode → Word
  | .noError => 0
  | .invalidKeySize => 1
  | .encodingUnavailable => 2
  | .malformedUtf8 => 3
  | .malformedBase64 => 4
  | .malformedPayload => 5
  | .illegalCommand => 6
  | .operandNotReady => 7
  | .capacityExceeded => 8
  | .invalidScalar => 9

/-- A one-bit field at bit `n`, the other bits 0. -/
def bitAt (n : Nat) (b : Bool) : Word := if b then (1 : Word) <<< n else 0

/-- STATUS: ST in bits 1 to 0, FATAL in bit 2 (R32). -/
def statusWord (s : State) : Word := s.st.code ||| bitAt 2 s.fatal

/-- ERR: CODE in bits 3 to 0 (R33). -/
def errWord (s : State) : Word := s.err.code

/-- CTL: OBS_EN in bit 0 (R36). -/
def ctlWord (s : State) : Word := bitAt 0 s.obsEn

/-- VALID: NV in bit 0, CBV in bit 1 (R25). -/
def validWord (s : State) : Word := bitAt 0 s.nv ||| bitAt 1 s.cbv

/-- A write of CTL: bits 31 to 1 are ignored (R36). -/
def writeCtl (v : Word) (s : State) : State := { s with obsEn := v.getLsbD 0 }

/-- A write of VALID: bits 31 to 2 are ignored (R25). -/
def writeValid (v : Word) (s : State) : State := { s with nv := v.getLsbD 0, cbv := v.getLsbD 1 }

/-- A write of KLEN: bits 31 to 8 are ignored (R22, R37). -/
def writeKlen (v : Word) (s : State) : State := { s with klen := v.setWidth 8 }

end Sys2Proof.Machine
end

