-- ==== Sys2Proof/Machine/CtrEngine.lean ====
section
/-! DEFINITION. The CTR engine, command RUN (spec/42_ctr_engine.md R160 to R179). -/

namespace Sys2Proof.Machine

/-- The unsigned big-endian value of a byte sequence (R12). -/
def beValue (l : List Byte) : Nat := l.foldl (fun v b => v * 256 + b.toNat) 0

/-- The nonce region of a counter block, `CB[0,8)` (R23). -/
def nonceRegion (cb : Block) : List Byte := cb.toList.take 8

/-- The value of the counter field, `be64(CB[8,16))` (R62). -/
def counterValue (cb : Block) : Nat := beValue (cb.toList.drop 8)

/-- CTRINC from byte `8 + k` leftward (R166): the byte plus 1 modulo 256; a byte that became 0 passes a carry to its left,
and the carry out of `CB[8]` is dropped. -/
def ctrIncFrom : Nat → Block → Block
  | 0, cb => setByteAt cb 8 (byteAt cb 8 + 1)
  | k + 1, cb =>
    let cb' := setByteAt cb (9 + k) (byteAt cb (9 + k) + 1)
    if byteAt cb' (9 + k) = 0 then ctrIncFrom k cb' else cb'

/-- CTRINC (R166): the increment starts at `CB[15]`. -/
def ctrInc (cb : Block) : Block := ctrIncFrom 7 cb

/-- The number of 16-byte blocks of `n` bytes, the last perhaps partial (R162). -/
def blockCount (n : Nat) : Nat := (n + 15) / 16

/-- PROGRESS_INTERVAL (R10), a positive number. -/
def progressInterval (p : Params) : Nat := p.progressIntervalLess1 + 1

/-- A progress signal is due after block number `j` is done (R172). -/
def progressDue (s : State) (j : Nat) : Bool := s.obsEn && j % progressInterval s.params == 0

/-- CE_EXPAND: the schedule of the Key, once per RUN (R163). -/
def ceExpand (c : Config) (s : State) : State :=
  { s with
    phase := .ceExpand
    ks := some (c.keyExpansion (theKey s))
    events := s.events ++ [.keyExpansion (theKey s)] }

/-- CE_CIPHER: O is the whole counter block through the schedule (R164). -/
def ceCipher (c : Config) (s : State) : State :=
  match s.ks with
  | none => s
  | some ks => { s with phase := .ceCipher, o := c.cipher s.cb ks, events := s.events ++ [.cipher s.cb.toList] }

/-- CE_XOR: the input bytes of the block with O's leading bytes (R165). -/
def ceXor (x : List Byte) (o : Block) : List Byte := List.zipWith (· ^^^ ·) x o.toList

/-- CE_INC: the counter and J advance; a due progress signal may appear (R166, R172). Free value, log 9. -/
def ceInc (c : Config) (s : State) : State :=
  { s with
    phase := .ceInc
    cb := ctrInc s.cb
    j := s.j + 1
    events :=
      if progressDue s (s.j + 1) && c.progressShown s.draws then s.events ++ [.progress (s.j + 1) s.nblk] else s.events
    draws := s.draws + 1 }

/-- The loop of RUN over the blocks that are left, in ascending order (R169): the output bytes and the state after it. -/
def ctrLoop (c : Config) : Nat → List Byte → State → List Byte × State
  | 0, _, s => ([], s)
  | k + 1, x, s =>
    let s1 := ceCipher c s
    let y := ceXor (x.take 16) s1.o
    let r := ctrLoop c k (x.drop 16) (ceInc c { s1 with phase := .ceXor })
    (y ++ r.1, r.2)

/-- CE_END: the schedule is dropped (R163); O, J and NBLK are no longer specified (R27, R28). -/
def ceEnd (c : Config) (s : State) : State := forgetCounts c (forgetO c { s with phase := .ceEnd, ks := none })

/-- `run` of input bytes under KEY and CB: the output bytes, as many as the input (R170), and the state after it (R160). -/
def ctrRun (c : Config) (x : List Byte) (s : State) : List Byte × State :=
  let r := ctrLoop c (blockCount x.length) x (ceExpand c { s with nblk := blockCount x.length, j := 0 })
  (r.1, ceEnd c r.2)

/-- RUN (R160). The capacity of the operand is checked before the Key and the counter block (R74, R272, D28, V75), though
R160's pseudocode lists it after them. DEDUCED, log 12. -/
def runCommand (c : Config) (s : State) : State :=
  if !fits s.params s.inLen.toNat then raise .capacityExceeded s
  else if !keyLenOk s.klen then raise .operandNotReady s
  else if !s.cbv then raise .operandNotReady s
  else
    let r := ctrRun c (inBytes c s) s
    finish (putOut c r.1 r.2)

/-- The meaning of RUN. -/
def execRun (s : State) : Host.Outcome State Fault Refusal := .next (runCommand Config.actual s)

end Sys2Proof.Machine
end

