-- ==== Sys2Proof/Machine/KeyDeriver.lean ====
section
/-! DEFINITION. The KeyDeriver, command DERIVE (spec/40_keyderiver.md R120 to R129). -/

namespace Sys2Proof.Machine

/-- KD_FILL: the password's bytes in order, then zeros, in `DBUF[0, nBytes)` (R121, R122). -/
def kdFill (pw : List Byte) (n : Nat) (s : State) : State :=
  { s with phase := .kdFill, dbuf := packBytes 32 (padTo 0 n pw ++ s.dbuf.toList.drop n) }

/-- KD_EXPAND: the schedule of the whole buffer (R124). -/
def kdExpand (c : Config) (n : Nat) (s : State) : State :=
  { s with
    phase := .kdExpand
    ks := some (c.keyExpansion (s.dbuf.toList.take n))
    events := s.events ++ [.keyExpansion (s.dbuf.toList.take n)] }

/-- KD_CIPHER: the first 16 bytes of the buffer through that schedule (R124). -/
def kdCipher (c : Config) (s : State) : State :=
  match s.ks with
  | none => s
  | some ks =>
    { s with
      phase := .kdCipher
      o := c.cipher (packBytes 16 s.dbuf.toList) ks
      events := s.events ++ [.cipher (s.dbuf.toList.take 16)] }

/-- KD_EXTEND: the 16-byte result, then its own first bytes up to nBytes, then zeros (R125). -/
def kdExtend (n : Nat) (s : State) : State :=
  { s with
    phase := .kdExtend
    key := packBytes 32 (s.o.toList ++ s.o.toList.take (n - 16))
    klen := BitVec.ofNat 8 n }

/-- The end of a derivation: KS and DBUF dropped (R29, R129), O no longer specified (R27). -/
def kdEnd (c : Config) (s : State) : State := forgetO c { s with ks := none, dbuf := zeros 32 }

/-- `derive` of password bytes into KEY and KLEN, phase by phase (R120, R128). -/
def deriveKey (c : Config) (pw : List Byte) (n : Nat) (s : State) : State :=
  kdEnd c (kdExtend n (kdCipher c (kdExpand c n (kdFill pw n s))))

/-- DERIVE nBits (R120): the key-size check first (R123), then the capacity of the operand (R74). -/
def deriveCommand (c : Config) (nb : Nat) (s : State) : State :=
  if !keySizeOk nb then raise .invalidKeySize s
  else if !fits s.params s.pwLen.toNat then raise .capacityExceeded s
  else finish (deriveKey c (pwBytes c (keyBytes nb) s) (keyBytes nb) s)

/-- The meaning of DERIVE. -/
def execDerive (nb : Nat) (s : State) : Host.Outcome State Fault Refusal := .next (deriveCommand Config.actual nb s)

end Sys2Proof.Machine
end

