-- ==== Sys2Proof/Machine/NonceGen.lean ====
section
/-! DEFINITION. The nonce generator and the construction of the counter block, commands NONCEGEN and CBINIT
(spec/41_nonce.md R140 to R147). -/

namespace Sys2Proof.Machine

/-- The 8 nonce bytes of a clock reading and a draw: milliseconds, draw, seconds modulo 2^32, little-endian each (R143). -/
def nonceOf (t : Nat) (r : BitVec 16) : Vector Byte 8 :=
  let ms := t % 1000
  let sec := (t / 1000) % 2 ^ 32
  packBytes 8
    [BitVec.ofNat 8 (ms % 256), BitVec.ofNat 8 (ms / 256),
     r.extractLsb' 0 8, r.extractLsb' 8 8,
     BitVec.ofNat 8 (sec % 256), BitVec.ofNat 8 (sec / 2 ^ 8 % 256),
     BitVec.ofNat 8 (sec / 2 ^ 16 % 256), BitVec.ofNat 8 (sec / 2 ^ 24 % 256)]

/-- NG_SAMPLE: one reading of the clock, in milliseconds since EPOCH, one draw, NONCE and NV written (R140 to R142). The answers are free values, log 8. -/
def generate (c : Config) (s : State) : State :=
  { s with
    phase := .ngSample
    nonce := nonceOf (c.clockRead s.params.epoch s.draws) (c.rngDraw s.draws)
    nv := true
    events := s.events ++ [.clockRead (c.clockRead s.params.epoch s.draws), .rngDraw (c.rngDraw s.draws)]
    draws := s.draws + 1 }

/-- CB_LOAD: the nonce, then a counter of 0 (R145, R99). -/
def loadCounter (s : State) : State :=
  { s with phase := .cbLoad, cb := packBytes 16 (s.nonce.toList ++ (zeros 8).toList), cbv := true }

/-- NONCEGEN (R140). -/
def nonceGenCommand (c : Config) (s : State) : State := finish (generate c s)

/-- CBINIT (R145): OperandNotReady when NV is 0 (R268). -/
def cbInitCommand (s : State) : State := if !s.nv then raise .operandNotReady s else finish (loadCounter s)

/-- The meaning of NONCEGEN. -/
def execNonceGen (s : State) : Host.Outcome State Fault Refusal := .next (nonceGenCommand Config.actual s)

/-- The meaning of CBINIT. -/
def execCbInit (s : State) : Host.Outcome State Fault Refusal := .next (cbInitCommand s)

end Sys2Proof.Machine
end

