-- ==== Sys2Proof/Machine/TextCodec.lean ====
section
/-! DEFINITION. The text codec, commands UTF8ENC, UTF8DEC, B64ENC and B64DEC (spec/43_textcodec.md R200 to R211). -/

namespace Sys2Proof.Machine

/-! ## UTF-8 -/

/-- A continuation byte: the six bits of `c` from bit `sh` up, under 0x80 (R201). -/
def contByte (c : BitVec 32) (sh : Nat) : BitVec 8 := ((0x80 : BitVec 32) ||| ((c >>> sh) &&& 0x3F)).setWidth 8

/-- A lead byte: the bits of `c` from bit `sh` up, under `mark` (R201). -/
def leadByte (mark c : BitVec 32) (sh : Nat) : BitVec 8 := (mark ||| (c >>> sh)).setWidth 8

/-- `utf8(c)`: the 1 to 4 bytes of a scalar value (R201). -/
def utf8Bytes (c : Word) : List Byte :=
  if c.toNat ≤ 0x7F then [c.setWidth 8]
  else if c.toNat ≤ 0x7FF then [leadByte 0xC0 c 6, contByte c 0]
  else if c.toNat ≤ 0xFFFF then [leadByte 0xE0 c 12, contByte c 6, contByte c 0]
  else [leadByte 0xF0 c 18, contByte c 12, contByte c 6, contByte c 0]

/-- The scan of UTF8ENC with `n` bytes already written: the first element that is no scalar value, or whose bytes do not
fit, ends it (R200). -/
def utf8Scan (p : Params) : List Word → Nat → Except ErrCode (List Byte)
  | [], _ => .ok []
  | e :: es, n =>
    if !isScalarValue e then .error .invalidScalar
    else if !fits p (n + (utf8Bytes e).length) then .error .capacityExceeded
    else
      match utf8Scan p es (n + (utf8Bytes e).length) with
      | .error x => .error x
      | .ok bs => .ok (utf8Bytes e ++ bs)

/-- `utf8Encode` of a text, with its errors (R200). -/
def utf8Encode (p : Params) (text : List Word) : Except ErrCode (List Byte) := utf8Scan p text 0

/-- The row of R203's table that a first byte selects: how many bytes follow, and the range of the second byte. -/
def utf8Row (b0 : Byte) : Option (Nat × Nat × Nat) :=
  let b := b0.toNat
  if b ≤ 0x7F then some (0, 0, 0)
  else if 0xC2 ≤ b ∧ b ≤ 0xDF then some (1, 0x80, 0xBF)
  else if b = 0xE0 then some (2, 0xA0, 0xBF)
  else if 0xE1 ≤ b ∧ b ≤ 0xEC then some (2, 0x80, 0xBF)
  else if b = 0xED then some (2, 0x80, 0x9F)
  else if 0xEE ≤ b ∧ b ≤ 0xEF then some (2, 0x80, 0xBF)
  else if b = 0xF0 then some (3, 0x90, 0xBF)
  else if 0xF1 ≤ b ∧ b ≤ 0xF3 then some (3, 0x80, 0xBF)
  else if b = 0xF4 then some (3, 0x80, 0x8F)
  else none

/-- A byte in a range of R203's table. -/
def inRange (lo hi : Nat) (b : Byte) : Bool := decide (lo ≤ b.toNat) && decide (b.toNat ≤ hi)

/-- The low bits of a byte, at bit `sh` of an element: the x bits of R201 read back. -/
def fieldBits (mask b : BitVec 8) (sh : Nat) : BitVec 32 := (b &&& mask).setWidth 32 <<< sh

/-- The first scalar value of a byte sequence and the bytes after it, if the sequence begins with a row of R203. -/
def utf8First : List Byte → Option (Word × List Byte)
  | [] => none
  | b0 :: t =>
    match utf8Row b0, t with
    | some (0, _, _), t => some (b0.setWidth 32, t)
    | some (1, lo, hi), b1 :: t =>
      if inRange lo hi b1 then some (fieldBits 0x1F b0 6 ||| fieldBits 0x3F b1 0, t) else none
    | some (2, lo, hi), b1 :: b2 :: t =>
      if inRange lo hi b1 && inRange 0x80 0xBF b2 then
        some (fieldBits 0x0F b0 12 ||| fieldBits 0x3F b1 6 ||| fieldBits 0x3F b2 0, t)
      else none
    | some (3, lo, hi), b1 :: b2 :: b3 :: t =>
      if inRange lo hi b1 && inRange 0x80 0xBF b2 && inRange 0x80 0xBF b3 then
        some (fieldBits 0x07 b0 18 ||| fieldBits 0x3F b1 12 ||| fieldBits 0x3F b2 6 ||| fieldBits 0x3F b3 0, t)
      else none
    | _, _ => none

/-- The scalar values of a well-formed byte sequence of at most `fuel` rows; none when it is malformed (R203). -/
def utf8Rows : Nat → List Byte → Option (List Word)
  | _, [] => some []
  | 0, _ :: _ => none
  | fuel + 1, b :: t =>
    match utf8First (b :: t) with
    | none => none
    | some (e, rest) => (utf8Rows fuel rest).map (e :: ·)

/-- The strict decoder: the inverse of the encoder, none on malformed bytes (R202, R203). -/
def utf8Strict (b : List Byte) : Option (List Word) := utf8Rows b.length b

/-- The text that `utf8Decode` gives under the policy, before the capacity of the result is checked (R202, R204). -/
def utf8Text (c : Config) (p : Params) (b : List Byte) : Except ErrCode (List Word) :=
  match utf8Strict b with
  | some t => .ok t
  | none =>
    match p.policy with
    | .fail => .error .malformedUtf8
    | .replace => .ok ((c.utf8Replace b).map Scalar.val)

/-- `utf8Decode` of bytes, with its errors (R202). -/
def utf8Decode (c : Config) (p : Params) (b : List Byte) : Except ErrCode (List Word) :=
  match utf8Text c p b with
  | .error e => .error e
  | .ok t => if fits p t.length then .ok t else .error .capacityExceeded

/-! ## Base64 -/

/-- The alphabet (R206): the character of a 6-bit index. -/
def b64Char (v : BitVec 6) : Byte :=
  let n := v.toNat
  if n < 26 then BitVec.ofNat 8 (0x41 + n)
  else if n < 52 then BitVec.ofNat 8 (0x61 + (n - 26))
  else if n < 62 then BitVec.ofNat 8 (0x30 + (n - 52))
  else if n = 62 then 0x2B
  else 0x2F

/-- The pad character `=` (R206). -/
def b64Pad : Byte := 0x3D

/-- The index of an alphabet character; none for every other code (R206). -/
def b64Index (ch : Byte) : Option (BitVec 6) :=
  let n := ch.toNat
  if 0x41 ≤ n ∧ n ≤ 0x5A then some (BitVec.ofNat 6 (n - 0x41))
  else if 0x61 ≤ n ∧ n ≤ 0x7A then some (BitVec.ofNat 6 (n - 0x61 + 26))
  else if 0x30 ≤ n ∧ n ≤ 0x39 then some (BitVec.ofNat 6 (n - 0x30 + 52))
  else if n = 0x2B then some 62
  else if n = 0x2F then some 63
  else none

/-- The 24-bit value of three bytes, most significant first (R65). -/
def b64Group (b0 b1 b2 : Byte) : BitVec 24 := (b0.setWidth 24 <<< 16) ||| (b1.setWidth 24 <<< 8) ||| b2.setWidth 24

/-- The character of the 6 bits of a group from bit `sh` up. -/
def b64CharAt (v : BitVec 24) (sh : Nat) : Byte := b64Char (v.extractLsb' sh 6)

/-- The Base64 string of a byte sequence: full groups, then the last one or two bytes padded with `=` (R205). -/
def b64String : List Byte → List Byte
  | b0 :: b1 :: b2 :: t =>
    let v := b64Group b0 b1 b2
    b64CharAt v 18 :: b64CharAt v 12 :: b64CharAt v 6 :: b64CharAt v 0 :: b64String t
  | [b0, b1] =>
    let v := b64Group b0 b1 0
    [b64CharAt v 18, b64CharAt v 12, b64CharAt v 6, b64Pad]
  | [b0] =>
    let v := b64Group b0 0 0
    [b64CharAt v 18, b64CharAt v 12, b64Pad, b64Pad]
  | [] => []

/-- The number of characters of the string of `n` bytes (R205, R210). -/
def b64Length (n : Nat) : Nat := 4 * ((n + 2) / 3)

/-- `base64Encode` of bytes, with its error, raised before any write (R205). -/
def b64Encode (p : Params) (b : List Byte) : Except ErrCode (List Byte) :=
  if fits p b.length && fits p (b64Length b.length) then .ok (b64String b) else .error .capacityExceeded

/-- The number of trailing `=`, counted up to 2 (R207). -/
def b64Pads (s : List Byte) : Nat :=
  match s.reverse with
  | x :: y :: _ => if x = b64Pad then (if y = b64Pad then 2 else 1) else 0
  | [x] => if x = b64Pad then 1 else 0
  | [] => 0

/-- The index of the last character before the padding; 0 when there is none. -/
def b64LastIndex (s : List Byte) : Nat :=
  match ((s.take (s.length - b64Pads s)).getLast?).bind b64Index with
  | some v => v.toNat
  | none => 0

/-- A canonical string (R208): (a) the length; (b) the alphabet, but for the last one or two characters; (c), (d) the
spare bits of the character before the padding are zero. -/
def b64Canonical (s : List Byte) : Bool :=
  s.length % 4 == 0
    && (s.take (s.length - b64Pads s)).all (fun ch => (b64Index ch).isSome)
    && (b64Pads s != 1 || b64LastIndex s % 4 == 0)
    && (b64Pads s != 2 || b64LastIndex s % 16 == 0)

/-- `I'(ch)`: the index of an alphabet character, 0 for `=` (R207). -/
def b64Value (ch : Byte) : BitVec 6 := (b64Index ch).getD 0

/-- The bytes of the groups of four characters, before the padding is taken off (R207). -/
def b64Groups : List Byte → List Byte
  | c0 :: c1 :: c2 :: c3 :: t =>
    let v : BitVec 24 := ((b64Value c0).setWidth 24 <<< 18) ||| ((b64Value c1).setWidth 24 <<< 12)
      ||| ((b64Value c2).setWidth 24 <<< 6) ||| (b64Value c3).setWidth 24
    v.extractLsb' 16 8 :: v.extractLsb' 8 8 :: v.extractLsb' 0 8 :: b64Groups t
  | _ => []

/-- `base64Decode` of a string: MalformedBase64 when it is not canonical (R207, R208). -/
def b64Decode (s : List Byte) : Except ErrCode (List Byte) :=
  if b64Canonical s then .ok ((b64Groups s).take (3 * (s.length / 4) - b64Pads s)) else .error .malformedBase64

/-! ## The commands -/

/-- UTF8ENC (R200). An error inside the scan leaves OUTLEN 0 and OUT unspecified (R270 b). -/
def utf8EncCommand (c : Config) (s : State) : State :=
  if !fits s.params s.txtLen.toNat then raise .capacityExceeded s
  else
    match utf8Encode s.params (txtText c s) with
    | .error e => raise e (voidOut s)
    | .ok bs => finish (putOut c bs s)

/-- UTF8DEC (R202). An error after the operand check leaves TXTLEN 0 and TXT unspecified (R270 b). -/
def utf8DecCommand (c : Config) (s : State) : State :=
  if !fits s.params s.inLen.toNat then raise .capacityExceeded s
  else
    match utf8Decode c s.params (inBytes c s) with
    | .error e => raise e (voidTxt s)
    | .ok t => finish (putTxt c t s)

/-- B64ENC (R205). -/
def b64EncCommand (c : Config) (s : State) : State :=
  if !(fits s.params s.inLen.toNat && fits s.params (b64Length s.inLen.toNat)) then raise .capacityExceeded s
  else finish (putB64 c (b64String (inBytes c s)) s)

/-- B64DEC (R207). -/
def b64DecCommand (c : Config) (s : State) : State :=
  if !fits s.params s.b64Len.toNat then raise .capacityExceeded s
  else
    match b64Decode (b64Chars c s) with
    | .error e => raise e s
    | .ok bs => finish (putOut c bs s)

/-- The meaning of UTF8ENC. -/
def execUtf8Enc (s : State) : Host.Outcome State Fault Refusal := .next (utf8EncCommand Config.actual s)

/-- The meaning of UTF8DEC. -/
def execUtf8Dec (s : State) : Host.Outcome State Fault Refusal := .next (utf8DecCommand Config.actual s)

/-- The meaning of B64ENC. -/
def execB64Enc (s : State) : Host.Outcome State Fault Refusal := .next (b64EncCommand Config.actual s)

/-- The meaning of B64DEC. -/
def execB64Dec (s : State) : Host.Outcome State Fault Refusal := .next (b64DecCommand Config.actual s)

end Sys2Proof.Machine
end

