-- ==== Sys2Proof/Machine/Composite.lean ====
section
/-! DEFINITION. The composite operations, commands ENCRYPT and DECRYPT (spec/44_composite.md R230 to R241). -/

namespace Sys2Proof.Machine

/-- An error of ENCRYPT after its line 2: the discard, B64LEN 0 and B64 unspecified, then the raise (R230, R270 c). -/
def encryptFail (e : ErrCode) (s : State) : State := raise e (discard (voidB64 s))

/-- An error of DECRYPT after its line 2: the discard, TXTLEN 0 and TXT unspecified, then the raise (R231, R270 c). -/
def decryptFail (e : ErrCode) (s : State) : State := raise e (discard (voidTxt s))

/-- Lines 5 to 8 of ENCRYPT: derive, generate, a fresh counter block, run (R230). -/
def encryptBody (c : Config) (n : Nat) (plain pw : List Byte) (s : State) : List Byte × State :=
  ctrRun c plain (loadCounter (generate c (deriveKey c pw n s)))

/-- ENCRYPT nBits (R230). -/
def encryptCommand (c : Config) (nb : Nat) (s : State) : State :=
  if !keySizeOk nb then raise .invalidKeySize s
  else if !(fits s.params s.txtLen.toNat && fits s.params s.pwtLen.toNat) then raise .capacityExceeded s
  else
    match utf8Encode s.params (txtText c s) with
    | .error e => encryptFail e s
    | .ok plain =>
      match utf8Encode s.params (pwtText c s) with
      | .error e => encryptFail e s
      | .ok pw =>
        let r := encryptBody c (keyBytes nb) plain pw s
        match b64Encode r.2.params (r.2.nonce.toList ++ r.1) with
        | .error e => encryptFail e r.2
        | .ok str => finish (discard (putB64 c str r.2))

/-- Line 5 of DECRYPT: the nonce is split off the payload (R231). -/
def splitNonce (payload : List Byte) (s : State) : State := { s with nonce := packBytes 8 payload, nv := true }

/-- Lines 7 to 9 of DECRYPT: derive, a fresh counter block, run (R231). -/
def decryptBody (c : Config) (n : Nat) (body pw : List Byte) (s : State) : List Byte × State :=
  ctrRun c body (loadCounter (deriveKey c pw n s))

/-- DECRYPT nBits (R231). -/
def decryptCommand (c : Config) (nb : Nat) (s : State) : State :=
  if !keySizeOk nb then raise .invalidKeySize s
  else if !(fits s.params s.b64Len.toNat && fits s.params s.pwtLen.toNat) then raise .capacityExceeded s
  else
    match b64Decode (b64Chars c s) with
    | .error e => decryptFail e s
    | .ok payload =>
      if payload.length < 8 then decryptFail .malformedPayload s
      else
        let s1 := splitNonce payload s
        match utf8Encode s1.params (pwtText c s1) with
        | .error e => decryptFail e s1
        | .ok pw =>
          let r := decryptBody c (keyBytes nb) (payload.drop 8) pw s1
          match utf8Decode c r.2.params r.1 with
          | .error e => decryptFail e r.2
          | .ok t => finish (discard (putTxt c t r.2))

/-- The meaning of ENCRYPT. -/
def execEncrypt (nb : Nat) (s : State) : Host.Outcome State Fault Refusal := .next (encryptCommand Config.actual nb s)

/-- The meaning of DECRYPT. -/
def execDecrypt (nb : Nat) (s : State) : Host.Outcome State Fault Refusal := .next (decryptCommand Config.actual nb s)

end Sys2Proof.Machine
end

