-- ==== Sys2Proof/Machine/Control.lean ====
section
/-! DEFINITION. Control, command CLR (spec/45_control.md R250). -/

namespace Sys2Proof.Machine

/-- CLR (R250): all call-local state back to its reset values, ST = IDLE; CTL is unchanged. "The state CLR leaves equals
the reset state", so J and NBLK are 0. -/
def clrCommand (s : State) : State :=
  { s with
    key := zeros 32, klen := 0, cb := zeros 16, nonce := zeros 8, nv := false, cbv := false
    ks := none, dbuf := zeros 32, j := 0, nblk := 0
    pwLen := 0, pwtLen := 0, txtLen := 0, inLen := 0, outLen := 0, b64Len := 0
    pw := .unspecified s.draws, pwt := .unspecified (s.draws + 1), txt := .unspecified (s.draws + 2)
    inp := .unspecified (s.draws + 3), out := .unspecified (s.draws + 4), b64 := .unspecified (s.draws + 5)
    err := .noError, st := .idle, phase := .idle
    draws := s.draws + 6 }

/-- The meaning of CLR. -/
def execClr (s : State) : Host.Outcome State Fault Refusal := .next (clrCommand s)

end Sys2Proof.Machine
end

