-- ==== Sys2Proof/Machine/Dispatch.lean ====
section
/-! DEFINITION. The meaning of each command (spec/30_encoding.md R93). -/

namespace Sys2Proof.Machine

def exec (i : Instr) (s : State) : Host.Outcome State Fault Refusal :=
  match i with
  | .derive nb => Sys2Proof.Machine.execDerive nb s
  | .nonceGen => Sys2Proof.Machine.execNonceGen s
  | .cbInit => Sys2Proof.Machine.execCbInit s
  | .run => Sys2Proof.Machine.execRun s
  | .utf8Enc => Sys2Proof.Machine.execUtf8Enc s
  | .utf8Dec => Sys2Proof.Machine.execUtf8Dec s
  | .b64Enc => Sys2Proof.Machine.execB64Enc s
  | .b64Dec => Sys2Proof.Machine.execB64Dec s
  | .encrypt nb => Sys2Proof.Machine.execEncrypt nb s
  | .decrypt nb => Sys2Proof.Machine.execDecrypt nb s
  | .clr => Sys2Proof.Machine.execClr s

end Sys2Proof.Machine
end

