-- ==== Sys2Proof/Machine/HostPort.lean ====
section
/-! DEFINITION. The host's accesses: registers by index, arrays and buffers by element (spec/10_state.md R37, R45,
spec/20_memory.md R60, R70, R71). -/

namespace Sys2Proof.Machine

/-- A register read by index (R37): CMD and every index not in the table read 0. -/
def readReg (s : State) (i : Nat) : Word :=
  match i with
  | 1 => statusWord s
  | 2 => errWord s
  | 3 => ctlWord s
  | 4 => validWord s
  | 5 => s.klen.setWidth 32
  | 6 => s.pwLen
  | 7 => s.pwtLen
  | 8 => s.txtLen
  | 9 => s.inLen
  | 10 => s.outLen
  | 11 => s.b64Len
  | _ => 0

/-- A register write by index (R37): STATUS, ERR and every index not in the table ignore writes. A write of a length register
changes that register only (R71): elements that a lower length puts at or beyond it, which R40 calls unspecified, keep their
values. DEDUCED, log 30. -/
def writeReg (i : Nat) (v : Word) (s : State) : State :=
  match i with
  | 0 => writeCommand v s
  | 3 => writeCtl v s
  | 4 => writeValid v s
  | 5 => writeKlen v s
  | 6 => { s with pwLen := v }
  | 7 => { s with pwtLen := v }
  | 8 => { s with txtLen := v }
  | 9 => { s with inLen := v }
  | 10 => { s with outLen := v }
  | 11 => { s with b64Len := v }
  | _ => s

/-- The number of bytes of a register array (R60). -/
def arrSize : Arr → Nat
  | .key => 32
  | .cb => 16
  | .nonce => 8

/-- A byte of a register array. -/
def readArr (s : State) (a : Arr) (i : Nat) : Byte :=
  match a with
  | .key => byteAt s.key i
  | .cb => byteAt s.cb i
  | .nonce => byteAt s.nonce i

/-- A byte of a register array written; KLEN and VALID do not change (R71). -/
def writeArr (a : Arr) (i : Nat) (v : Byte) (s : State) : State :=
  match a with
  | .key => { s with key := setByteAt s.key i v }
  | .cb => { s with cb := setByteAt s.cb i v }
  | .nonce => { s with nonce := setByteAt s.nonce i v }

/-- A byte or character buffer. -/
def byteBuf (s : State) : ByteBuf → Buffer 8
  | .pw => s.pw
  | .inp => s.inp
  | .out => s.out
  | .b64 => s.b64

/-- A text buffer. -/
def textBuf (s : State) : TextBuf → Buffer 32
  | .pwt => s.pwt
  | .txt => s.txt

/-- An element of a byte buffer written; its length register does not change (R71). At or beyond the length the element keeps
the value too. DEDUCED, log 5. -/
def writeByteBuf (b : ByteBuf) (i : Nat) (v : Byte) (s : State) : State :=
  match b with
  | .pw => { s with pw := s.pw.put i v }
  | .inp => { s with inp := s.inp.put i v }
  | .out => { s with out := s.out.put i v }
  | .b64 => { s with b64 := s.b64.put i v }

/-- An element of a text buffer written, below the length register or not. DEDUCED, log 5. -/
def writeTextBuf (b : TextBuf) (i : Nat) (v : Word) (s : State) : State :=
  match b with
  | .pwt => { s with pwt := s.pwt.put i v }
  | .txt => { s with txt := s.txt.put i v }

/-- Whether the element an access names exists (R60): every register index does (R37), a buffer has MAXLEN elements. -/
def accessExists (p : Params) : HostAccess → Bool
  | .readReg _ => true
  | .writeReg _ _ => true
  | .readArr a i => decide (i < arrSize a)
  | .writeArr a i _ => decide (i < arrSize a)
  | .readByte _ i => fits p (i + 1)
  | .writeByte _ i _ => fits p (i + 1)
  | .readText _ i => fits p (i + 1)
  | .writeText _ i _ => fits p (i + 1)

/-- The index an access names. -/
def accessIndex : HostAccess → Nat
  | .readReg i => i
  | .writeReg i _ => i
  | .readArr _ i => i
  | .writeArr _ i _ => i
  | .readByte _ i => i
  | .writeByte _ i _ => i
  | .readText _ i => i
  | .writeText _ i _ => i

/-- A read completes with a value. -/
def reply (a : HostAccess) (v : Word) (s : State) : State := { s with replies := s.replies ++ [⟨a, v⟩] }

/-- The effect of one access while ST is not BUSY. A read changes nothing but the replies (R71). -/
def access (c : Config) (a : HostAccess) (s : State) : State :=
  match a with
  | .readReg i => reply a (readReg s i) s
  | .writeReg i v => writeReg i v s
  | .readArr r i => reply a ((readArr s r i).setWidth 32) s
  | .writeArr r i v => writeArr r i v s
  | .readByte b i => reply a (((byteBuf s b).get c.freeByte i).setWidth 32) s
  | .writeByte b i v => writeByteBuf b i v s
  | .readText b i => reply a ((textBuf s b).get c.freeText i) s
  | .writeText b i v => writeTextBuf b i v s

/-- One access of the host while ST is not BUSY; an element that does not exist faults (log 16). -/
def serve (c : Config) (a : HostAccess) (s : State) : Host.Outcome State Fault Refusal :=
  if accessExists s.params a then .next (access c a s) else .fault (.noSuchElement (accessIndex a))

/-- The accesses left when the first STATUS read among them completes, if there is one: a read of STATUS is never held,
every other access is (R70). -/
def takeStatusRead : List HostAccess → Option (List HostAccess)
  | [] => none
  | a :: t => if a = .readReg 1 then some t else (takeStatusRead t).map (a :: ·)

/-- A STATUS read is answered while a command runs (R70). -/
def answerStatus (rest : List HostAccess) (s : State) : State :=
  reply (.readReg 1) (statusWord s) { s with pending := rest, draws := s.draws + 1 }

end Sys2Proof.Machine
end

