-- ==== Sys2Proof/Machine/Step.lean ====
section
/-! DEFINITION. One step of the core (spec/10_state.md R31, spec/20_memory.md R70, R75). -/

namespace Sys2Proof.Machine

/-- The command in progress runs to completion. A latched word that is no command cannot arise (log 20). -/
def runLatched (s : State) : Host.Outcome State Fault Refusal :=
  match latchedCommand s with
  | .ok i => exec i s
  | .error _ => .next (raise .illegalCommand s)

/-- One step. While ST is BUSY every access but a STATUS read is held, so the step runs the command to completion, unless a
STATUS read that the host has issued is answered first (R70; which comes first is free, log 10). While ST is not BUSY the
oldest access of the host completes; with none, the core waits with its state held (R282, R301). -/
def step (s : State) : Host.Outcome State Fault Refusal :=
  if s.st = .busy then
    match takeStatusRead s.pending with
    | some rest => if Config.actual.statusReadFirst s.draws then .next (answerStatus rest s) else runLatched s
    | none => runLatched s
  else
    match s.pending with
    | [] => .next s
    | a :: rest => serve Config.actual a { s with pending := rest }

/-- `s` with the host's write of the command word just made (R31): the very next step runs it. The fatal state, which
accepts no word (R262), is left, and no STATUS read stands before the command. How a program comes to run from reset: log 17. -/
def State.withFetchWord (s : State) (nbits w : Nat) : State :=
  writeCommand (tableWord nbits w) { s with fatal := false, pending := s.pending.filter (· ≠ .readReg 1) }

end Sys2Proof.Machine
end

