-- ==== Sys2Proof/Safety.lean ====
section
/-! DEFINITION. What claims about the core are stated in: the invariant of its states, and the closed forms of the key, the
counter blocks and the keystream (spec/40_keyderiver.md R121 to R125, spec/42_ctr_engine.md R177). -/

namespace Sys2Proof.Machine

/-- Every buffer has its canonical form. -/
def State.buffersWf (s : State) : Bool :=
  s.pw.wf && s.pwt.wf && s.txt.wf && s.inp.wf && s.out.wf && s.b64.wf

/-- The states a core can be in between steps. -/
structure State.Inv (s : State) : Prop where
  /-- Every buffer has its canonical form. -/
  buffers : s.buffersWf = true
  /-- KS is none outside a command (R26). -/
  noSchedule : s.ks = none
  /-- PHASE is IDLE while ST is not BUSY (R31). -/
  idlePhase : s.st ≠ .busy → s.phase = .idle
  /-- While ST is BUSY the latched word is a command, in its first phase, and the core is not fatal (R31, R262). -/
  busyCommand : s.st = .busy → s.fatal = false ∧ ∃ i, latchedCommand s = .ok i ∧ s.phase = firstPhase i
  /-- Outside a command ERR holds a code exactly when ST is ERROR (R32, R33). -/
  errorCode : s.st ≠ .busy → (s.st = .error ↔ s.err ≠ .noError)
  /-- The fatal state is that of a core without the encoding facility, and EncodingUnavailable is its code and the code of
  nothing else (R262). -/
  fatalCode : s.fatal = !s.params.encAvailable ∧ (s.fatal = true ↔ s.err = .encodingUnavailable)
  /-- J and NBLK are below 2^64 (R28). -/
  counts : s.j < 2 ^ 64 ∧ s.nblk < 2 ^ 64

/-- The accesses in `pending` that the core holds while BUSY: all but the STATUS reads (R70). -/
def heldAccesses (s : State) : List HostAccess := s.pending.filter (· ≠ .readReg 1)

/-- The derive buffer of `n` bytes: the password's bytes in order, 0 beyond the password's length (R121). -/
def deriveBuffer (pw : List Byte) (n : Nat) : List Byte := (List.range n).map fun i => pw.getD i 0

/-- The one cipher result of a derivation (R124). -/
def deriveBlock (c : Config) (pw : List Byte) (n : Nat) : Block :=
  c.cipher (packBytes 16 (deriveBuffer pw n)) (c.keyExpansion (deriveBuffer pw n))

/-- Byte `i` of the derived Key of `n` bytes (R125): R, then R's own first bytes. -/
def derivedKeyByte (c : Config) (pw : List Byte) (n i : Nat) : Byte :=
  if i < 16 then byteAt (deriveBlock c pw n) i
  else if i < n then byteAt (deriveBlock c pw n) (i - 16)
  else 0

/-- The derived Key as a byte sequence. -/
def derivedKey (c : Config) (pw : List Byte) (n : Nat) : List Byte := (List.range n).map (derivedKeyByte c pw n)

/-- `be64inv`: a value below 2^64 as 8 big-endian bytes (R177). -/
def be64Bytes (v : Nat) : List Byte := (List.range 8).map fun i => BitVec.ofNat 8 (v / 256 ^ (7 - i))

/-- `T(j)`: the nonce region of a counter block with its counter advanced by `j` (R177). -/
def counterBlockAt (cb : Block) (j : Nat) : Block :=
  packBytes 16 (nonceRegion cb ++ be64Bytes ((counterValue cb + j) % 2 ^ 64))

/-- Byte `k` of the keystream S from a starting counter block (R177). -/
def keystreamByte (c : Config) (ks : Schedule) (cb : Block) (k : Nat) : Byte :=
  byteAt (c.cipher (counterBlockAt cb (k / 16)) ks) (k % 16)

/-- The CTR transform of a byte sequence in closed form: `OUT[k] = IN[k] xor S[k]` (R177). -/
def ctrTransform (c : Config) (ks : Schedule) (cb : Block) (x : List Byte) : List Byte :=
  (List.range x.length).map fun k => x.getD k 0 ^^^ keystreamByte c ks cb k

/-- A fresh counter block: the nonce, then a counter of 0 (R145). -/
def freshBlock (nonce : Vector Byte 8) : Block := packBytes 16 (nonce.toList ++ (zeros 8).toList)

/-- The UTF-8 bytes of a text (R201). -/
def utf8All (text : List Word) : List Byte := text.flatMap utf8Bytes

/-- Every element of a text is a scalar value (R39). -/
def scalarText (text : List Word) : Bool := text.all isScalarValue

/-- The scan of a text ends without error (R200): scalar values only, whose bytes fit a buffer. -/
def scanSucceeds (p : Params) (text : List Word) : Prop :=
  scalarText text = true ∧ fits p (utf8All text).length = true

/-- The scan of a text raises `e` (R200): at its first bad element `x`, InvalidScalar when `x` is no scalar value,
CapacityExceeded when its bytes no longer fit. -/
def scanRaises (p : Params) (text : List Word) (e : ErrCode) : Prop :=
  ∃ pre x post, text = pre ++ x :: post ∧ scanSucceeds p pre ∧
    ((isScalarValue x = false ∧ e = .invalidScalar) ∨
      (isScalarValue x = true ∧ fits p (utf8All (pre ++ [x])).length = false ∧ e = .capacityExceeded))

/-- The bytes of R201's table for a scalar value `v`, as numbers. -/
def utf8Pattern (v : Nat) : List Nat :=
  if v ≤ 0x7F then [v]
  else if v ≤ 0x7FF then [0xC0 + v / 2 ^ 6, 0x80 + v % 2 ^ 6]
  else if v ≤ 0xFFFF then [0xE0 + v / 2 ^ 12, 0x80 + v / 2 ^ 6 % 2 ^ 6, 0x80 + v % 2 ^ 6]
  else [0xF0 + v / 2 ^ 18, 0x80 + v / 2 ^ 12 % 2 ^ 6, 0x80 + v / 2 ^ 6 % 2 ^ 6, 0x80 + v % 2 ^ 6]

/-- The alphabet of R206 written out, index 0 first. -/
def b64Alphabet : List Char :=
  ['A', 'B', 'C', 'D', 'E', 'F', 'G', 'H', 'I', 'J', 'K', 'L', 'M', 'N', 'O', 'P', 'Q', 'R', 'S', 'T', 'U', 'V', 'W', 'X', 'Y', 'Z']
    ++ ['a', 'b', 'c', 'd', 'e', 'f', 'g', 'h', 'i', 'j', 'k', 'l', 'm', 'n', 'o', 'p', 'q', 'r', 's', 't', 'u', 'v', 'w', 'x', 'y', 'z']
    ++ ['0', '1', '2', '3', '4', '5', '6', '7', '8', '9', '+', '/']

/-- The character `A((v >> sh) & 63)` of R205: the one that the alphabet gives six bits of a 24-bit value. -/
def b64Digit (v sh : Nat) : Byte := BitVec.ofNat 8 (b64Alphabet.getD (v / 2 ^ sh % 64) '=').toNat

/-- `b0 << 16 | b1 << 8 | b2` as a number (R65). -/
def b64Value24 (b0 b1 b2 : Byte) : Nat := b0.toNat * 2 ^ 16 + b1.toNat * 2 ^ 8 + b2.toNat

/-- Whether an event is a `keyExpansion` call. -/
def isExpansion : Event → Bool
  | .keyExpansion _ => true
  | _ => false

/-- Whether an event is a `cipher` call. -/
def isCipher : Event → Bool
  | .cipher _ => true
  | _ => false

/-- Whether an event is a clock reading. -/
def isClock : Event → Bool
  | .clockRead _ => true
  | _ => false

/-- Whether an event is a draw of the random source. -/
def isRng : Event → Bool
  | .rngDraw _ => true
  | _ => false

/-- Whether an event is a progress signal. -/
def isProgress : Event → Bool
  | .progress _ _ => true
  | _ => false

/-- The numbers of `keyExpansion` calls, `cipher` calls, clock readings and draws in a trace (R314). -/
def callCounts (es : List Event) : Nat × Nat × Nat × Nat :=
  (es.countP isExpansion, es.countP isCipher, es.countP isClock, es.countP isRng)

/-- The progress signals due in a RUN of `n` blocks, in order (R172). -/
def dueSignals (p : Params) (n : Nat) : List Event :=
  ((List.range n).filter fun j => (j + 1) % progressInterval p == 0).map fun j => .progress (j + 1) n

/-- The state with ERR = `e` and ST = ERROR and nothing else changed but PHASE and KS: what error entry leaves (R270). -/
def State.raised (s : State) (e : ErrCode) : State := { s with err := e, st := .error, phase := .idle, ks := none }

/-- The opcodes of format K (R93). -/
def formatKOps : List Byte := [0x01, 0x10, 0x11]

/-- The opcodes of format N (R93). -/
def formatNOps : List Byte := [0x02, 0x03, 0x04, 0x05, 0x06, 0x07, 0x08, 0x1F]

/-- A legal command word: RSV 0, a known OP, and NB 0 in format N (R95). -/
def legalWord (w : Word) : Prop :=
  w.extractLsb' 8 8 = (0 : Byte)
    ∧ (w.extractLsb' 0 8 ∈ formatKOps ∨ (w.extractLsb' 0 8 ∈ formatNOps ∧ w.extractLsb' 16 16 = (0 : BitVec 16)))

/-- A read of the host. -/
def isRead : HostAccess → Bool
  | .readReg _ => true
  | .readArr _ _ => true
  | .readByte _ _ => true
  | .readText _ _ => true
  | _ => false

/-- The little-endian value of a byte sequence (R12). -/
def leValue (l : List Byte) : Nat := l.foldr (fun b v => b.toNat + 256 * v) 0

/-- A legal key size (R94). -/
def legalKeySize (nb : Nat) : Prop := nb = 128 ∨ nb = 192 ∨ nb = 256

/-- RUN's Key and counter block are valid (R161). -/
def runReady (s : State) : Prop := (s.klen = 16 ∨ s.klen = 24 ∨ s.klen = 32) ∧ s.cbv = true

/-- The schedule of a RUN (R163). -/
def runSchedule (c : Config) (s : State) : Schedule := c.keyExpansion (theKey s)

/-- The whole password in PW, `PW[0, PWLEN)`. -/
def password (c : Config) (s : State) : List Byte := s.pw.memRead c.freeByte s.pwLen.toNat

/-- The schedule that ENCRYPT and DECRYPT run under (R230, R231): that of the Key derived from the password text. -/
def callSchedule (c : Config) (nb : Nat) (s : State) : Schedule :=
  c.keyExpansion (derivedKey c (utf8All (pwtText c s)) (nb / 8))

/-- The payload of ENCRYPT under a nonce: the nonce, then the body (R101). -/
def payloadOf (c : Config) (nb : Nat) (s : State) (nonce : Vector Byte 8) : List Byte :=
  nonce.toList ++ ctrTransform c (callSchedule c nb s) (freshBlock nonce) (utf8All (txtText c s))

/-- The state with ERR = 0 and ST = DONE and nothing else changed but PHASE: the end without error (R31, R33). -/
def State.ended (t : State) : State := { t with err := .noError, st := .done, phase := .idle }

/-- What the discard of R233 leaves. -/
def discarded (t : State) : Prop :=
  t.key = zeros 32 ∧ t.klen = 0 ∧ t.cb = zeros 16 ∧ t.cbv = false ∧ t.ks = none ∧ t.dbuf = zeros 32
    ∧ t.pwLen = 0 ∧ t.inLen = 0 ∧ t.outLen = 0 ∧ t.pw.cells = [] ∧ t.inp.cells = [] ∧ t.out.cells = []

/-- `t` is `s` but for the state that ENCRYPT and DECRYPT write (R230, R231, R233): the registers of the call, NONCE and NV,
the scratch buffers, the result buffers B64 and TXT, status, the event trace and the internal registers. PWT, CTL, the latched
word, the parameters and the host's accesses are as in `s`. -/
def compositeFrame (s t : State) : Prop :=
  t = { s with
    key := t.key, klen := t.klen, cb := t.cb, nonce := t.nonce, nv := t.nv, cbv := t.cbv, ks := t.ks, o := t.o, j := t.j
    nblk := t.nblk, dbuf := t.dbuf, phase := t.phase, st := t.st, err := t.err, pwLen := t.pwLen, inLen := t.inLen
    outLen := t.outLen, pw := t.pw, inp := t.inp, out := t.out, txt := t.txt, txtLen := t.txtLen, b64 := t.b64
    b64Len := t.b64Len, events := t.events, draws := t.draws }

/-- `t` holds a result of bytes in B64: every element, and the length where the register can hold it (R35). -/
def resultInB64 (c : Config) (t : State) (r : List Byte) : Prop :=
  (∀ k, k < r.length → t.b64.get c.freeByte k = r.getD k 0) ∧ (r.length < 2 ^ 32 → t.b64Len.toNat = r.length)

/-- `t` holds a result of bytes in OUT. -/
def resultInOut (c : Config) (t : State) (r : List Byte) : Prop :=
  (∀ k, k < r.length → t.out.get c.freeByte k = r.getD k 0) ∧ (r.length < 2 ^ 32 → t.outLen.toNat = r.length)

/-- `t` holds a text in TXT. -/
def resultInTxt (c : Config) (t : State) (r : List Word) : Prop :=
  (∀ k, k < r.length → t.txt.get c.freeText k = r.getD k 0) ∧ (r.length < 2 ^ 32 → t.txtLen.toNat = r.length)

/-- The commands that write KEY and KLEN (R21). -/
def writesKey : Instr → Bool
  | .derive _ => true
  | .encrypt _ => true
  | .decrypt _ => true
  | .clr => true
  | _ => false

/-- The commands that write NONCE and NV (R24, R25). -/
def writesNonce : Instr → Bool
  | .nonceGen => true
  | .encrypt _ => true
  | .decrypt _ => true
  | .clr => true
  | _ => false

/-- The commands that write the nonce region of CB, and CBV (R146, R25). -/
def writesCb : Instr → Bool
  | .cbInit => true
  | .encrypt _ => true
  | .decrypt _ => true
  | .clr => true
  | _ => false

/-- The commands that call the block-cipher primitive, and so write O and KS (R14, R26, R27). -/
def usesPrimitive : Instr → Bool
  | .derive _ => true
  | .run => true
  | .encrypt _ => true
  | .decrypt _ => true
  | _ => false

/-- The commands that write J and NBLK (R28, R250). -/
def writesCounts : Instr → Bool
  | .run => true
  | .encrypt _ => true
  | .decrypt _ => true
  | .clr => true
  | _ => false

/-- The commands that write PW or IN: as scratch, and CLR (R38, R250). -/
def writesScratch : Instr → Bool
  | .encrypt _ => true
  | .decrypt _ => true
  | .clr => true
  | _ => false

/-- The commands that write OUT (R38, R61). -/
def writesOut : Instr → Bool
  | .run => true
  | .utf8Enc => true
  | .b64Dec => true
  | .encrypt _ => true
  | .decrypt _ => true
  | .clr => true
  | _ => false

/-- The commands that write TXT (R38, R61). -/
def writesTxt : Instr → Bool
  | .utf8Dec => true
  | .decrypt _ => true
  | .clr => true
  | _ => false

/-- The commands that write B64 (R38, R61). -/
def writesB64 : Instr → Bool
  | .b64Enc => true
  | .encrypt _ => true
  | .clr => true
  | _ => false

end Sys2Proof.Machine
end

