-- ==== Sys2Proof/Certificates/Slice0/Obligations.lean ====
section
/-! DEFINITION. The statements for the provers, from the numbered rules of spec/. A free value (log 8 and others) is never
named: where the spec fixes no value, the statement takes it from the state it speaks of. -/

open Sys2Proof Sys2Proof.Machine

/-! ## The command word -/

/-- Decoding the word of a well-formed command gives the command back (R90 to R94). -/
def Obligations.DecodeEncodeRoundTrip : Prop :=
  ∀ i : Instr, i.wf = true → decode (encode i) = .ok i

/-- Each word has one meaning: a word that decodes is the word of the command it decodes to (R95). -/
def Obligations.EncodeOfDecodedWord : Prop :=
  ∀ (w : Word) (i : Instr), decode w = .ok i → encode i = w ∧ i.wf = true

/-- Command words of the spec's table of examples (95_test_vectors.md V1 to V4). -/
def Obligations.SampleWordsDecode : Prop :=
  decode 0x00C00001 = .ok (.derive 192) ∧ decode 0x00000002 = .ok .nonceGen ∧ decode 0x00000003 = .ok .cbInit
    ∧ decode 0x00000004 = .ok .run ∧ decode 0x00000005 = .ok .utf8Enc ∧ decode 0x00000007 = .ok .b64Enc
    ∧ decode 0x00400010 = .ok (.encrypt 64) ∧ decode 0x01000011 = .ok (.decrypt 256) ∧ decode 0x0000001F = .ok .clr
    ∧ decode 0x00000104 = .error .reservedNotZero ∧ decode 0x0080001F = .error .operandNotZero
    ∧ decode 0x00000009 = .error .unknownOp

/-! ## The step -/

/-- The words that decode are exactly the legal words of R95; any other word written to CMD ends at once: ST = ERROR,
ERR = IllegalCommand, and no other state changes (R95, R267). -/
def Obligations.IllegalWordEndsAtOnce : Prop :=
  (∀ w : Word, (∃ i, decode w = .ok i) ↔ legalWord w) ∧
  ∀ (s : State) (w : Word) (rest : List HostAccess), s.st ≠ .busy → s.phase = .idle → s.ks = none → s.fatal = false →
    s.pending = .writeReg 0 w :: rest → ¬ legalWord w →
      step s = .next { s with pending := rest, err := .illegalCommand, st := .error }

/-- A legal word written to CMD while ST is IDLE, DONE or ERROR latches OPC and NBITS, makes ST BUSY and enters the first phase
of the command (R31, R90, R273; the composite commands' first phase is the model's choice, log 11); nothing else changes. -/
def Obligations.LegalWordStartsCommand : Prop :=
  ∀ (s : State) (w : Word) (i : Instr) (rest : List HostAccess), s.st ≠ .busy → s.fatal = false →
    s.pending = .writeReg 0 w :: rest → decode w = .ok i →
      ∃ d, step s = .next { s with
        pending := rest, opc := w.extractLsb' 0 8, nbits := w.extractLsb' 16 16, st := .busy, phase := firstPhase i, draws := d }

/-- A step of a BUSY core runs the whole command that the latched word decodes to, and adds nothing to it (that a command is one
step is the model's choice, log 10). -/
def Obligations.BusyStepRunsCommand : Prop :=
  ∀ (s : State) (i : Instr), s.st = .busy → decode (commandWord s.opc s.nbits) = .ok i →
    (∀ a ∈ s.pending, a ≠ .readReg 1) → step s = exec i s

/-- `withFetchWord` stands for a completed write of CMD (the model's choice, log 17: it latches the word, makes FATAL 0 and takes
STATUS reads out of `pending`; the core itself fetches nothing, R79): the very next step runs the command the word decodes to. -/
def Obligations.PlacedWordRunsNext : Prop :=
  ∀ (s : State) (nbits w : Nat) (i : Instr), decodeTableWord nbits w = some i →
    step (s.withFetchWord nbits w) = exec i (s.withFetchWord nbits w)

/-- While ST is BUSY no access but a STATUS read completes: a step either runs the whole command, with every access still
outstanding, or answers one STATUS read with BUSY and changes nothing else (R70). -/
def Obligations.BusyHoldsHostAccesses : Prop :=
  ∀ s : State, s.Inv → s.st = .busy →
    ∃ t, step s = .next t ∧ heldAccesses t = heldAccesses s ∧
      ((t.st ≠ .busy ∧ t.pending = s.pending ∧ t.replies = s.replies ∧ ∃ i, latchedCommand s = .ok i ∧ exec i s = .next t) ∨
       (t.pending.length + 1 = s.pending.length ∧
        ∃ d, t = { s with pending := t.pending, replies := s.replies ++ [⟨.readReg 1, 1⟩], draws := d }))

/-- With no command running and no access of the host, the core holds all its state (R282). -/
def Obligations.WaitingCoreHoldsState : Prop :=
  ∀ s : State, s.st ≠ .busy → s.pending = [] → step s = .next s

/-- No step is refused, and a step faults only on an access to an element that does not exist (the fault is the model's
choice, log 16). -/
def Obligations.StepStopsOnlyAtMissingElement : Prop :=
  ∀ s : State, (∃ t, step s = .next t) ∨
    (s.st ≠ .busy ∧ ∃ a rest, s.pending = a :: rest ∧ accessExists s.params a = false ∧
      step s = .fault (.noSuchElement (accessIndex a)))

/-! ## The host's accesses -/

/-- No read of the host has a side effect (R71): only the access completes. Its value is the byte of KEY, CB or NONCE or of the
byte buffer, zero-extended, or the text element, that the access names (R45, R60); for a register what R37 gives. -/
def Obligations.HostReadHasNoSideEffect : Prop :=
  ∀ (s : State) (a : HostAccess) (rest : List HostAccess), s.st ≠ .busy → s.pending = a :: rest → isRead a = true →
    accessExists s.params a = true →
      ∃ v, step s = .next { s with pending := rest, replies := s.replies ++ [⟨a, v⟩] } ∧
        match a with
        | .readArr .key i => v.toNat = (byteAt s.key i).toNat
        | .readArr .cb i => v.toNat = (byteAt s.cb i).toNat
        | .readArr .nonce i => v.toNat = (byteAt s.nonce i).toNat
        | .readByte .pw i => v.toNat = (s.pw.get Config.actual.freeByte i).toNat
        | .readByte .inp i => v.toNat = (s.inp.get Config.actual.freeByte i).toNat
        | .readByte .out i => v.toNat = (s.out.get Config.actual.freeByte i).toNat
        | .readByte .b64 i => v.toNat = (s.b64.get Config.actual.freeByte i).toNat
        | .readText .pwt i => v = s.pwt.get Config.actual.freeText i
        | .readText .txt i => v = s.txt.get Config.actual.freeText i
        | .readReg i => v = readReg s i
        | _ => False

/-- The value that a read of each register index returns (R37, and R25, R32, R33, R36 for the fields). -/
def Obligations.HostRegisterReadValues : Prop :=
  ∀ (s : State) (i : Nat) (rest : List HostAccess), s.st ≠ .busy → s.pending = .readReg i :: rest →
    ∃ v : Word, step s = .next { s with pending := rest, replies := s.replies ++ [⟨.readReg i, v⟩] } ∧
      (i = 0 ∨ 12 ≤ i → v = 0) ∧
      (i = 1 → v.toNat = (match s.st with | .idle => 0 | .busy => 1 | .done => 2 | .error => 3) + (if s.fatal then 4 else 0)) ∧
      (i = 2 → v.toNat = (match s.err with
        | .noError => 0 | .invalidKeySize => 1 | .encodingUnavailable => 2 | .malformedUtf8 => 3 | .malformedBase64 => 4
        | .malformedPayload => 5 | .illegalCommand => 6 | .operandNotReady => 7 | .capacityExceeded => 8 | .invalidScalar => 9)) ∧
      (i = 3 → v.toNat = if s.obsEn then 1 else 0) ∧
      (i = 4 → v.toNat = (if s.nv then 1 else 0) + (if s.cbv then 2 else 0)) ∧
      (i = 5 → v.toNat = s.klen.toNat) ∧
      (i = 6 → v = s.pwLen) ∧ (i = 7 → v = s.pwtLen) ∧ (i = 8 → v = s.txtLen) ∧ (i = 9 → v = s.inLen) ∧
      (i = 10 → v = s.outLen) ∧ (i = 11 → v = s.b64Len)

/-- What a write of each register index but CMD changes, and that it changes nothing else (R37, R71): STATUS, ERR and the
indices above 11 ignore writes, CTL, VALID and KLEN ignore their reserved bits. That a lower length leaves the elements it puts at
or beyond it as they were is the model's reading of R71 against R40 (log 30). -/
def Obligations.HostRegisterWriteEffects : Prop :=
  ∀ (s : State) (i : Nat) (v : Word) (rest : List HostAccess), s.st ≠ .busy → s.pending = .writeReg i v :: rest →
    (i = 1 ∨ i = 2 ∨ 12 ≤ i → step s = .next { s with pending := rest }) ∧
    (i = 3 → step s = .next { s with pending := rest, obsEn := v.getLsbD 0 }) ∧
    (i = 4 → step s = .next { s with pending := rest, nv := v.getLsbD 0, cbv := v.getLsbD 1 }) ∧
    (i = 5 → step s = .next { s with pending := rest, klen := v.extractLsb' 0 8 }) ∧
    (i = 6 → step s = .next { s with pending := rest, pwLen := v }) ∧
    (i = 7 → step s = .next { s with pending := rest, pwtLen := v }) ∧
    (i = 8 → step s = .next { s with pending := rest, txtLen := v }) ∧
    (i = 9 → step s = .next { s with pending := rest, inLen := v }) ∧
    (i = 10 → step s = .next { s with pending := rest, outLen := v }) ∧
    (i = 11 → step s = .next { s with pending := rest, b64Len := v })

/-- A write of one element of a buffer or register array changes that element and no other (R71). That an element at or beyond the
length register keeps what was written (log 5), and that the host may write OUT (log 26), are the model's readings. -/
def Obligations.HostElementWriteChangesOneElement : Prop :=
  ∀ (s : State) (rest : List HostAccess), s.st ≠ .busy →
    (∀ b i v, s.pending = .writeByte b i v :: rest → fits s.params (i + 1) = true →
      ∃ t, step s = .next t ∧ t = { s with pending := rest, pw := t.pw, inp := t.inp, out := t.out, b64 := t.b64 } ∧
        ∀ b' k, (byteBuf t b').get Config.actual.freeByte k =
          if b' = b ∧ k = i then v else (byteBuf s b').get Config.actual.freeByte k) ∧
    (∀ b i v, s.pending = .writeText b i v :: rest → fits s.params (i + 1) = true →
      ∃ t, step s = .next t ∧ t = { s with pending := rest, pwt := t.pwt, txt := t.txt } ∧
        ∀ b' k, (textBuf t b').get Config.actual.freeText k =
          if b' = b ∧ k = i then v else (textBuf s b').get Config.actual.freeText k) ∧
    (∀ r i v, s.pending = .writeArr r i v :: rest → i < arrSize r →
      ∃ t, step s = .next t ∧ t = { s with pending := rest, key := t.key, cb := t.cb, nonce := t.nonce } ∧
        ∀ r' k, readArr t r' k = if r' = r ∧ k = i then v else readArr s r' k)

/-! ## Reset, the fatal state, errors -/

/-- Every value that the spec states for reset (R44), with ENC_AVAILABLE true or false (R302). The buffers list no element. -/
def Obligations.ResetValues : Prop :=
  State.reset = State.resetWith Config.actual.params ∧
  ∀ p : Params,
    let s := State.resetWith p
    s.st = (if p.encAvailable then .idle else .error) ∧ s.fatal = !p.encAvailable
      ∧ s.err = (if p.encAvailable then .noError else .encodingUnavailable)
      ∧ s.obsEn = false ∧ s.nv = false ∧ s.cbv = false ∧ s.klen = 0 ∧ s.key = zeros 32 ∧ s.cb = zeros 16 ∧ s.nonce = zeros 8
      ∧ s.ks = none ∧ s.j = 0 ∧ s.nblk = 0 ∧ s.phase = .idle
      ∧ s.pwLen = 0 ∧ s.pwtLen = 0 ∧ s.txtLen = 0 ∧ s.inLen = 0 ∧ s.outLen = 0 ∧ s.b64Len = 0
      ∧ s.pw.cells = [] ∧ s.pwt.cells = [] ∧ s.txt.cells = [] ∧ s.inp.cells = [] ∧ s.out.cells = [] ∧ s.b64.cells = []

/-- In the fatal state every write to CMD is ignored, and the core stays so for ever (R262). -/
def Obligations.FatalStateIsForever : Prop :=
  ∀ s : State, s.Inv → s.fatal = true →
    (∀ w rest, s.pending = .writeReg 0 w :: rest → step s = .next { s with pending := rest }) ∧
    (∀ t, step s = .next t → t.fatal = true ∧ t.st = .error ∧ t.err = .encodingUnavailable)

/-- nBits outside 128, 192, 256: InvalidKeySize before any byte processing, identically in DERIVE, ENCRYPT and DECRYPT; no
register or buffer other than STATUS and ERR changes and no outside call is made (R123, R261). -/
def Obligations.InvalidKeySizeComesFirst : Prop :=
  ∀ (nb : Nat) (s : State), ¬ legalKeySize nb →
    exec (.derive nb) s = .next (s.raised .invalidKeySize) ∧
    exec (.encrypt nb) s = .next (s.raised .invalidKeySize) ∧
    exec (.decrypt nb) s = .next (s.raised .invalidKeySize)

/-- CBINIT without a nonce and RUN without a Key or a counter block raise OperandNotReady before any call and any write, and the
composite commands never raise it (R268). An over-long operand of RUN is reported first (R272; log 12). -/
def Obligations.OperandNotReadyRaised : Prop :=
  ∀ s : State,
    (s.nv = false → exec .cbInit s = .next (s.raised .operandNotReady)) ∧
    (¬ runReady s → exec .run s =
      .next (s.raised (if fits s.params s.inLen.toNat then .operandNotReady else .capacityExceeded))) ∧
    ∀ (nb : Nat) (t : State), exec (.encrypt nb) s = .next t ∨ exec (.decrypt nb) s = .next t → t.err ≠ .operandNotReady

/-- An operand longer than MAXLEN: CapacityExceeded, with all data state unchanged (R74, R269, R270 a). That RUN reports it also
without a Key or a counter block follows R272 against the order of R160's pseudocode (log 12). -/
def Obligations.OperandCapacityExceeded : Prop :=
  ∀ (s : State) (m : Nat), s.params.maxLen = some m →
    (∀ nb, legalKeySize nb → m < s.pwLen.toNat → exec (.derive nb) s = .next (s.raised .capacityExceeded)) ∧
    (m < s.inLen.toNat → exec .run s = .next (s.raised .capacityExceeded)) ∧
    (m < s.txtLen.toNat → exec .utf8Enc s = .next (s.raised .capacityExceeded)) ∧
    (m < s.inLen.toNat → exec .utf8Dec s = .next (s.raised .capacityExceeded)) ∧
    (m < s.inLen.toNat ∨ m < 4 * ((s.inLen.toNat + 2) / 3) → exec .b64Enc s = .next (s.raised .capacityExceeded)) ∧
    (m < s.b64Len.toNat → exec .b64Dec s = .next (s.raised .capacityExceeded)) ∧
    (∀ nb, legalKeySize nb → m < s.txtLen.toNat ∨ m < s.pwtLen.toNat →
      exec (.encrypt nb) s = .next (s.raised .capacityExceeded)) ∧
    (∀ nb, legalKeySize nb → m < s.b64Len.toNat ∨ m < s.pwtLen.toNat →
      exec (.decrypt nb) s = .next (s.raised .capacityExceeded))

/-! ## All commands -/

/-- Every command runs to completion: it leaves BUSY with PHASE IDLE, ERR holds a code exactly when ST is ERROR, ST is IDLE
exactly after CLR, and the code is never EncodingUnavailable or IllegalCommand (R31, R32, R33, R262). -/
def Obligations.EveryCommandEnds : Prop :=
  ∀ (i : Instr) (s : State), ∃ t, exec i s = .next t ∧ t.st ≠ .busy ∧ t.phase = .idle ∧
    (t.st = .error ↔ t.err ≠ .noError) ∧ (t.st = .idle ↔ i = .clr) ∧
    t.err ≠ .encodingUnavailable ∧ t.err ≠ .illegalCommand

/-- Which command writes which register, internal register and buffer (R21, R24 to R29, R38, R61, R146); what a command does not
write is unchanged. KS is none after a command that calls the primitive, after CLR and after an error; outside calls and signals
only append to the event trace; no command writes CTL, FATAL, the latched word, the parameters or the host's accesses. -/
def Obligations.CommandWritesOnlyItsState : Prop :=
  ∀ (i : Instr) (s t : State), exec i s = .next t →
    t.opc = s.opc ∧ t.nbits = s.nbits ∧ t.fatal = s.fatal ∧ t.obsEn = s.obsEn ∧ t.params = s.params ∧ t.pending = s.pending ∧
    t.replies = s.replies ∧
    (writesKey i = false → t.key = s.key ∧ t.klen = s.klen) ∧
    (writesNonce i = false → t.nonce = s.nonce ∧ t.nv = s.nv) ∧
    (writesCb i = false → nonceRegion t.cb = nonceRegion s.cb ∧ t.cbv = s.cbv) ∧
    (writesCb i = false → i ≠ .run → t.cb = s.cb) ∧
    (writesScratch i = false → t.pw = s.pw ∧ t.pwLen = s.pwLen ∧ t.inp = s.inp ∧ t.inLen = s.inLen) ∧
    (writesOut i = false → t.out = s.out ∧ t.outLen = s.outLen) ∧
    (writesTxt i = false → t.txt = s.txt ∧ t.txtLen = s.txtLen) ∧
    (writesB64 i = false → t.b64 = s.b64 ∧ t.b64Len = s.b64Len) ∧
    (i ≠ .clr → t.pwt = s.pwt ∧ t.pwtLen = s.pwtLen) ∧
    t.ks = (if usesPrimitive i || i == .clr || t.st == .error then none else s.ks) ∧
    (usesPrimitive i = false → t.o = s.o) ∧
    (writesCounts i = false → t.j = s.j ∧ t.nblk = s.nblk) ∧
    (writesKey i = false → t.dbuf = s.dbuf) ∧
    (usesPrimitive i = false → i ≠ .nonceGen → t.events = s.events) ∧
    ∃ es, t.events = s.events ++ es

/-- The observer has no effect on correctness: with CTL.OBS_EN at the other value every command leaves the same state but for
OBS_EN itself and the event trace (R172). -/
def Obligations.ObserverHasNoEffect : Prop :=
  ∀ (i : Instr) (s t : State) (b : Bool), exec i s = .next t →
    ∃ es, exec i { s with obsEn := b } = .next { t with obsEn := b, events := es }

/-- The numbers of outside calls of every command that ends without error (R314): keyExpansion, cipher, ClockRead, RngDraw. -/
def Obligations.OutsideCallCounts : Prop :=
  ∀ (i : Instr) (s t : State), exec i s = .next t → t.st ≠ .error →
    ∃ es, t.events = s.events ++ es ∧
      match i with
      | .derive _ => callCounts es = (1, 1, 0, 0)
      | .nonceGen => callCounts es = (0, 0, 1, 1)
      | .run => callCounts es = (1, (s.inLen.toNat + 15) / 16, 0, 0)
      | .encrypt _ => callCounts es = (2, 1 + ((utf8All (txtText Config.actual s)).length + 15) / 16, 1, 1)
      | .decrypt _ => ∃ payload, b64Decode (b64Chars Config.actual s) = .ok payload ∧
          callCounts es = (2, 1 + (payload.length - 8 + 15) / 16, 0, 0)
      | .cbInit => es = []
      | .utf8Enc => es = []
      | .utf8Dec => es = []
      | .b64Enc => es = []
      | .b64Dec => es = []
      | .clr => es = []

/-- The core never calls keyExpansion with a byte count other than 16, 24 or 32 (R9), whatever a command is given and however it
ends. -/
def Obligations.KeyExpansionArgumentSizes : Prop :=
  ∀ (i : Instr) (s t : State), exec i s = .next t →
    ∃ es, t.events = s.events ++ es ∧
      ∀ k, Event.keyExpansion k ∈ es → k.length = 16 ∨ k.length = 24 ∨ k.length = 32

/-! ## DERIVE -/

/-- DERIVE (R121, R124, R125): the derive buffer is the password's bytes in order, then zeros; one keyExpansion of the whole
buffer and one cipher of its first 16 bytes; the Key is the result R followed by R's own first bytes, then zeros. The rest of the
state is unchanged. -/
def Obligations.DeriveResult : Prop :=
  ∀ (nb : Nat) (s : State), legalKeySize nb → fits s.params s.pwLen.toNat = true →
    ∃ t, exec (.derive nb) s = .next t ∧
      t = State.ended { s with
        key := t.key, klen := BitVec.ofNat 8 (nb / 8), ks := none, o := t.o, dbuf := zeros 32, draws := t.draws
        events := s.events ++ [.keyExpansion (deriveBuffer (password Config.actual s) (nb / 8)),
          .cipher ((deriveBuffer (password Config.actual s) (nb / 8)).take 16)] } ∧
      ∀ i, i < 32 → byteAt t.key i = derivedKeyByte Config.actual (password Config.actual s) (nb / 8) i

/-- Two passwords that agree in their first nBytes bytes derive the same Key (R122). -/
def Obligations.LongPasswordIsCut : Prop :=
  ∀ (nb : Nat) (s s' t t' : State), exec (.derive nb) s = .next t → exec (.derive nb) s' = .next t' →
    t.st = .done → t'.st = .done → nb / 8 ≤ s.pwLen.toNat → nb / 8 ≤ s'.pwLen.toNat →
    (∀ i, i < nb / 8 → s.pw.get Config.actual.freeByte i = s'.pw.get Config.actual.freeByte i) →
      t.key = t'.key ∧ t.klen = t'.klen

/-! ## NONCEGEN and CBINIT -/

/-- NONCEGEN (R140, R143): one clock reading `a` and one draw `r`; NONCE holds the milliseconds, the draw and the seconds modulo
2^32, little-endian per field; NV is 1; the rest is unchanged. -/
def Obligations.NonceGenResult : Prop :=
  ∀ s : State, ∃ t a r, exec .nonceGen s = .next t ∧
    t = State.ended { s with
      nonce := t.nonce, nv := true, events := s.events ++ [.clockRead a, .rngDraw r], draws := t.draws } ∧
    leValue (t.nonce.toList.take 2) = a % 1000 ∧
    leValue ((t.nonce.toList.drop 2).take 2) = r.toNat ∧
    leValue (t.nonce.toList.drop 4) = a / 1000 % 2 ^ 32

/-- Two nonces are equal exactly when `t mod 1000`, `(t div 1000) mod 2^32` and r are all equal (R143, R236). -/
def Obligations.NoncesEqualIffFieldsEqual : Prop :=
  ∀ (a a' : Nat) (r r' : BitVec 16), nonceOf a r = nonceOf a' r' ↔
    a % 1000 = a' % 1000 ∧ a / 1000 % 2 ^ 32 = a' / 1000 % 2 ^ 32 ∧ r = r'

/-- CBINIT (R145): the nonce in `CB[0,8)`, a counter of 0 in `CB[8,16)`, CBV 1; the rest is unchanged. -/
def Obligations.CbInitResult : Prop :=
  ∀ s : State, s.nv = true → ∃ t, exec .cbInit s = .next t ∧
    t = State.ended { s with cb := t.cb, cbv := true } ∧
    (∀ i, i < 8 → byteAt t.cb i = byteAt s.nonce i) ∧ (∀ i, 8 ≤ i → i < 16 → byteAt t.cb i = 0)

/-! ## RUN -/

/-- CTRINC is addition of 1 modulo 2^64 on the big-endian counter field and leaves the nonce bytes alone (R166, R167). -/
def Obligations.CounterIncrementLaw : Prop :=
  ∀ cb : Block, counterValue (ctrInc cb) = (counterValue cb + 1) % 2 ^ 64 ∧ nonceRegion (ctrInc cb) = nonceRegion cb

/-- RUN in closed form (R177, R170, R179): `OUT[k] = IN[k] xor S[k]`, OUTLEN = INLEN, CB ends at T(NBLK); without an observer the
outside calls are one keyExpansion of the Key, then cipher of T(0) to T(NBLK-1) in order; the rest is unchanged. -/
def Obligations.RunClosedForm : Prop :=
  ∀ s : State, runReady s → fits s.params s.inLen.toNat = true →
    ∃ t, exec .run s = .next t ∧
      t = State.ended { s with
        cb := counterBlockAt s.cb ((s.inLen.toNat + 15) / 16), out := t.out, outLen := s.inLen
        ks := none, o := t.o, j := t.j, nblk := t.nblk, events := t.events, draws := t.draws } ∧
      (∀ k, k < s.inLen.toNat → t.out.get Config.actual.freeByte k =
        s.inp.get Config.actual.freeByte k ^^^ keystreamByte Config.actual (runSchedule Config.actual s) s.cb k) ∧
      (s.obsEn = false → t.events = s.events ++ .keyExpansion (theKey s) ::
        (List.range ((s.inLen.toNat + 15) / 16)).map fun j => .cipher (counterBlockAt s.cb j).toList)

/-- Symmetry (R175): RUN on the output of a RUN, with the same Key and an identically-initialised counter block, gives the
original input. -/
def Obligations.RunTwiceGivesInputBack : Prop :=
  ∀ s t s' t' : State, exec .run s = .next t → t.st = .done → exec .run s' = .next t' →
    s'.params = s.params → s'.key = s.key → s'.klen = s.klen → s'.cb = s.cb → s'.cbv = s.cbv → s'.inLen = s.inLen →
    (∀ k, k < s.inLen.toNat → s'.inp.get Config.actual.freeByte k = t.out.get Config.actual.freeByte k) →
      t'.st = .done ∧ t'.outLen = s.inLen ∧
      ∀ k, k < s.inLen.toNat → t'.out.get Config.actual.freeByte k = s.inp.get Config.actual.freeByte k

/-- No error propagation (R176): each output byte changes by the same bit difference as its own input byte, and by nothing else. -/
def Obligations.RunPropagatesNoError : Prop :=
  ∀ s t s' t' : State, exec .run s = .next t → t.st = .done → exec .run s' = .next t' →
    s'.params = s.params → s'.key = s.key → s'.klen = s.klen → s'.cb = s.cb → s'.cbv = s.cbv → s'.inLen = s.inLen →
      t'.st = .done ∧ t'.err = .noError ∧
      ∀ k, k < s.inLen.toNat →
        t.out.get Config.actual.freeByte k ^^^ t'.out.get Config.actual.freeByte k =
          s.inp.get Config.actual.freeByte k ^^^ s'.inp.get Config.actual.freeByte k

/-- Empty input (R171): the key schedule is computed, no cipher call is made, CB is unchanged, OUTLEN is 0, ST is DONE. -/
def Obligations.RunOnEmptyInput : Prop :=
  ∀ s : State, runReady s → s.inLen = 0 →
    ∃ t, exec .run s = .next t ∧
      t = State.ended { s with
        out := t.out, outLen := 0, ks := none, o := t.o, j := t.j, nblk := t.nblk, draws := t.draws
        events := s.events ++ [.keyExpansion (theKey s)] }

/-- Two RUNs over A then B give the bytes of one RUN over A || B when len(A) is a multiple of 16 (R174). -/
def Obligations.RunSplitAtBlockBoundary : Prop :=
  ∀ s1 t1 s2 t2 s t : State, exec .run s1 = .next t1 → exec .run s2 = .next t2 → exec .run s = .next t →
    t1.st = .done → t2.st = .done → t.st = .done →
    s1.key = s.key → s1.klen = s.klen → s1.cb = s.cb → s2.key = s.key → s2.klen = s.klen → s2.cb = t1.cb →
    s1.inLen.toNat % 16 = 0 → s.inLen.toNat = s1.inLen.toNat + s2.inLen.toNat →
    (∀ k, k < s1.inLen.toNat → s1.inp.get Config.actual.freeByte k = s.inp.get Config.actual.freeByte k) →
    (∀ k, k < s2.inLen.toNat →
      s2.inp.get Config.actual.freeByte k = s.inp.get Config.actual.freeByte (s1.inLen.toNat + k)) →
      t2.cb = t.cb ∧
      (∀ k, k < s1.inLen.toNat → t1.out.get Config.actual.freeByte k = t.out.get Config.actual.freeByte k) ∧
      (∀ k, k < s2.inLen.toNat →
        t2.out.get Config.actual.freeByte k = t.out.get Config.actual.freeByte (s1.inLen.toNat + k))

/-- The progress signals of a RUN, and of the RUN inside ENCRYPT and DECRYPT (over the UTF-8 plaintext, over the body), are some of
the due ones, in order: due after a block when the number of blocks done is a multiple of PROGRESS_INTERVAL, and only while
CTL.OBS_EN is 1; no other command emits one (R172, R230, R231). This holds however the command ends. -/
def Obligations.ProgressSignalsAreDue : Prop :=
  ∀ (i : Instr) (s t : State), exec i s = .next t →
    ∃ es, t.events = s.events ++ es ∧
      let allowed := fun n => (es.filter isProgress).Sublist (if s.obsEn then dueSignals s.params ((n + 15) / 16) else [])
      match i with
      | .run => allowed s.inLen.toNat
      | .encrypt _ => allowed (utf8All (txtText Config.actual s)).length
      | .decrypt _ =>
        (∀ payload, b64Decode (b64Chars Config.actual s) = .ok payload → allowed (payload.length - 8)) ∧
        ((∀ payload, b64Decode (b64Chars Config.actual s) ≠ .ok payload) → es.filter isProgress = [])
      | .derive _ => es.filter isProgress = []
      | .nonceGen => es.filter isProgress = []
      | .cbInit => es = []
      | .utf8Enc => es = []
      | .utf8Dec => es = []
      | .b64Enc => es = []
      | .b64Dec => es = []
      | .clr => es = []

/-! ## The text codec -/

/-- The strict decoder is exactly the encoder's inverse: it gives a text for a byte sequence exactly when the text is made of scalar
values and the sequence is its UTF-8 encoding (R203, R209). -/
def Obligations.Utf8DecoderIsInverse : Prop :=
  ∀ (b : List Byte) (text : List Word), utf8Strict b = some text ↔ scalarText text = true ∧ utf8All text = b

/-- 7-bit-ASCII-only input maps to itself (R200); every scalar value has the bytes that the table of R201 gives it, one to four of
them (R210); the bytes of a text are those of its elements in order. -/
def Obligations.Utf8LengthsAndAscii : Prop :=
  (∀ text : List Word, (∀ e ∈ text, e.toNat < 0x80) → utf8All text = text.map fun e => e.extractLsb' 0 8) ∧
  (∀ e : Word, isScalarValue e = true → (utf8Bytes e).map BitVec.toNat = utf8Pattern e.toNat) ∧
  (∀ e : Word, isScalarValue e = true → (utf8Bytes e).length =
    if e.toNat < 0x80 then 1 else if e.toNat < 0x800 then 2 else if e.toNat < 0x10000 then 3 else 4) ∧
  (utf8All [] = [] ∧ ∀ (e : Word) (text : List Word), utf8All (e :: text) = utf8Bytes e ++ utf8All text)

/-- UTF8ENC (R200): the UTF-8 bytes of the text in OUT, OUTLEN their number, nothing else changed. -/
def Obligations.Utf8EncResult : Prop :=
  ∀ s : State, fits s.params s.txtLen.toNat = true → scalarText (txtText Config.actual s) = true →
    fits s.params (utf8All (txtText Config.actual s)).length = true →
      ∃ t, exec .utf8Enc s = .next t ∧
        t = State.ended { s with out := t.out, outLen := t.outLen, draws := t.draws } ∧
        resultInOut Config.actual t (utf8All (txtText Config.actual s))

/-- An error inside the scan of UTF8ENC (R200, R270 b): at the first element that is no scalar value InvalidScalar, at the first
whose bytes no longer fit CapacityExceeded; OUTLEN is 0, OUT unspecified, the rest unchanged. -/
def Obligations.Utf8EncScanErrors : Prop :=
  ∀ (s : State) (pre post : List Word) (e : Word), fits s.params s.txtLen.toNat = true →
    txtText Config.actual s = pre ++ e :: post → scalarText pre = true → fits s.params (utf8All pre).length = true →
    isScalarValue e = false ∨ fits s.params (utf8All (pre ++ [e])).length = false →
      ∃ t, exec .utf8Enc s = .next t ∧ t.out.cells = [] ∧
        t = State.raised { s with out := t.out, outLen := 0, draws := t.draws }
          (if isScalarValue e then .capacityExceeded else .invalidScalar)

/-- UTF8DEC of well-formed bytes (R202): the one text whose encoding they are, in TXT, TXTLEN its length. -/
def Obligations.Utf8DecResult : Prop :=
  ∀ (s : State) (text : List Word), fits s.params s.inLen.toNat = true → scalarText text = true →
    inBytes Config.actual s = utf8All text →
      ∃ t, exec .utf8Dec s = .next t ∧
        t = State.ended { s with txt := t.txt, txtLen := t.txtLen, draws := t.draws } ∧ txtText Config.actual t = text

/-- UTF8DEC of malformed bytes (R204): under FAIL it raises MalformedUtf8 with TXTLEN 0; under REPLACE it ends DONE with the
replacement text, every element of which is a scalar value, or raises CapacityExceeded with TXTLEN 0 when that text is longer
than MAXLEN (R202, R270 b). -/
def Obligations.Utf8DecMalformed : Prop :=
  ∀ s : State, fits s.params s.inLen.toNat = true →
    (∀ text, scalarText text = true → utf8All text ≠ inBytes Config.actual s) →
    (s.params.policy = .fail → ∃ t, exec .utf8Dec s = .next t ∧ t.txt.cells = [] ∧
      t = State.raised { s with txt := t.txt, txtLen := 0, draws := t.draws } .malformedUtf8) ∧
    (s.params.policy = .replace →
      let text := (Config.actual.utf8Replace (inBytes Config.actual s)).map Scalar.val
      scalarText text = true ∧
      (fits s.params text.length = true → ∃ t, exec .utf8Dec s = .next t ∧
        t = State.ended { s with txt := t.txt, txtLen := t.txtLen, draws := t.draws } ∧ resultInTxt Config.actual t text) ∧
      (fits s.params text.length = false → ∃ t, exec .utf8Dec s = .next t ∧ t.txt.cells = [] ∧
        t = State.raised { s with txt := t.txt, txtLen := 0, draws := t.draws } .capacityExceeded))

/-- B64ENC (R205): m = 4 * ((N + 2) div 3) characters; each full group of three bytes gives the four characters of the alphabet
(R206, written out in `b64Alphabet`) for its 24-bit value (R65), one byte left over two characters and `==`, two bytes three
characters and `=` (0x3D); nothing else changes. -/
def Obligations.B64EncResult : Prop :=
  ∀ s : State, fits s.params s.inLen.toNat = true → fits s.params (4 * ((s.inLen.toNat + 2) / 3)) = true →
    ∃ t r, exec .b64Enc s = .next t ∧
      t = State.ended { s with b64 := t.b64, b64Len := t.b64Len, draws := t.draws } ∧
      resultInB64 Config.actual t r ∧ r.length = 4 * ((s.inLen.toNat + 2) / 3) ∧
      let x := fun k => s.inp.get Config.actual.freeByte k
      let n := s.inLen.toNat
      (∀ g k, g < n / 3 → k < 4 →
        r.getD (4 * g + k) 0 = b64Digit (b64Value24 (x (3 * g)) (x (3 * g + 1)) (x (3 * g + 2))) (18 - 6 * k)) ∧
      (n % 3 = 1 → (∀ k, k < 2 → r.getD (4 * (n / 3) + k) 0 = b64Digit (b64Value24 (x (3 * (n / 3))) 0 0) (18 - 6 * k)) ∧
        r.getD (4 * (n / 3) + 2) 0 = 0x3D ∧ r.getD (4 * (n / 3) + 3) 0 = 0x3D) ∧
      (n % 3 = 2 →
        (∀ k, k < 3 → r.getD (4 * (n / 3) + k) 0 =
          b64Digit (b64Value24 (x (3 * (n / 3))) (x (3 * (n / 3) + 1)) 0) (18 - 6 * k)) ∧
        r.getD (4 * (n / 3) + 3) 0 = 0x3D)

/-- Decoding the Base64 string of a byte sequence gives the sequence back (R209). -/
def Obligations.B64DecodeOfEncode : Prop :=
  ∀ b : List Byte, b64Decode (b64String b) = .ok b

/-- The decoder accepts exactly the strings that the encoder can produce: the canonical strings of R208 (R207). -/
def Obligations.B64DecoderAcceptsEncoderOutputs : Prop :=
  ∀ str : List Byte,
    (b64Canonical str = true ↔ ∃ b, b64String b = str) ∧ (∀ b, b64Decode str = .ok b ↔ b64String b = str)

/-- B64DEC (R207): of a canonical string the bytes it encodes, in OUT; of any other MalformedBase64, with all data unchanged. -/
def Obligations.B64DecResult : Prop :=
  ∀ s : State, fits s.params s.b64Len.toNat = true →
    (∀ b, b64Chars Config.actual s = b64String b → ∃ t, exec .b64Dec s = .next t ∧
      t = State.ended { s with out := t.out, outLen := t.outLen, draws := t.draws } ∧ outBytes Config.actual t = b) ∧
    ((∀ b, b64Chars Config.actual s ≠ b64String b) → exec .b64Dec s = .next (s.raised .malformedBase64))

/-! ## ENCRYPT and DECRYPT -/

/-- ENCRYPT (R230, R101, R233): one clock reading `a` and one draw `r` make the nonce; B64 holds the Base64 string of the nonce
followed by the CTR transform of the UTF-8 plaintext under the Key derived from the UTF-8 password and a fresh counter block; the
call's registers are discarded, NONCE and NV are kept, the operands and the rest are unchanged. -/
def Obligations.EncryptResult : Prop :=
  ∀ (nb : Nat) (s : State), legalKeySize nb → fits s.params s.txtLen.toNat = true → fits s.params s.pwtLen.toNat = true →
    scalarText (txtText Config.actual s) = true → scalarText (pwtText Config.actual s) = true →
    fits s.params (utf8All (pwtText Config.actual s)).length = true →
    fits s.params (8 + (utf8All (txtText Config.actual s)).length) = true →
    fits s.params (4 * ((10 + (utf8All (txtText Config.actual s)).length) / 3)) = true →
      ∃ t a r es, exec (.encrypt nb) s = .next t ∧ t.st = .done ∧ t.err = .noError ∧ t.phase = .idle ∧
        compositeFrame s t ∧ discarded t ∧ t.txt = s.txt ∧ t.txtLen = s.txtLen ∧
        t.nonce = nonceOf a r ∧ t.nv = true ∧ resultInB64 Config.actual t (b64String (payloadOf Config.actual nb s t.nonce)) ∧
        t.events = s.events ++ es ∧ es.filter isClock = [.clockRead a] ∧ es.filter isRng = [.rngDraw r]

/-- DECRYPT (R231, R233): the string is the Base64 of a nonce followed by a body, the CTR transform of the body is the UTF-8 of a
text: that text is in TXT, the nonce in NONCE, the call's registers are discarded, the operands and the rest are unchanged. -/
def Obligations.DecryptResult : Prop :=
  ∀ (nb : Nat) (s : State) (nonce : Vector Byte 8) (body : List Byte) (text : List Word), legalKeySize nb →
    fits s.params s.b64Len.toNat = true → fits s.params s.pwtLen.toNat = true →
    b64Chars Config.actual s = b64String (nonce.toList ++ body) → scalarText (pwtText Config.actual s) = true →
    fits s.params (utf8All (pwtText Config.actual s)).length = true → scalarText text = true →
    ctrTransform Config.actual (callSchedule Config.actual nb s) (freshBlock nonce) body = utf8All text →
      ∃ t, exec (.decrypt nb) s = .next t ∧ t.st = .done ∧ t.err = .noError ∧ t.phase = .idle ∧
        compositeFrame s t ∧ discarded t ∧ t.b64 = s.b64 ∧ t.b64Len = s.b64Len ∧
        t.nonce = nonce ∧ t.nv = true ∧ txtText Config.actual t = text

/-- DECRYPT when the decrypted bytes are malformed UTF-8 (R231, R238): under FAIL it raises MalformedUtf8, TXTLEN is 0, the discard
is done, the payload's nonce is kept; under REPLACE it ends DONE with the replacement text of the decrypted bytes in TXT (R204), or
raises CapacityExceeded with TXTLEN 0 when that text is longer than MAXLEN (R269, R270 c). -/
def Obligations.DecryptOfMalformedText : Prop :=
  ∀ (nb : Nat) (s : State) (nonce : Vector Byte 8) (body : List Byte), legalKeySize nb →
    fits s.params s.b64Len.toNat = true → fits s.params s.pwtLen.toNat = true →
    b64Chars Config.actual s = b64String (nonce.toList ++ body) → scalarText (pwtText Config.actual s) = true →
    fits s.params (utf8All (pwtText Config.actual s)).length = true →
    (∀ text, scalarText text = true →
      utf8All text ≠ ctrTransform Config.actual (callSchedule Config.actual nb s) (freshBlock nonce) body) →
      ∃ t, exec (.decrypt nb) s = .next t ∧ compositeFrame s t ∧ discarded t ∧ t.b64 = s.b64 ∧ t.b64Len = s.b64Len ∧
        t.nonce = nonce ∧ t.nv = true ∧
        (s.params.policy = .fail → t.st = .error ∧ t.err = .malformedUtf8 ∧ t.txtLen = 0 ∧ t.txt.cells = []) ∧
        (s.params.policy = .replace →
          let text := (Config.actual.utf8Replace
            (ctrTransform Config.actual (callSchedule Config.actual nb s) (freshBlock nonce) body)).map Scalar.val
          (fits s.params text.length = true → t.st = .done ∧ t.err = .noError ∧ resultInTxt Config.actual t text) ∧
          (fits s.params text.length = false →
            t.st = .error ∧ t.err = .capacityExceeded ∧ t.txtLen = 0 ∧ t.txt.cells = []))

/-- Round trip (R234): a string that ENCRYPT produced, decrypted with the same password text and key size, gives the plaintext
back, whatever the clock, the random source, the primitive and the decode policy are. The string is shorter than 2^32 characters:
what B64LEN holds after a longer one the spec does not state (log 7). -/
def Obligations.EncryptDecryptRoundTrip : Prop :=
  ∀ (nb : Nat) (s t s' u : State), exec (.encrypt nb) s = .next t → t.st = .done →
    4 * ((10 + (utf8All (txtText Config.actual s)).length) / 3) < 2 ^ 32 →
    s'.params = s.params → b64Chars Config.actual s' = b64Chars Config.actual t →
    pwtText Config.actual s' = pwtText Config.actual s → exec (.decrypt nb) s' = .next u →
      u.st = .done ∧ u.err = .noError ∧ u.nonce = t.nonce ∧ txtText Config.actual u = txtText Config.actual s

/-- Two ENCRYPTs of equal operands give equal strings if and only if their nonces are equal (R236), for strings shorter than 2^32
characters (log 7). -/
def Obligations.EqualStringsIffEqualNonces : Prop :=
  ∀ (nb : Nat) (s t s' t' : State), exec (.encrypt nb) s = .next t → exec (.encrypt nb) s' = .next t' →
    t.st = .done → t'.st = .done →
    4 * ((10 + (utf8All (txtText Config.actual s)).length) / 3) < 2 ^ 32 →
    txtText Config.actual s' = txtText Config.actual s → pwtText Config.actual s' = pwtText Config.actual s →
      (b64Chars Config.actual t = b64Chars Config.actual t' ↔ t.nonce = t'.nonce)

/-- Length invariant (R235): the string of ENCRYPT decodes to N + 8 bytes, N the UTF-8 length of the plaintext, and has
4 * ((N + 10) div 3) characters, when those are fewer than 2^32 (log 7); with an empty plaintext (R237) the payload is the 8
nonce bytes alone. -/
def Obligations.EncryptLengths : Prop :=
  ∀ (nb : Nat) (s t : State), exec (.encrypt nb) s = .next t → t.st = .done →
    4 * ((10 + (utf8All (txtText Config.actual s)).length) / 3) < 2 ^ 32 →
      t.b64Len.toNat = 4 * ((10 + (utf8All (txtText Config.actual s)).length) / 3) ∧
      ∃ payload, b64Decode (b64Chars Config.actual t) = .ok payload ∧
        payload.length = (utf8All (txtText Config.actual s)).length + 8 ∧ payload.take 8 = t.nonce.toList ∧
        (s.txtLen = 0 → payload = t.nonce.toList ∧ t.b64Len = 12)

/-- The discard at the end of ENCRYPT and DECRYPT, on success and on every error after their line 2 (R233, R270 c): after an error
the result's length is 0 and the result buffer is unspecified. -/
def Obligations.CompositeDiscards : Prop :=
  ∀ (nb : Nat) (s t : State), legalKeySize nb → fits s.params s.pwtLen.toNat = true →
    (fits s.params s.txtLen.toNat = true → exec (.encrypt nb) s = .next t →
      discarded t ∧ (t.st = .error → t.b64Len = 0 ∧ t.b64.cells = [])) ∧
    (fits s.params s.b64Len.toNat = true → exec (.decrypt nb) s = .next t →
      discarded t ∧ (t.st = .error → t.txtLen = 0 ∧ t.txt.cells = []))

/-- Errors of the payload in DECRYPT (R241, R265, R266): a string that is not canonical gives MalformedBase64, a payload of fewer
than 8 bytes MalformedPayload; NONCE and NV are as before, TXTLEN is 0, the discard is done, no outside call is made. -/
def Obligations.DecryptPayloadErrors : Prop :=
  ∀ (nb : Nat) (s : State), legalKeySize nb → fits s.params s.b64Len.toNat = true → fits s.params s.pwtLen.toNat = true →
    (∀ b, b64Chars Config.actual s = b64String b → b.length < 8) →
      ∃ t, exec (.decrypt nb) s = .next t ∧ compositeFrame s t ∧ discarded t ∧ t.st = .error ∧ t.txtLen = 0 ∧
        t.txt.cells = [] ∧ t.nonce = s.nonce ∧ t.nv = s.nv ∧ t.b64 = s.b64 ∧ t.b64Len = s.b64Len ∧ t.events = s.events ∧
        ((∃ b, b64Chars Config.actual s = b64String b) → t.err = .malformedPayload) ∧
        ((∀ b, b64Chars Config.actual s ≠ b64String b) → t.err = .malformedBase64)

/-- An element of TXT or PWT that is no scalar value makes ENCRYPT raise InvalidScalar, and one of PWT makes DECRYPT raise it, with
the discard; ENCRYPT then reads neither the clock nor the random source (R230, R231, R271). MAXLEN is unbounded here. -/
def Obligations.CompositeInvalidScalar : Prop :=
  ∀ (nb : Nat) (s : State), legalKeySize nb → s.params.maxLen = none →
    (scalarText (txtText Config.actual s) = false ∨ scalarText (pwtText Config.actual s) = false →
      ∃ t, exec (.encrypt nb) s = .next t ∧ compositeFrame s t ∧ discarded t ∧ t.st = .error ∧ t.err = .invalidScalar ∧
        t.b64Len = 0 ∧ t.events = s.events ∧ t.nonce = s.nonce ∧ t.nv = s.nv ∧ t.txt = s.txt ∧ t.txtLen = s.txtLen) ∧
    (∀ (nonce : Vector Byte 8) (body : List Byte), b64Chars Config.actual s = b64String (nonce.toList ++ body) →
      scalarText (pwtText Config.actual s) = false →
      ∃ t, exec (.decrypt nb) s = .next t ∧ compositeFrame s t ∧ discarded t ∧ t.st = .error ∧ t.err = .invalidScalar ∧
        t.txtLen = 0 ∧ t.events = s.events ∧ t.nonce = nonce ∧ t.nv = true ∧ t.b64 = s.b64 ∧ t.b64Len = s.b64Len)

/-! ## CLR -/

/-- CLR (R250): all call-local state back to its reset values, ST = IDLE, CTL unchanged; every register the host can read is as
after reset but for CTL. That J and NBLK become 0 is the model's reading (log 29). -/
def Obligations.ClrResult : Prop :=
  ∀ s : State, s.fatal = false → ∃ t, exec .clr s = .next t ∧
    t = { s with
      key := zeros 32, klen := 0, cb := zeros 16, nonce := zeros 8, nv := false, cbv := false, ks := none, dbuf := zeros 32
      j := 0, nblk := 0, phase := .idle, pwLen := 0, pwtLen := 0, txtLen := 0, inLen := 0, outLen := 0, b64Len := 0
      pw := t.pw, pwt := t.pwt, txt := t.txt, inp := t.inp, out := t.out, b64 := t.b64
      err := .noError, st := .idle, draws := t.draws } ∧
    t.pw.cells = [] ∧ t.pwt.cells = [] ∧ t.txt.cells = [] ∧ t.inp.cells = [] ∧ t.out.cells = [] ∧ t.b64.cells = [] ∧
    ∀ (p : Params) (i : Nat), p.encAvailable = true → i ≠ 3 → readReg t i = readReg (State.resetWith p) i

/-! ## The invariant -/

/-- The invariant holds after reset. -/
def Obligations.InvariantHoldsAtReset : Prop := State.reset.Inv

/-- Every step keeps the invariant: buffers in canonical form, KS none, PHASE IDLE unless BUSY, a command latched while BUSY, ERR
non-zero exactly in ERROR, the fatal state and its code tied to ENC_AVAILABLE, the block counts below 2^64. -/
def Obligations.EveryStepKeepsInvariant : Prop :=
  ∀ s t : State, s.Inv → step s = .next t → t.Inv

/-- No step changes the parameters of the core (that they stand in State is the model's choice, log 15). -/
def Obligations.NoStepChangesParameters : Prop :=
  ∀ s t : State, step s = .next t → t.params = s.params

/-! ## Errors of ENCRYPT and DECRYPT after their line 2, in a build of any capacity -/

/-- The errors of ENCRYPT and DECRYPT after their line 2 but those of the payload, for every MAXLEN (R230, R231, R239, R269, R270 c):
the first error of the scan of TXT, then of PWT (in DECRYPT of PWT), InvalidScalar or CapacityExceeded, with no outside call; and
CapacityExceeded when ENCRYPT's payload or string is longer than MAXLEN, after one clock reading and one draw, with the nonce
kept. The discard is done, the result's length is 0, the operands are unchanged. -/
def Obligations.CompositeScanAndCapacityErrors : Prop :=
  ∀ (nb : Nat) (s : State), legalKeySize nb → fits s.params s.pwtLen.toNat = true →
    (fits s.params s.txtLen.toNat = true →
      (∀ e, scanRaises s.params (txtText Config.actual s) e ∨
          (scanSucceeds s.params (txtText Config.actual s) ∧ scanRaises s.params (pwtText Config.actual s) e) →
        ∃ t, exec (.encrypt nb) s = .next t ∧ compositeFrame s t ∧ discarded t ∧ t.st = .error ∧ t.err = e ∧ t.b64Len = 0 ∧
          t.b64.cells = [] ∧ t.events = s.events ∧ t.nonce = s.nonce ∧ t.nv = s.nv ∧ t.txt = s.txt ∧ t.txtLen = s.txtLen) ∧
      (scanSucceeds s.params (txtText Config.actual s) → scanSucceeds s.params (pwtText Config.actual s) →
        fits s.params (8 + (utf8All (txtText Config.actual s)).length) = false ∨
          fits s.params (4 * ((10 + (utf8All (txtText Config.actual s)).length) / 3)) = false →
        ∃ t a r es, exec (.encrypt nb) s = .next t ∧ compositeFrame s t ∧ discarded t ∧ t.st = .error ∧
          t.err = .capacityExceeded ∧ t.b64Len = 0 ∧ t.b64.cells = [] ∧ t.nonce = nonceOf a r ∧ t.nv = true ∧
          t.events = s.events ++ es ∧ es.filter isClock = [.clockRead a] ∧ es.filter isRng = [.rngDraw r] ∧
          t.txt = s.txt ∧ t.txtLen = s.txtLen)) ∧
    (fits s.params s.b64Len.toNat = true → ∀ (nonce : Vector Byte 8) (body : List Byte) (e : ErrCode),
      b64Chars Config.actual s = b64String (nonce.toList ++ body) → scanRaises s.params (pwtText Config.actual s) e →
      ∃ t, exec (.decrypt nb) s = .next t ∧ compositeFrame s t ∧ discarded t ∧ t.st = .error ∧ t.err = e ∧ t.txtLen = 0 ∧
        t.txt.cells = [] ∧ t.events = s.events ∧ t.nonce = nonce ∧ t.nv = true ∧ t.b64 = s.b64 ∧ t.b64Len = s.b64Len)
end

