-- ==== Sys2Proof/Laws/Buffers.lean ====
section
/-! SUPPORT. Laws of buffers: what a read gives after a write, and that every operation keeps the canonical form. -/

namespace Sys2Proof.Machine

variable {w : Nat}

theorem cellsGet_cellsSet (l : List (Nat × BitVec w)) (a b : Nat) (v : BitVec w) :
    cellsGet (cellsSet l a v) b = if b = a then some v else cellsGet l b := by
  induction l with
  | nil => simp [cellsSet, cellsGet]
  | cons x t ih =>
    obtain ⟨i, y⟩ := x
    simp only [cellsSet]
    split
    · simp only [cellsGet]
    · split
      · rename_i _ h
        subst h
        simp only [cellsGet]
        split <;> simp_all
      · simp only [cellsGet, ih]
        split
        · split <;> simp_all
        · rfl

theorem cellsRising_cons (x : Nat × BitVec w) (t : List (Nat × BitVec w)) :
    cellsRising (x :: t) = true ↔ (∀ y ∈ t.head?, x.1 < y.1) ∧ cellsRising t = true := by
  cases t <;> simp [cellsRising]

theorem cellsSet_head (l : List (Nat × BitVec w)) (a : Nat) (v : BitVec w) (m : Nat) (ha : m < a)
    (h : ∀ y ∈ l.head?, m < y.1) : ∀ y ∈ (cellsSet l a v).head?, m < y.1 := by
  cases l with
  | nil => simpa [cellsSet] using ha
  | cons x t =>
    obtain ⟨i, y⟩ := x
    simp only [cellsSet]
    split
    · simpa using ha
    · split
      · simpa using ha
      · simpa using h

/-- A write keeps the indices rising. -/
theorem cellsSet_rising (l : List (Nat × BitVec w)) (a : Nat) (v : BitVec w) (h : cellsRising l = true) :
    cellsRising (cellsSet l a v) = true := by
  induction l with
  | nil => rfl
  | cons x t ih =>
    obtain ⟨i, y⟩ := x
    rw [cellsRising_cons] at h
    simp only [cellsSet]
    split
    · rename_i hlt
      rw [cellsRising_cons, cellsRising_cons]
      exact ⟨by simpa using hlt, h⟩
    · split
      · rename_i _ heq
        subst heq
        rw [cellsRising_cons]
        exact h
      · rw [cellsRising_cons]
        exact ⟨cellsSet_head t a v i (by omega) h.1, ih h.2⟩

theorem cellsFrom_rising (a : Nat) (vs : List (BitVec w)) : cellsRising (cellsFrom a vs) = true := by
  induction vs generalizing a with
  | nil => rfl
  | cons x xs ih =>
    rw [cellsFrom, cellsRising_cons]
    refine ⟨?_, ih (a + 1)⟩
    cases xs <;> simp [cellsFrom]

theorem cellsGet_cellsFrom (a : Nat) (vs : List (BitVec w)) (i : Nat) :
    cellsGet (cellsFrom a vs) i = if a ≤ i then vs[i - a]? else none := by
  induction vs generalizing a with
  | nil => simp [cellsFrom, cellsGet]
  | cons x xs ih =>
    simp only [cellsFrom, cellsGet, ih]
    by_cases h : i = a
    · subst h; simp
    · by_cases h1 : a ≤ i
      · have h2 : a + 1 ≤ i := by omega
        have h3 : i - a = (i - (a + 1)) + 1 := by omega
        simp [h, h1, h2, h3]
      · have h2 : ¬ a + 1 ≤ i := by omega
        simp [h, h1, h2]

@[simp] theorem Buffer.put_wf (b : Buffer w) (i : Nat) (v : BitVec w) (h : b.wf = true) : (b.put i v).wf = true :=
  cellsSet_rising _ _ _ h

@[simp] theorem Buffer.result_wf (gen : Nat) (vs : List (BitVec w)) : (Buffer.result gen vs).wf = true :=
  cellsFrom_rising 0 vs

@[simp] theorem Buffer.unspecified_wf (gen : Nat) : (Buffer.unspecified gen : Buffer w).wf = true := rfl

/-- Reading after writing one element. -/
theorem Buffer.get_put (free : Nat → Nat → BitVec w) (b : Buffer w) (i k : Nat) (v : BitVec w) :
    (b.put i v).get free k = if k = i then v else b.get free k := by
  unfold Buffer.get Buffer.put
  simp only [cellsGet_cellsSet]
  split <;> rfl

/-- Reading after a command wrote a result: its elements, and free values beyond it. -/
theorem Buffer.get_result (free : Nat → Nat → BitVec w) (gen : Nat) (vs : List (BitVec w)) (i : Nat) :
    (Buffer.result gen vs).get free i = vs.getD i (free gen i) := by
  simp [Buffer.get, Buffer.result, cellsGet_cellsFrom, List.getD_eq_getElem?_getD]

@[simp] theorem Buffer.get_unspecified (free : Nat → Nat → BitVec w) (gen i : Nat) :
    (Buffer.unspecified gen).get free i = free gen i := rfl

@[simp] theorem Buffer.memRead_length (free : Nat → Nat → BitVec w) (b : Buffer w) (n : Nat) :
    (b.memRead free n).length = n := by
  simp [Buffer.memRead]

theorem Buffer.memRead_getElem? (free : Nat → Nat → BitVec w) (b : Buffer w) (n i : Nat) :
    (b.memRead free n)[i]? = if i < n then some (b.get free i) else none := by
  unfold Buffer.memRead
  rw [List.getElem?_map]
  split <;> simp_all

theorem Buffer.memRead_getD (free : Nat → Nat → BitVec w) (b : Buffer w) (n i : Nat) (d : BitVec w) (h : i < n) :
    (b.memRead free n).getD i d = b.get free i := by
  rw [List.getD_eq_getElem?_getD, Buffer.memRead_getElem?, if_pos h]
  rfl

/-- A result read back whole. -/
theorem Buffer.memRead_result (free : Nat → Nat → BitVec w) (gen : Nat) (vs : List (BitVec w)) :
    (Buffer.result gen vs).memRead free vs.length = vs := by
  apply List.ext_getElem?
  intro i
  rw [Buffer.memRead_getElem?]
  split
  · rename_i h
    rw [Buffer.get_result, List.getD_eq_getElem?_getD, List.getElem?_eq_getElem h]
    rfl
  · rename_i h
    rw [List.getElem?_eq_none (by omega)]

end Sys2Proof.Machine
end

