-- ==== Sys2Proof/Laws/Bytes.lean ====
section
/-! SUPPORT. Laws of byte arrays: `padTo`, `packBytes`, `byteAt`, `setByteAt`, `zeros`. -/

namespace Sys2Proof.Machine

theorem padTo_getD {α : Type} (d : α) (n : Nat) (l : List α) (i : Nat) :
    (padTo d n l).getD i d = if i < n then l.getD i d else d := by
  induction n generalizing l i with
  | zero => simp [padTo]
  | succ n ih =>
    cases l with
    | nil =>
      cases i with
      | zero => simp [padTo]
      | succ i => simpa [padTo] using ih [] i
    | cons x xs =>
      cases i with
      | zero => simp [padTo]
      | succ i => simpa [padTo] using ih xs i

theorem padTo_take {α : Type} (d : α) (n : Nat) (l : List α) : padTo d n (l.take n) = padTo d n l := by
  induction n generalizing l with
  | zero => rfl
  | succ n ih => cases l <;> simp [padTo, ih]

theorem padTo_of_length_le {α : Type} (d : α) (n : Nat) (l : List α) (h : n ≤ l.length) : padTo d n l = l.take n := by
  induction n generalizing l with
  | zero => simp [padTo]
  | succ n ih =>
    cases l with
    | nil => simp at h
    | cons x xs => simp [padTo, ih xs (by simpa using h)]

@[simp] theorem packBytes_toList (n : Nat) (l : List Byte) : (packBytes n l).toList = padTo 0 n l := rfl

theorem packBytes_toList_of_length (n : Nat) (l : List Byte) (h : l.length = n) : (packBytes n l).toList = l := by
  rw [packBytes_toList, padTo_of_length_le _ _ _ (by omega), List.take_of_length_le (by omega)]

theorem packBytes_self {n : Nat} (v : Vector Byte n) : packBytes n v.toList = v := by
  apply Vector.toList_inj.mp
  exact packBytes_toList_of_length n _ (by simp)

theorem byteAt_packBytes (n : Nat) (l : List Byte) (i : Nat) :
    byteAt (packBytes n l) i = if i < n then l.getD i 0 else 0 := by
  simp only [byteAt, packBytes_toList, padTo_getD]

theorem byteAt_of_le {n : Nat} (v : Vector Byte n) (i : Nat) (h : n ≤ i) : byteAt v i = 0 := by
  simp [byteAt, List.getD_eq_getElem?_getD, h]

/-- Two arrays with equal bytes are equal. -/
theorem bytes_ext {n : Nat} (v w : Vector Byte n) (h : ∀ i, i < n → byteAt v i = byteAt w i) : v = w := by
  apply Vector.toList_inj.mp
  apply List.ext_getElem (by simp)
  intro i h1 h2
  have hi : i < n := by simpa using h1
  simpa [byteAt, List.getD_eq_getElem?_getD, hi] using h i hi

theorem byteAt_setByteAt {n : Nat} (v : Vector Byte n) (i k : Nat) (x : Byte) :
    byteAt (setByteAt v i x) k = if k = i ∧ i < n then x else byteAt v k := by
  unfold setByteAt
  rw [byteAt_packBytes]
  by_cases hk : k < n
  · simp only [hk, if_true, List.getD_eq_getElem?_getD, List.getElem?_set]
    by_cases hik : i = k
    · subst hik; simp [hk]
    · simp [hik, byteAt, List.getD_eq_getElem?_getD, Ne.symm hik]
  · rw [byteAt_of_le v k (by omega)]
    simp only [hk, if_false]
    split
    · omega
    · rfl

@[simp] theorem byteAt_zeros (n i : Nat) : byteAt (zeros n) i = 0 := by
  simp [byteAt, zeros, List.getD_eq_getElem?_getD, List.getElem?_replicate]
  split <;> simp

end Sys2Proof.Machine
end

