-- ==== Sys2Proof/Laws/Commands.lean ====
section
/-! SUPPORT. Every command answers a next state, and which one. -/

namespace Sys2Proof.Machine

/-- The state a command leaves. -/
def effect (c : Config) (i : Instr) (s : State) : State :=
  match i with
  | .derive nb => deriveCommand c nb s
  | .nonceGen => nonceGenCommand c s
  | .cbInit => cbInitCommand s
  | .run => runCommand c s
  | .utf8Enc => utf8EncCommand c s
  | .utf8Dec => utf8DecCommand c s
  | .b64Enc => b64EncCommand c s
  | .b64Dec => b64DecCommand c s
  | .encrypt nb => encryptCommand c nb s
  | .decrypt nb => decryptCommand c nb s
  | .clr => clrCommand s

theorem exec_eq (i : Instr) (s : State) : exec i s = .next (effect Config.actual i s) := by cases i <;> rfl

/-- If a command answers a next state, it is its effect. -/
theorem exec_next {i : Instr} {s t : State} (h : exec i s = .next t) : t = effect Config.actual i s := by
  rw [exec_eq] at h
  injection h with h
  exact h.symm

end Sys2Proof.Machine
end

