-- ==== Sys2Proof/Laws/CtrEngine.lean ====
section
/-! SUPPORT. What the loop of the CTR engine can change, and the length of its output. -/

namespace Sys2Proof.Machine

theorem ceXor_length (x : List Byte) (o : Block) : (ceXor x o).length = min x.length 16 := by simp [ceXor]

/-- Everything the loop can change, when a schedule is in place. -/
theorem ctrLoop_frame (c : Config) (k : Nat) (x : List Byte) (s : State) :
    (ctrLoop c k x s).2 =
      { s with
        phase := (ctrLoop c k x s).2.phase, cb := (ctrLoop c k x s).2.cb, o := (ctrLoop c k x s).2.o
        j := (ctrLoop c k x s).2.j, events := (ctrLoop c k x s).2.events, draws := (ctrLoop c k x s).2.draws } := by
  induction k generalizing x s with
  | zero => rfl
  | succ k ih =>
    simp only [ctrLoop]
    rw [ih]
    unfold ceInc ceCipher
    split <;> rfl

/-- The state after one block of the loop, when a schedule is in place (R164, R166, R172). -/
def ctrBlock (c : Config) (ks : Schedule) (s : State) : State :=
  { s with
    phase := .ceInc, o := c.cipher s.cb ks, cb := ctrInc s.cb, j := s.j + 1
    events := s.events ++ .cipher s.cb.toList ::
      (if progressDue s (s.j + 1) && c.progressShown s.draws then [.progress (s.j + 1) s.nblk] else [])
    draws := s.draws + 1 }

/-- One block of the loop, then the blocks that are left. -/
theorem ctrLoop_succ (c : Config) (k : Nat) (x : List Byte) {s : State} {ks : Schedule} (h : s.ks = some ks) :
    ctrLoop c (k + 1) x s =
      (ceXor (x.take 16) (c.cipher s.cb ks) ++ (ctrLoop c k (x.drop 16) (ctrBlock c ks s)).1,
        (ctrLoop c k (x.drop 16) (ctrBlock c ks s)).2) := by
  have h1 : ceCipher c s =
      { s with phase := .ceCipher, o := c.cipher s.cb ks, events := s.events ++ [.cipher s.cb.toList] } := by
    unfold ceCipher
    rw [h]
  have h2 : ceInc c { ceCipher c s with phase := .ceXor } = ctrBlock c ks s := by
    rw [h1]
    unfold ceInc ctrBlock progressDue
    simp only
    by_cases hp : (s.obsEn && (s.j + 1) % progressInterval s.params == 0 && c.progressShown s.draws) = true
    · simp only [hp, if_true, List.append_assoc, List.cons_append, List.nil_append]
    · simp only [hp, if_false, Bool.false_eq_true]
  simp only [ctrLoop]
  rw [h2, h1]

/-- Everything a run can change. -/
theorem ctrRun_frame (c : Config) (x : List Byte) (s : State) :
    (ctrRun c x s).2 =
      { s with
        phase := .ceEnd, ks := none, cb := (ctrRun c x s).2.cb, o := (ctrRun c x s).2.o, j := (ctrRun c x s).2.j
        nblk := (ctrRun c x s).2.nblk, events := (ctrRun c x s).2.events, draws := (ctrRun c x s).2.draws } := by
  simp only [ctrRun]
  rw [ctrLoop_frame]
  rfl

section
variable (c : Config) (x : List Byte) (s : State)
@[simp] theorem ctrRun_key : (ctrRun c x s).2.key = s.key := by rw [ctrRun_frame]
@[simp] theorem ctrRun_klen : (ctrRun c x s).2.klen = s.klen := by rw [ctrRun_frame]
@[simp] theorem ctrRun_nonce : (ctrRun c x s).2.nonce = s.nonce := by rw [ctrRun_frame]
@[simp] theorem ctrRun_nv : (ctrRun c x s).2.nv = s.nv := by rw [ctrRun_frame]
@[simp] theorem ctrRun_cbv : (ctrRun c x s).2.cbv = s.cbv := by rw [ctrRun_frame]
@[simp] theorem ctrRun_ks : (ctrRun c x s).2.ks = none := by rw [ctrRun_frame]
@[simp] theorem ctrRun_dbuf : (ctrRun c x s).2.dbuf = s.dbuf := by rw [ctrRun_frame]
@[simp] theorem ctrRun_opc : (ctrRun c x s).2.opc = s.opc := by rw [ctrRun_frame]
@[simp] theorem ctrRun_nbits : (ctrRun c x s).2.nbits = s.nbits := by rw [ctrRun_frame]
@[simp] theorem ctrRun_phase : (ctrRun c x s).2.phase = .ceEnd := by rw [ctrRun_frame]
@[simp] theorem ctrRun_st : (ctrRun c x s).2.st = s.st := by rw [ctrRun_frame]
@[simp] theorem ctrRun_fatal : (ctrRun c x s).2.fatal = s.fatal := by rw [ctrRun_frame]
@[simp] theorem ctrRun_err : (ctrRun c x s).2.err = s.err := by rw [ctrRun_frame]
@[simp] theorem ctrRun_obsEn : (ctrRun c x s).2.obsEn = s.obsEn := by rw [ctrRun_frame]
@[simp] theorem ctrRun_pwLen : (ctrRun c x s).2.pwLen = s.pwLen := by rw [ctrRun_frame]
@[simp] theorem ctrRun_pwtLen : (ctrRun c x s).2.pwtLen = s.pwtLen := by rw [ctrRun_frame]
@[simp] theorem ctrRun_txtLen : (ctrRun c x s).2.txtLen = s.txtLen := by rw [ctrRun_frame]
@[simp] theorem ctrRun_inLen : (ctrRun c x s).2.inLen = s.inLen := by rw [ctrRun_frame]
@[simp] theorem ctrRun_outLen : (ctrRun c x s).2.outLen = s.outLen := by rw [ctrRun_frame]
@[simp] theorem ctrRun_b64Len : (ctrRun c x s).2.b64Len = s.b64Len := by rw [ctrRun_frame]
@[simp] theorem ctrRun_pw : (ctrRun c x s).2.pw = s.pw := by rw [ctrRun_frame]
@[simp] theorem ctrRun_pwt : (ctrRun c x s).2.pwt = s.pwt := by rw [ctrRun_frame]
@[simp] theorem ctrRun_txt : (ctrRun c x s).2.txt = s.txt := by rw [ctrRun_frame]
@[simp] theorem ctrRun_inp : (ctrRun c x s).2.inp = s.inp := by rw [ctrRun_frame]
@[simp] theorem ctrRun_out : (ctrRun c x s).2.out = s.out := by rw [ctrRun_frame]
@[simp] theorem ctrRun_b64 : (ctrRun c x s).2.b64 = s.b64 := by rw [ctrRun_frame]
@[simp] theorem ctrRun_params : (ctrRun c x s).2.params = s.params := by rw [ctrRun_frame]
@[simp] theorem ctrRun_pending : (ctrRun c x s).2.pending = s.pending := by rw [ctrRun_frame]
@[simp] theorem ctrRun_replies : (ctrRun c x s).2.replies = s.replies := by rw [ctrRun_frame]
end

@[simp] theorem ctrTransform_length (c : Config) (ks : Schedule) (cb : Block) (x : List Byte) :
    (ctrTransform c ks cb x).length = x.length := by simp [ctrTransform]

theorem ctrTransform_getElem? (c : Config) (ks : Schedule) (cb : Block) (x : List Byte) (k : Nat) :
    (ctrTransform c ks cb x)[k]? = x[k]?.map (· ^^^ keystreamByte c ks cb k) := by
  by_cases h : k < x.length
  · simp [ctrTransform, h, List.getD_eq_getElem?_getD]
  · simp [ctrTransform, Nat.le_of_not_lt h]

/-- The transform is its own inverse: the keystream does not depend on the data. -/
theorem ctrTransform_twice (c : Config) (ks : Schedule) (cb : Block) (x : List Byte) :
    ctrTransform c ks cb (ctrTransform c ks cb x) = x := by
  apply List.ext_getElem?
  intro k
  rw [ctrTransform_getElem?, ctrTransform_getElem?]
  cases x[k]? with
  | none => rfl
  | some a => simp

end Sys2Proof.Machine
end

