-- ==== Sys2Proof/Laws/State.lean ====
section
/-! SUPPORT. One lemma per field per shared update of State, each true by rfl, so that no proof unfolds a record update. -/

namespace Sys2Proof.Machine

/-! `raise` -/

section
variable (e : ErrCode) (s : State)
@[simp] theorem raise_key : (raise e s).key = s.key := rfl
@[simp] theorem raise_klen : (raise e s).klen = s.klen := rfl
@[simp] theorem raise_cb : (raise e s).cb = s.cb := rfl
@[simp] theorem raise_nonce : (raise e s).nonce = s.nonce := rfl
@[simp] theorem raise_nv : (raise e s).nv = s.nv := rfl
@[simp] theorem raise_cbv : (raise e s).cbv = s.cbv := rfl
@[simp] theorem raise_ks : (raise e s).ks = none := rfl
@[simp] theorem raise_o : (raise e s).o = s.o := rfl
@[simp] theorem raise_j : (raise e s).j = s.j := rfl
@[simp] theorem raise_nblk : (raise e s).nblk = s.nblk := rfl
@[simp] theorem raise_dbuf : (raise e s).dbuf = s.dbuf := rfl
@[simp] theorem raise_opc : (raise e s).opc = s.opc := rfl
@[simp] theorem raise_nbits : (raise e s).nbits = s.nbits := rfl
@[simp] theorem raise_phase : (raise e s).phase = .idle := rfl
@[simp] theorem raise_st : (raise e s).st = .error := rfl
@[simp] theorem raise_fatal : (raise e s).fatal = s.fatal := rfl
@[simp] theorem raise_err : (raise e s).err = e := rfl
@[simp] theorem raise_obsEn : (raise e s).obsEn = s.obsEn := rfl
@[simp] theorem raise_pwLen : (raise e s).pwLen = s.pwLen := rfl
@[simp] theorem raise_pwtLen : (raise e s).pwtLen = s.pwtLen := rfl
@[simp] theorem raise_txtLen : (raise e s).txtLen = s.txtLen := rfl
@[simp] theorem raise_inLen : (raise e s).inLen = s.inLen := rfl
@[simp] theorem raise_outLen : (raise e s).outLen = s.outLen := rfl
@[simp] theorem raise_b64Len : (raise e s).b64Len = s.b64Len := rfl
@[simp] theorem raise_pw : (raise e s).pw = s.pw := rfl
@[simp] theorem raise_pwt : (raise e s).pwt = s.pwt := rfl
@[simp] theorem raise_txt : (raise e s).txt = s.txt := rfl
@[simp] theorem raise_inp : (raise e s).inp = s.inp := rfl
@[simp] theorem raise_out : (raise e s).out = s.out := rfl
@[simp] theorem raise_b64 : (raise e s).b64 = s.b64 := rfl
@[simp] theorem raise_params : (raise e s).params = s.params := rfl
@[simp] theorem raise_pending : (raise e s).pending = s.pending := rfl
@[simp] theorem raise_replies : (raise e s).replies = s.replies := rfl
@[simp] theorem raise_events : (raise e s).events = s.events := rfl
@[simp] theorem raise_draws : (raise e s).draws = s.draws := rfl
end

/-! `finish` -/

section
variable (s : State)
@[simp] theorem finish_key : (finish s).key = s.key := rfl
@[simp] theorem finish_klen : (finish s).klen = s.klen := rfl
@[simp] theorem finish_cb : (finish s).cb = s.cb := rfl
@[simp] theorem finish_nonce : (finish s).nonce = s.nonce := rfl
@[simp] theorem finish_nv : (finish s).nv = s.nv := rfl
@[simp] theorem finish_cbv : (finish s).cbv = s.cbv := rfl
@[simp] theorem finish_ks : (finish s).ks = s.ks := rfl
@[simp] theorem finish_o : (finish s).o = s.o := rfl
@[simp] theorem finish_j : (finish s).j = s.j := rfl
@[simp] theorem finish_nblk : (finish s).nblk = s.nblk := rfl
@[simp] theorem finish_dbuf : (finish s).dbuf = s.dbuf := rfl
@[simp] theorem finish_opc : (finish s).opc = s.opc := rfl
@[simp] theorem finish_nbits : (finish s).nbits = s.nbits := rfl
@[simp] theorem finish_phase : (finish s).phase = .idle := rfl
@[simp] theorem finish_st : (finish s).st = .done := rfl
@[simp] theorem finish_fatal : (finish s).fatal = s.fatal := rfl
@[simp] theorem finish_err : (finish s).err = .noError := rfl
@[simp] theorem finish_obsEn : (finish s).obsEn = s.obsEn := rfl
@[simp] theorem finish_pwLen : (finish s).pwLen = s.pwLen := rfl
@[simp] theorem finish_pwtLen : (finish s).pwtLen = s.pwtLen := rfl
@[simp] theorem finish_txtLen : (finish s).txtLen = s.txtLen := rfl
@[simp] theorem finish_inLen : (finish s).inLen = s.inLen := rfl
@[simp] theorem finish_outLen : (finish s).outLen = s.outLen := rfl
@[simp] theorem finish_b64Len : (finish s).b64Len = s.b64Len := rfl
@[simp] theorem finish_pw : (finish s).pw = s.pw := rfl
@[simp] theorem finish_pwt : (finish s).pwt = s.pwt := rfl
@[simp] theorem finish_txt : (finish s).txt = s.txt := rfl
@[simp] theorem finish_inp : (finish s).inp = s.inp := rfl
@[simp] theorem finish_out : (finish s).out = s.out := rfl
@[simp] theorem finish_b64 : (finish s).b64 = s.b64 := rfl
@[simp] theorem finish_params : (finish s).params = s.params := rfl
@[simp] theorem finish_pending : (finish s).pending = s.pending := rfl
@[simp] theorem finish_replies : (finish s).replies = s.replies := rfl
@[simp] theorem finish_events : (finish s).events = s.events := rfl
@[simp] theorem finish_draws : (finish s).draws = s.draws := rfl
end

/-! `acceptCommand` -/

section
variable (i : Instr) (w : Word) (s : State)
@[simp] theorem acceptCommand_key : (acceptCommand i w s).key = s.key := rfl
@[simp] theorem acceptCommand_klen : (acceptCommand i w s).klen = s.klen := rfl
@[simp] theorem acceptCommand_cb : (acceptCommand i w s).cb = s.cb := rfl
@[simp] theorem acceptCommand_nonce : (acceptCommand i w s).nonce = s.nonce := rfl
@[simp] theorem acceptCommand_nv : (acceptCommand i w s).nv = s.nv := rfl
@[simp] theorem acceptCommand_cbv : (acceptCommand i w s).cbv = s.cbv := rfl
@[simp] theorem acceptCommand_ks : (acceptCommand i w s).ks = s.ks := rfl
@[simp] theorem acceptCommand_o : (acceptCommand i w s).o = s.o := rfl
@[simp] theorem acceptCommand_j : (acceptCommand i w s).j = s.j := rfl
@[simp] theorem acceptCommand_nblk : (acceptCommand i w s).nblk = s.nblk := rfl
@[simp] theorem acceptCommand_dbuf : (acceptCommand i w s).dbuf = s.dbuf := rfl
@[simp] theorem acceptCommand_opc : (acceptCommand i w s).opc = fieldOp w := rfl
@[simp] theorem acceptCommand_nbits : (acceptCommand i w s).nbits = fieldNb w := rfl
@[simp] theorem acceptCommand_phase : (acceptCommand i w s).phase = firstPhase i := rfl
@[simp] theorem acceptCommand_st : (acceptCommand i w s).st = .busy := rfl
@[simp] theorem acceptCommand_fatal : (acceptCommand i w s).fatal = s.fatal := rfl
@[simp] theorem acceptCommand_err : (acceptCommand i w s).err = s.err := rfl
@[simp] theorem acceptCommand_obsEn : (acceptCommand i w s).obsEn = s.obsEn := rfl
@[simp] theorem acceptCommand_pwLen : (acceptCommand i w s).pwLen = s.pwLen := rfl
@[simp] theorem acceptCommand_pwtLen : (acceptCommand i w s).pwtLen = s.pwtLen := rfl
@[simp] theorem acceptCommand_txtLen : (acceptCommand i w s).txtLen = s.txtLen := rfl
@[simp] theorem acceptCommand_inLen : (acceptCommand i w s).inLen = s.inLen := rfl
@[simp] theorem acceptCommand_outLen : (acceptCommand i w s).outLen = s.outLen := rfl
@[simp] theorem acceptCommand_b64Len : (acceptCommand i w s).b64Len = s.b64Len := rfl
@[simp] theorem acceptCommand_pw : (acceptCommand i w s).pw = s.pw := rfl
@[simp] theorem acceptCommand_pwt : (acceptCommand i w s).pwt = s.pwt := rfl
@[simp] theorem acceptCommand_txt : (acceptCommand i w s).txt = s.txt := rfl
@[simp] theorem acceptCommand_inp : (acceptCommand i w s).inp = s.inp := rfl
@[simp] theorem acceptCommand_out : (acceptCommand i w s).out = s.out := rfl
@[simp] theorem acceptCommand_b64 : (acceptCommand i w s).b64 = s.b64 := rfl
@[simp] theorem acceptCommand_params : (acceptCommand i w s).params = s.params := rfl
@[simp] theorem acceptCommand_pending : (acceptCommand i w s).pending = s.pending := rfl
@[simp] theorem acceptCommand_replies : (acceptCommand i w s).replies = s.replies := rfl
@[simp] theorem acceptCommand_events : (acceptCommand i w s).events = s.events := rfl
@[simp] theorem acceptCommand_draws : (acceptCommand i w s).draws = s.draws + 1 := rfl
end

/-! `forgetO` -/

section
variable (c : Config) (s : State)
@[simp] theorem forgetO_key : (forgetO c s).key = s.key := rfl
@[simp] theorem forgetO_klen : (forgetO c s).klen = s.klen := rfl
@[simp] theorem forgetO_cb : (forgetO c s).cb = s.cb := rfl
@[simp] theorem forgetO_nonce : (forgetO c s).nonce = s.nonce := rfl
@[simp] theorem forgetO_nv : (forgetO c s).nv = s.nv := rfl
@[simp] theorem forgetO_cbv : (forgetO c s).cbv = s.cbv := rfl
@[simp] theorem forgetO_ks : (forgetO c s).ks = s.ks := rfl
@[simp] theorem forgetO_o : (forgetO c s).o = c.freeBlock s.draws := rfl
@[simp] theorem forgetO_j : (forgetO c s).j = s.j := rfl
@[simp] theorem forgetO_nblk : (forgetO c s).nblk = s.nblk := rfl
@[simp] theorem forgetO_dbuf : (forgetO c s).dbuf = s.dbuf := rfl
@[simp] theorem forgetO_opc : (forgetO c s).opc = s.opc := rfl
@[simp] theorem forgetO_nbits : (forgetO c s).nbits = s.nbits := rfl
@[simp] theorem forgetO_phase : (forgetO c s).phase = s.phase := rfl
@[simp] theorem forgetO_st : (forgetO c s).st = s.st := rfl
@[simp] theorem forgetO_fatal : (forgetO c s).fatal = s.fatal := rfl
@[simp] theorem forgetO_err : (forgetO c s).err = s.err := rfl
@[simp] theorem forgetO_obsEn : (forgetO c s).obsEn = s.obsEn := rfl
@[simp] theorem forgetO_pwLen : (forgetO c s).pwLen = s.pwLen := rfl
@[simp] theorem forgetO_pwtLen : (forgetO c s).pwtLen = s.pwtLen := rfl
@[simp] theorem forgetO_txtLen : (forgetO c s).txtLen = s.txtLen := rfl
@[simp] theorem forgetO_inLen : (forgetO c s).inLen = s.inLen := rfl
@[simp] theorem forgetO_outLen : (forgetO c s).outLen = s.outLen := rfl
@[simp] theorem forgetO_b64Len : (forgetO c s).b64Len = s.b64Len := rfl
@[simp] theorem forgetO_pw : (forgetO c s).pw = s.pw := rfl
@[simp] theorem forgetO_pwt : (forgetO c s).pwt = s.pwt := rfl
@[simp] theorem forgetO_txt : (forgetO c s).txt = s.txt := rfl
@[simp] theorem forgetO_inp : (forgetO c s).inp = s.inp := rfl
@[simp] theorem forgetO_out : (forgetO c s).out = s.out := rfl
@[simp] theorem forgetO_b64 : (forgetO c s).b64 = s.b64 := rfl
@[simp] theorem forgetO_params : (forgetO c s).params = s.params := rfl
@[simp] theorem forgetO_pending : (forgetO c s).pending = s.pending := rfl
@[simp] theorem forgetO_replies : (forgetO c s).replies = s.replies := rfl
@[simp] theorem forgetO_events : (forgetO c s).events = s.events := rfl
@[simp] theorem forgetO_draws : (forgetO c s).draws = s.draws + 1 := rfl
end

/-! `forgetCounts` -/

section
variable (c : Config) (s : State)
@[simp] theorem forgetCounts_key : (forgetCounts c s).key = s.key := rfl
@[simp] theorem forgetCounts_klen : (forgetCounts c s).klen = s.klen := rfl
@[simp] theorem forgetCounts_cb : (forgetCounts c s).cb = s.cb := rfl
@[simp] theorem forgetCounts_nonce : (forgetCounts c s).nonce = s.nonce := rfl
@[simp] theorem forgetCounts_nv : (forgetCounts c s).nv = s.nv := rfl
@[simp] theorem forgetCounts_cbv : (forgetCounts c s).cbv = s.cbv := rfl
@[simp] theorem forgetCounts_ks : (forgetCounts c s).ks = s.ks := rfl
@[simp] theorem forgetCounts_o : (forgetCounts c s).o = s.o := rfl
@[simp] theorem forgetCounts_j : (forgetCounts c s).j = (c.freeJ s.draws).toNat := rfl
@[simp] theorem forgetCounts_nblk : (forgetCounts c s).nblk = (c.freeNblk s.draws).toNat := rfl
@[simp] theorem forgetCounts_dbuf : (forgetCounts c s).dbuf = s.dbuf := rfl
@[simp] theorem forgetCounts_opc : (forgetCounts c s).opc = s.opc := rfl
@[simp] theorem forgetCounts_nbits : (forgetCounts c s).nbits = s.nbits := rfl
@[simp] theorem forgetCounts_phase : (forgetCounts c s).phase = s.phase := rfl
@[simp] theorem forgetCounts_st : (forgetCounts c s).st = s.st := rfl
@[simp] theorem forgetCounts_fatal : (forgetCounts c s).fatal = s.fatal := rfl
@[simp] theorem forgetCounts_err : (forgetCounts c s).err = s.err := rfl
@[simp] theorem forgetCounts_obsEn : (forgetCounts c s).obsEn = s.obsEn := rfl
@[simp] theorem forgetCounts_pwLen : (forgetCounts c s).pwLen = s.pwLen := rfl
@[simp] theorem forgetCounts_pwtLen : (forgetCounts c s).pwtLen = s.pwtLen := rfl
@[simp] theorem forgetCounts_txtLen : (forgetCounts c s).txtLen = s.txtLen := rfl
@[simp] theorem forgetCounts_inLen : (forgetCounts c s).inLen = s.inLen := rfl
@[simp] theorem forgetCounts_outLen : (forgetCounts c s).outLen = s.outLen := rfl
@[simp] theorem forgetCounts_b64Len : (forgetCounts c s).b64Len = s.b64Len := rfl
@[simp] theorem forgetCounts_pw : (forgetCounts c s).pw = s.pw := rfl
@[simp] theorem forgetCounts_pwt : (forgetCounts c s).pwt = s.pwt := rfl
@[simp] theorem forgetCounts_txt : (forgetCounts c s).txt = s.txt := rfl
@[simp] theorem forgetCounts_inp : (forgetCounts c s).inp = s.inp := rfl
@[simp] theorem forgetCounts_out : (forgetCounts c s).out = s.out := rfl
@[simp] theorem forgetCounts_b64 : (forgetCounts c s).b64 = s.b64 := rfl
@[simp] theorem forgetCounts_params : (forgetCounts c s).params = s.params := rfl
@[simp] theorem forgetCounts_pending : (forgetCounts c s).pending = s.pending := rfl
@[simp] theorem forgetCounts_replies : (forgetCounts c s).replies = s.replies := rfl
@[simp] theorem forgetCounts_events : (forgetCounts c s).events = s.events := rfl
@[simp] theorem forgetCounts_draws : (forgetCounts c s).draws = s.draws + 1 := rfl
end

/-! `putOut` -/

section
variable (c : Config) (r : List Byte) (s : State)
@[simp] theorem putOut_key : (putOut c r s).key = s.key := rfl
@[simp] theorem putOut_klen : (putOut c r s).klen = s.klen := rfl
@[simp] theorem putOut_cb : (putOut c r s).cb = s.cb := rfl
@[simp] theorem putOut_nonce : (putOut c r s).nonce = s.nonce := rfl
@[simp] theorem putOut_nv : (putOut c r s).nv = s.nv := rfl
@[simp] theorem putOut_cbv : (putOut c r s).cbv = s.cbv := rfl
@[simp] theorem putOut_ks : (putOut c r s).ks = s.ks := rfl
@[simp] theorem putOut_o : (putOut c r s).o = s.o := rfl
@[simp] theorem putOut_j : (putOut c r s).j = s.j := rfl
@[simp] theorem putOut_nblk : (putOut c r s).nblk = s.nblk := rfl
@[simp] theorem putOut_dbuf : (putOut c r s).dbuf = s.dbuf := rfl
@[simp] theorem putOut_opc : (putOut c r s).opc = s.opc := rfl
@[simp] theorem putOut_nbits : (putOut c r s).nbits = s.nbits := rfl
@[simp] theorem putOut_phase : (putOut c r s).phase = s.phase := rfl
@[simp] theorem putOut_st : (putOut c r s).st = s.st := rfl
@[simp] theorem putOut_fatal : (putOut c r s).fatal = s.fatal := rfl
@[simp] theorem putOut_err : (putOut c r s).err = s.err := rfl
@[simp] theorem putOut_obsEn : (putOut c r s).obsEn = s.obsEn := rfl
@[simp] theorem putOut_pwLen : (putOut c r s).pwLen = s.pwLen := rfl
@[simp] theorem putOut_pwtLen : (putOut c r s).pwtLen = s.pwtLen := rfl
@[simp] theorem putOut_txtLen : (putOut c r s).txtLen = s.txtLen := rfl
@[simp] theorem putOut_inLen : (putOut c r s).inLen = s.inLen := rfl
@[simp] theorem putOut_outLen : (putOut c r s).outLen = lengthReg c s.draws r.length := rfl
@[simp] theorem putOut_b64Len : (putOut c r s).b64Len = s.b64Len := rfl
@[simp] theorem putOut_pw : (putOut c r s).pw = s.pw := rfl
@[simp] theorem putOut_pwt : (putOut c r s).pwt = s.pwt := rfl
@[simp] theorem putOut_txt : (putOut c r s).txt = s.txt := rfl
@[simp] theorem putOut_inp : (putOut c r s).inp = s.inp := rfl
@[simp] theorem putOut_out : (putOut c r s).out = .result s.draws r := rfl
@[simp] theorem putOut_b64 : (putOut c r s).b64 = s.b64 := rfl
@[simp] theorem putOut_params : (putOut c r s).params = s.params := rfl
@[simp] theorem putOut_pending : (putOut c r s).pending = s.pending := rfl
@[simp] theorem putOut_replies : (putOut c r s).replies = s.replies := rfl
@[simp] theorem putOut_events : (putOut c r s).events = s.events := rfl
@[simp] theorem putOut_draws : (putOut c r s).draws = s.draws + 1 := rfl
end

/-! `putTxt` -/

section
variable (c : Config) (r : List Word) (s : State)
@[simp] theorem putTxt_key : (putTxt c r s).key = s.key := rfl
@[simp] theorem putTxt_klen : (putTxt c r s).klen = s.klen := rfl
@[simp] theorem putTxt_cb : (putTxt c r s).cb = s.cb := rfl
@[simp] theorem putTxt_nonce : (putTxt c r s).nonce = s.nonce := rfl
@[simp] theorem putTxt_nv : (putTxt c r s).nv = s.nv := rfl
@[simp] theorem putTxt_cbv : (putTxt c r s).cbv = s.cbv := rfl
@[simp] theorem putTxt_ks : (putTxt c r s).ks = s.ks := rfl
@[simp] theorem putTxt_o : (putTxt c r s).o = s.o := rfl
@[simp] theorem putTxt_j : (putTxt c r s).j = s.j := rfl
@[simp] theorem putTxt_nblk : (putTxt c r s).nblk = s.nblk := rfl
@[simp] theorem putTxt_dbuf : (putTxt c r s).dbuf = s.dbuf := rfl
@[simp] theorem putTxt_opc : (putTxt c r s).opc = s.opc := rfl
@[simp] theorem putTxt_nbits : (putTxt c r s).nbits = s.nbits := rfl
@[simp] theorem putTxt_phase : (putTxt c r s).phase = s.phase := rfl
@[simp] theorem putTxt_st : (putTxt c r s).st = s.st := rfl
@[simp] theorem putTxt_fatal : (putTxt c r s).fatal = s.fatal := rfl
@[simp] theorem putTxt_err : (putTxt c r s).err = s.err := rfl
@[simp] theorem putTxt_obsEn : (putTxt c r s).obsEn = s.obsEn := rfl
@[simp] theorem putTxt_pwLen : (putTxt c r s).pwLen = s.pwLen := rfl
@[simp] theorem putTxt_pwtLen : (putTxt c r s).pwtLen = s.pwtLen := rfl
@[simp] theorem putTxt_txtLen : (putTxt c r s).txtLen = lengthReg c s.draws r.length := rfl
@[simp] theorem putTxt_inLen : (putTxt c r s).inLen = s.inLen := rfl
@[simp] theorem putTxt_outLen : (putTxt c r s).outLen = s.outLen := rfl
@[simp] theorem putTxt_b64Len : (putTxt c r s).b64Len = s.b64Len := rfl
@[simp] theorem putTxt_pw : (putTxt c r s).pw = s.pw := rfl
@[simp] theorem putTxt_pwt : (putTxt c r s).pwt = s.pwt := rfl
@[simp] theorem putTxt_txt : (putTxt c r s).txt = .result s.draws r := rfl
@[simp] theorem putTxt_inp : (putTxt c r s).inp = s.inp := rfl
@[simp] theorem putTxt_out : (putTxt c r s).out = s.out := rfl
@[simp] theorem putTxt_b64 : (putTxt c r s).b64 = s.b64 := rfl
@[simp] theorem putTxt_params : (putTxt c r s).params = s.params := rfl
@[simp] theorem putTxt_pending : (putTxt c r s).pending = s.pending := rfl
@[simp] theorem putTxt_replies : (putTxt c r s).replies = s.replies := rfl
@[simp] theorem putTxt_events : (putTxt c r s).events = s.events := rfl
@[simp] theorem putTxt_draws : (putTxt c r s).draws = s.draws + 1 := rfl
end

/-! `putB64` -/

section
variable (c : Config) (r : List Byte) (s : State)
@[simp] theorem putB64_key : (putB64 c r s).key = s.key := rfl
@[simp] theorem putB64_klen : (putB64 c r s).klen = s.klen := rfl
@[simp] theorem putB64_cb : (putB64 c r s).cb = s.cb := rfl
@[simp] theorem putB64_nonce : (putB64 c r s).nonce = s.nonce := rfl
@[simp] theorem putB64_nv : (putB64 c r s).nv = s.nv := rfl
@[simp] theorem putB64_cbv : (putB64 c r s).cbv = s.cbv := rfl
@[simp] theorem putB64_ks : (putB64 c r s).ks = s.ks := rfl
@[simp] theorem putB64_o : (putB64 c r s).o = s.o := rfl
@[simp] theorem putB64_j : (putB64 c r s).j = s.j := rfl
@[simp] theorem putB64_nblk : (putB64 c r s).nblk = s.nblk := rfl
@[simp] theorem putB64_dbuf : (putB64 c r s).dbuf = s.dbuf := rfl
@[simp] theorem putB64_opc : (putB64 c r s).opc = s.opc := rfl
@[simp] theorem putB64_nbits : (putB64 c r s).nbits = s.nbits := rfl
@[simp] theorem putB64_phase : (putB64 c r s).phase = s.phase := rfl
@[simp] theorem putB64_st : (putB64 c r s).st = s.st := rfl
@[simp] theorem putB64_fatal : (putB64 c r s).fatal = s.fatal := rfl
@[simp] theorem putB64_err : (putB64 c r s).err = s.err := rfl
@[simp] theorem putB64_obsEn : (putB64 c r s).obsEn = s.obsEn := rfl
@[simp] theorem putB64_pwLen : (putB64 c r s).pwLen = s.pwLen := rfl
@[simp] theorem putB64_pwtLen : (putB64 c r s).pwtLen = s.pwtLen := rfl
@[simp] theorem putB64_txtLen : (putB64 c r s).txtLen = s.txtLen := rfl
@[simp] theorem putB64_inLen : (putB64 c r s).inLen = s.inLen := rfl
@[simp] theorem putB64_outLen : (putB64 c r s).outLen = s.outLen := rfl
@[simp] theorem putB64_b64Len : (putB64 c r s).b64Len = lengthReg c s.draws r.length := rfl
@[simp] theorem putB64_pw : (putB64 c r s).pw = s.pw := rfl
@[simp] theorem putB64_pwt : (putB64 c r s).pwt = s.pwt := rfl
@[simp] theorem putB64_txt : (putB64 c r s).txt = s.txt := rfl
@[simp] theorem putB64_inp : (putB64 c r s).inp = s.inp := rfl
@[simp] theorem putB64_out : (putB64 c r s).out = s.out := rfl
@[simp] theorem putB64_b64 : (putB64 c r s).b64 = .result s.draws r := rfl
@[simp] theorem putB64_params : (putB64 c r s).params = s.params := rfl
@[simp] theorem putB64_pending : (putB64 c r s).pending = s.pending := rfl
@[simp] theorem putB64_replies : (putB64 c r s).replies = s.replies := rfl
@[simp] theorem putB64_events : (putB64 c r s).events = s.events := rfl
@[simp] theorem putB64_draws : (putB64 c r s).draws = s.draws + 1 := rfl
end

/-! `voidOut` -/

section
variable (s : State)
@[simp] theorem voidOut_key : (voidOut s).key = s.key := rfl
@[simp] theorem voidOut_klen : (voidOut s).klen = s.klen := rfl
@[simp] theorem voidOut_cb : (voidOut s).cb = s.cb := rfl
@[simp] theorem voidOut_nonce : (voidOut s).nonce = s.nonce := rfl
@[simp] theorem voidOut_nv : (voidOut s).nv = s.nv := rfl
@[simp] theorem voidOut_cbv : (voidOut s).cbv = s.cbv := rfl
@[simp] theorem voidOut_ks : (voidOut s).ks = s.ks := rfl
@[simp] theorem voidOut_o : (voidOut s).o = s.o := rfl
@[simp] theorem voidOut_j : (voidOut s).j = s.j := rfl
@[simp] theorem voidOut_nblk : (voidOut s).nblk = s.nblk := rfl
@[simp] theorem voidOut_dbuf : (voidOut s).dbuf = s.dbuf := rfl
@[simp] theorem voidOut_opc : (voidOut s).opc = s.opc := rfl
@[simp] theorem voidOut_nbits : (voidOut s).nbits = s.nbits := rfl
@[simp] theorem voidOut_phase : (voidOut s).phase = s.phase := rfl
@[simp] theorem voidOut_st : (voidOut s).st = s.st := rfl
@[simp] theorem voidOut_fatal : (voidOut s).fatal = s.fatal := rfl
@[simp] theorem voidOut_err : (voidOut s).err = s.err := rfl
@[simp] theorem voidOut_obsEn : (voidOut s).obsEn = s.obsEn := rfl
@[simp] theorem voidOut_pwLen : (voidOut s).pwLen = s.pwLen := rfl
@[simp] theorem voidOut_pwtLen : (voidOut s).pwtLen = s.pwtLen := rfl
@[simp] theorem voidOut_txtLen : (voidOut s).txtLen = s.txtLen := rfl
@[simp] theorem voidOut_inLen : (voidOut s).inLen = s.inLen := rfl
@[simp] theorem voidOut_outLen : (voidOut s).outLen = 0 := rfl
@[simp] theorem voidOut_b64Len : (voidOut s).b64Len = s.b64Len := rfl
@[simp] theorem voidOut_pw : (voidOut s).pw = s.pw := rfl
@[simp] theorem voidOut_pwt : (voidOut s).pwt = s.pwt := rfl
@[simp] theorem voidOut_txt : (voidOut s).txt = s.txt := rfl
@[simp] theorem voidOut_inp : (voidOut s).inp = s.inp := rfl
@[simp] theorem voidOut_out : (voidOut s).out = .unspecified s.draws := rfl
@[simp] theorem voidOut_b64 : (voidOut s).b64 = s.b64 := rfl
@[simp] theorem voidOut_params : (voidOut s).params = s.params := rfl
@[simp] theorem voidOut_pending : (voidOut s).pending = s.pending := rfl
@[simp] theorem voidOut_replies : (voidOut s).replies = s.replies := rfl
@[simp] theorem voidOut_events : (voidOut s).events = s.events := rfl
@[simp] theorem voidOut_draws : (voidOut s).draws = s.draws + 1 := rfl
end

/-! `voidTxt` -/

section
variable (s : State)
@[simp] theorem voidTxt_key : (voidTxt s).key = s.key := rfl
@[simp] theorem voidTxt_klen : (voidTxt s).klen = s.klen := rfl
@[simp] theorem voidTxt_cb : (voidTxt s).cb = s.cb := rfl
@[simp] theorem voidTxt_nonce : (voidTxt s).nonce = s.nonce := rfl
@[simp] theorem voidTxt_nv : (voidTxt s).nv = s.nv := rfl
@[simp] theorem voidTxt_cbv : (voidTxt s).cbv = s.cbv := rfl
@[simp] theorem voidTxt_ks : (voidTxt s).ks = s.ks := rfl
@[simp] theorem voidTxt_o : (voidTxt s).o = s.o := rfl
@[simp] theorem voidTxt_j : (voidTxt s).j = s.j := rfl
@[simp] theorem voidTxt_nblk : (voidTxt s).nblk = s.nblk := rfl
@[simp] theorem voidTxt_dbuf : (voidTxt s).dbuf = s.dbuf := rfl
@[simp] theorem voidTxt_opc : (voidTxt s).opc = s.opc := rfl
@[simp] theorem voidTxt_nbits : (voidTxt s).nbits = s.nbits := rfl
@[simp] theorem voidTxt_phase : (voidTxt s).phase = s.phase := rfl
@[simp] theorem voidTxt_st : (voidTxt s).st = s.st := rfl
@[simp] theorem voidTxt_fatal : (voidTxt s).fatal = s.fatal := rfl
@[simp] theorem voidTxt_err : (voidTxt s).err = s.err := rfl
@[simp] theorem voidTxt_obsEn : (voidTxt s).obsEn = s.obsEn := rfl
@[simp] theorem voidTxt_pwLen : (voidTxt s).pwLen = s.pwLen := rfl
@[simp] theorem voidTxt_pwtLen : (voidTxt s).pwtLen = s.pwtLen := rfl
@[simp] theorem voidTxt_txtLen : (voidTxt s).txtLen = 0 := rfl
@[simp] theorem voidTxt_inLen : (voidTxt s).inLen = s.inLen := rfl
@[simp] theorem voidTxt_outLen : (voidTxt s).outLen = s.outLen := rfl
@[simp] theorem voidTxt_b64Len : (voidTxt s).b64Len = s.b64Len := rfl
@[simp] theorem voidTxt_pw : (voidTxt s).pw = s.pw := rfl
@[simp] theorem voidTxt_pwt : (voidTxt s).pwt = s.pwt := rfl
@[simp] theorem voidTxt_txt : (voidTxt s).txt = .unspecified s.draws := rfl
@[simp] theorem voidTxt_inp : (voidTxt s).inp = s.inp := rfl
@[simp] theorem voidTxt_out : (voidTxt s).out = s.out := rfl
@[simp] theorem voidTxt_b64 : (voidTxt s).b64 = s.b64 := rfl
@[simp] theorem voidTxt_params : (voidTxt s).params = s.params := rfl
@[simp] theorem voidTxt_pending : (voidTxt s).pending = s.pending := rfl
@[simp] theorem voidTxt_replies : (voidTxt s).replies = s.replies := rfl
@[simp] theorem voidTxt_events : (voidTxt s).events = s.events := rfl
@[simp] theorem voidTxt_draws : (voidTxt s).draws = s.draws + 1 := rfl
end

/-! `voidB64` -/

section
variable (s : State)
@[simp] theorem voidB64_key : (voidB64 s).key = s.key := rfl
@[simp] theorem voidB64_klen : (voidB64 s).klen = s.klen := rfl
@[simp] theorem voidB64_cb : (voidB64 s).cb = s.cb := rfl
@[simp] theorem voidB64_nonce : (voidB64 s).nonce = s.nonce := rfl
@[simp] theorem voidB64_nv : (voidB64 s).nv = s.nv := rfl
@[simp] theorem voidB64_cbv : (voidB64 s).cbv = s.cbv := rfl
@[simp] theorem voidB64_ks : (voidB64 s).ks = s.ks := rfl
@[simp] theorem voidB64_o : (voidB64 s).o = s.o := rfl
@[simp] theorem voidB64_j : (voidB64 s).j = s.j := rfl
@[simp] theorem voidB64_nblk : (voidB64 s).nblk = s.nblk := rfl
@[simp] theorem voidB64_dbuf : (voidB64 s).dbuf = s.dbuf := rfl
@[simp] theorem voidB64_opc : (voidB64 s).opc = s.opc := rfl
@[simp] theorem voidB64_nbits : (voidB64 s).nbits = s.nbits := rfl
@[simp] theorem voidB64_phase : (voidB64 s).phase = s.phase := rfl
@[simp] theorem voidB64_st : (voidB64 s).st = s.st := rfl
@[simp] theorem voidB64_fatal : (voidB64 s).fatal = s.fatal := rfl
@[simp] theorem voidB64_err : (voidB64 s).err = s.err := rfl
@[simp] theorem voidB64_obsEn : (voidB64 s).obsEn = s.obsEn := rfl
@[simp] theorem voidB64_pwLen : (voidB64 s).pwLen = s.pwLen := rfl
@[simp] theorem voidB64_pwtLen : (voidB64 s).pwtLen = s.pwtLen := rfl
@[simp] theorem voidB64_txtLen : (voidB64 s).txtLen = s.txtLen := rfl
@[simp] theorem voidB64_inLen : (voidB64 s).inLen = s.inLen := rfl
@[simp] theorem voidB64_outLen : (voidB64 s).outLen = s.outLen := rfl
@[simp] theorem voidB64_b64Len : (voidB64 s).b64Len = 0 := rfl
@[simp] theorem voidB64_pw : (voidB64 s).pw = s.pw := rfl
@[simp] theorem voidB64_pwt : (voidB64 s).pwt = s.pwt := rfl
@[simp] theorem voidB64_txt : (voidB64 s).txt = s.txt := rfl
@[simp] theorem voidB64_inp : (voidB64 s).inp = s.inp := rfl
@[simp] theorem voidB64_out : (voidB64 s).out = s.out := rfl
@[simp] theorem voidB64_b64 : (voidB64 s).b64 = .unspecified s.draws := rfl
@[simp] theorem voidB64_params : (voidB64 s).params = s.params := rfl
@[simp] theorem voidB64_pending : (voidB64 s).pending = s.pending := rfl
@[simp] theorem voidB64_replies : (voidB64 s).replies = s.replies := rfl
@[simp] theorem voidB64_events : (voidB64 s).events = s.events := rfl
@[simp] theorem voidB64_draws : (voidB64 s).draws = s.draws + 1 := rfl
end

/-! `discard` -/

section
variable (s : State)
@[simp] theorem discard_key : (discard s).key = zeros 32 := rfl
@[simp] theorem discard_klen : (discard s).klen = 0 := rfl
@[simp] theorem discard_cb : (discard s).cb = zeros 16 := rfl
@[simp] theorem discard_nonce : (discard s).nonce = s.nonce := rfl
@[simp] theorem discard_nv : (discard s).nv = s.nv := rfl
@[simp] theorem discard_cbv : (discard s).cbv = false := rfl
@[simp] theorem discard_ks : (discard s).ks = none := rfl
@[simp] theorem discard_o : (discard s).o = s.o := rfl
@[simp] theorem discard_j : (discard s).j = s.j := rfl
@[simp] theorem discard_nblk : (discard s).nblk = s.nblk := rfl
@[simp] theorem discard_dbuf : (discard s).dbuf = zeros 32 := rfl
@[simp] theorem discard_opc : (discard s).opc = s.opc := rfl
@[simp] theorem discard_nbits : (discard s).nbits = s.nbits := rfl
@[simp] theorem discard_phase : (discard s).phase = s.phase := rfl
@[simp] theorem discard_st : (discard s).st = s.st := rfl
@[simp] theorem discard_fatal : (discard s).fatal = s.fatal := rfl
@[simp] theorem discard_err : (discard s).err = s.err := rfl
@[simp] theorem discard_obsEn : (discard s).obsEn = s.obsEn := rfl
@[simp] theorem discard_pwLen : (discard s).pwLen = 0 := rfl
@[simp] theorem discard_pwtLen : (discard s).pwtLen = s.pwtLen := rfl
@[simp] theorem discard_txtLen : (discard s).txtLen = s.txtLen := rfl
@[simp] theorem discard_inLen : (discard s).inLen = 0 := rfl
@[simp] theorem discard_outLen : (discard s).outLen = 0 := rfl
@[simp] theorem discard_b64Len : (discard s).b64Len = s.b64Len := rfl
@[simp] theorem discard_pw : (discard s).pw = .unspecified s.draws := rfl
@[simp] theorem discard_pwt : (discard s).pwt = s.pwt := rfl
@[simp] theorem discard_txt : (discard s).txt = s.txt := rfl
@[simp] theorem discard_inp : (discard s).inp = .unspecified (s.draws + 1) := rfl
@[simp] theorem discard_out : (discard s).out = .unspecified (s.draws + 2) := rfl
@[simp] theorem discard_b64 : (discard s).b64 = s.b64 := rfl
@[simp] theorem discard_params : (discard s).params = s.params := rfl
@[simp] theorem discard_pending : (discard s).pending = s.pending := rfl
@[simp] theorem discard_replies : (discard s).replies = s.replies := rfl
@[simp] theorem discard_events : (discard s).events = s.events := rfl
@[simp] theorem discard_draws : (discard s).draws = s.draws + 3 := rfl
end

/-! `generate` -/

section
variable (c : Config) (s : State)
@[simp] theorem generate_key : (generate c s).key = s.key := rfl
@[simp] theorem generate_klen : (generate c s).klen = s.klen := rfl
@[simp] theorem generate_cb : (generate c s).cb = s.cb := rfl
@[simp] theorem generate_nonce : (generate c s).nonce = nonceOf (c.clockRead s.params.epoch s.draws) (c.rngDraw s.draws) := rfl
@[simp] theorem generate_nv : (generate c s).nv = true := rfl
@[simp] theorem generate_cbv : (generate c s).cbv = s.cbv := rfl
@[simp] theorem generate_ks : (generate c s).ks = s.ks := rfl
@[simp] theorem generate_o : (generate c s).o = s.o := rfl
@[simp] theorem generate_j : (generate c s).j = s.j := rfl
@[simp] theorem generate_nblk : (generate c s).nblk = s.nblk := rfl
@[simp] theorem generate_dbuf : (generate c s).dbuf = s.dbuf := rfl
@[simp] theorem generate_opc : (generate c s).opc = s.opc := rfl
@[simp] theorem generate_nbits : (generate c s).nbits = s.nbits := rfl
@[simp] theorem generate_phase : (generate c s).phase = .ngSample := rfl
@[simp] theorem generate_st : (generate c s).st = s.st := rfl
@[simp] theorem generate_fatal : (generate c s).fatal = s.fatal := rfl
@[simp] theorem generate_err : (generate c s).err = s.err := rfl
@[simp] theorem generate_obsEn : (generate c s).obsEn = s.obsEn := rfl
@[simp] theorem generate_pwLen : (generate c s).pwLen = s.pwLen := rfl
@[simp] theorem generate_pwtLen : (generate c s).pwtLen = s.pwtLen := rfl
@[simp] theorem generate_txtLen : (generate c s).txtLen = s.txtLen := rfl
@[simp] theorem generate_inLen : (generate c s).inLen = s.inLen := rfl
@[simp] theorem generate_outLen : (generate c s).outLen = s.outLen := rfl
@[simp] theorem generate_b64Len : (generate c s).b64Len = s.b64Len := rfl
@[simp] theorem generate_pw : (generate c s).pw = s.pw := rfl
@[simp] theorem generate_pwt : (generate c s).pwt = s.pwt := rfl
@[simp] theorem generate_txt : (generate c s).txt = s.txt := rfl
@[simp] theorem generate_inp : (generate c s).inp = s.inp := rfl
@[simp] theorem generate_out : (generate c s).out = s.out := rfl
@[simp] theorem generate_b64 : (generate c s).b64 = s.b64 := rfl
@[simp] theorem generate_params : (generate c s).params = s.params := rfl
@[simp] theorem generate_pending : (generate c s).pending = s.pending := rfl
@[simp] theorem generate_replies : (generate c s).replies = s.replies := rfl
@[simp] theorem generate_events : (generate c s).events = s.events ++ [.clockRead (c.clockRead s.params.epoch s.draws), .rngDraw (c.rngDraw s.draws)] := rfl
@[simp] theorem generate_draws : (generate c s).draws = s.draws + 1 := rfl
end

/-! `loadCounter` -/

section
variable (s : State)
@[simp] theorem loadCounter_key : (loadCounter s).key = s.key := rfl
@[simp] theorem loadCounter_klen : (loadCounter s).klen = s.klen := rfl
@[simp] theorem loadCounter_cb : (loadCounter s).cb = packBytes 16 (s.nonce.toList ++ (zeros 8).toList) := rfl
@[simp] theorem loadCounter_nonce : (loadCounter s).nonce = s.nonce := rfl
@[simp] theorem loadCounter_nv : (loadCounter s).nv = s.nv := rfl
@[simp] theorem loadCounter_cbv : (loadCounter s).cbv = true := rfl
@[simp] theorem loadCounter_ks : (loadCounter s).ks = s.ks := rfl
@[simp] theorem loadCounter_o : (loadCounter s).o = s.o := rfl
@[simp] theorem loadCounter_j : (loadCounter s).j = s.j := rfl
@[simp] theorem loadCounter_nblk : (loadCounter s).nblk = s.nblk := rfl
@[simp] theorem loadCounter_dbuf : (loadCounter s).dbuf = s.dbuf := rfl
@[simp] theorem loadCounter_opc : (loadCounter s).opc = s.opc := rfl
@[simp] theorem loadCounter_nbits : (loadCounter s).nbits = s.nbits := rfl
@[simp] theorem loadCounter_phase : (loadCounter s).phase = .cbLoad := rfl
@[simp] theorem loadCounter_st : (loadCounter s).st = s.st := rfl
@[simp] theorem loadCounter_fatal : (loadCounter s).fatal = s.fatal := rfl
@[simp] theorem loadCounter_err : (loadCounter s).err = s.err := rfl
@[simp] theorem loadCounter_obsEn : (loadCounter s).obsEn = s.obsEn := rfl
@[simp] theorem loadCounter_pwLen : (loadCounter s).pwLen = s.pwLen := rfl
@[simp] theorem loadCounter_pwtLen : (loadCounter s).pwtLen = s.pwtLen := rfl
@[simp] theorem loadCounter_txtLen : (loadCounter s).txtLen = s.txtLen := rfl
@[simp] theorem loadCounter_inLen : (loadCounter s).inLen = s.inLen := rfl
@[simp] theorem loadCounter_outLen : (loadCounter s).outLen = s.outLen := rfl
@[simp] theorem loadCounter_b64Len : (loadCounter s).b64Len = s.b64Len := rfl
@[simp] theorem loadCounter_pw : (loadCounter s).pw = s.pw := rfl
@[simp] theorem loadCounter_pwt : (loadCounter s).pwt = s.pwt := rfl
@[simp] theorem loadCounter_txt : (loadCounter s).txt = s.txt := rfl
@[simp] theorem loadCounter_inp : (loadCounter s).inp = s.inp := rfl
@[simp] theorem loadCounter_out : (loadCounter s).out = s.out := rfl
@[simp] theorem loadCounter_b64 : (loadCounter s).b64 = s.b64 := rfl
@[simp] theorem loadCounter_params : (loadCounter s).params = s.params := rfl
@[simp] theorem loadCounter_pending : (loadCounter s).pending = s.pending := rfl
@[simp] theorem loadCounter_replies : (loadCounter s).replies = s.replies := rfl
@[simp] theorem loadCounter_events : (loadCounter s).events = s.events := rfl
@[simp] theorem loadCounter_draws : (loadCounter s).draws = s.draws := rfl
end

/-! `splitNonce` -/

section
variable (p : List Byte) (s : State)
@[simp] theorem splitNonce_key : (splitNonce p s).key = s.key := rfl
@[simp] theorem splitNonce_klen : (splitNonce p s).klen = s.klen := rfl
@[simp] theorem splitNonce_cb : (splitNonce p s).cb = s.cb := rfl
@[simp] theorem splitNonce_nonce : (splitNonce p s).nonce = packBytes 8 p := rfl
@[simp] theorem splitNonce_nv : (splitNonce p s).nv = true := rfl
@[simp] theorem splitNonce_cbv : (splitNonce p s).cbv = s.cbv := rfl
@[simp] theorem splitNonce_ks : (splitNonce p s).ks = s.ks := rfl
@[simp] theorem splitNonce_o : (splitNonce p s).o = s.o := rfl
@[simp] theorem splitNonce_j : (splitNonce p s).j = s.j := rfl
@[simp] theorem splitNonce_nblk : (splitNonce p s).nblk = s.nblk := rfl
@[simp] theorem splitNonce_dbuf : (splitNonce p s).dbuf = s.dbuf := rfl
@[simp] theorem splitNonce_opc : (splitNonce p s).opc = s.opc := rfl
@[simp] theorem splitNonce_nbits : (splitNonce p s).nbits = s.nbits := rfl
@[simp] theorem splitNonce_phase : (splitNonce p s).phase = s.phase := rfl
@[simp] theorem splitNonce_st : (splitNonce p s).st = s.st := rfl
@[simp] theorem splitNonce_fatal : (splitNonce p s).fatal = s.fatal := rfl
@[simp] theorem splitNonce_err : (splitNonce p s).err = s.err := rfl
@[simp] theorem splitNonce_obsEn : (splitNonce p s).obsEn = s.obsEn := rfl
@[simp] theorem splitNonce_pwLen : (splitNonce p s).pwLen = s.pwLen := rfl
@[simp] theorem splitNonce_pwtLen : (splitNonce p s).pwtLen = s.pwtLen := rfl
@[simp] theorem splitNonce_txtLen : (splitNonce p s).txtLen = s.txtLen := rfl
@[simp] theorem splitNonce_inLen : (splitNonce p s).inLen = s.inLen := rfl
@[simp] theorem splitNonce_outLen : (splitNonce p s).outLen = s.outLen := rfl
@[simp] theorem splitNonce_b64Len : (splitNonce p s).b64Len = s.b64Len := rfl
@[simp] theorem splitNonce_pw : (splitNonce p s).pw = s.pw := rfl
@[simp] theorem splitNonce_pwt : (splitNonce p s).pwt = s.pwt := rfl
@[simp] theorem splitNonce_txt : (splitNonce p s).txt = s.txt := rfl
@[simp] theorem splitNonce_inp : (splitNonce p s).inp = s.inp := rfl
@[simp] theorem splitNonce_out : (splitNonce p s).out = s.out := rfl
@[simp] theorem splitNonce_b64 : (splitNonce p s).b64 = s.b64 := rfl
@[simp] theorem splitNonce_params : (splitNonce p s).params = s.params := rfl
@[simp] theorem splitNonce_pending : (splitNonce p s).pending = s.pending := rfl
@[simp] theorem splitNonce_replies : (splitNonce p s).replies = s.replies := rfl
@[simp] theorem splitNonce_events : (splitNonce p s).events = s.events := rfl
@[simp] theorem splitNonce_draws : (splitNonce p s).draws = s.draws := rfl
end

/-! `reply` -/

section
variable (a : HostAccess) (v : Word) (s : State)
@[simp] theorem reply_key : (reply a v s).key = s.key := rfl
@[simp] theorem reply_klen : (reply a v s).klen = s.klen := rfl
@[simp] theorem reply_cb : (reply a v s).cb = s.cb := rfl
@[simp] theorem reply_nonce : (reply a v s).nonce = s.nonce := rfl
@[simp] theorem reply_nv : (reply a v s).nv = s.nv := rfl
@[simp] theorem reply_cbv : (reply a v s).cbv = s.cbv := rfl
@[simp] theorem reply_ks : (reply a v s).ks = s.ks := rfl
@[simp] theorem reply_o : (reply a v s).o = s.o := rfl
@[simp] theorem reply_j : (reply a v s).j = s.j := rfl
@[simp] theorem reply_nblk : (reply a v s).nblk = s.nblk := rfl
@[simp] theorem reply_dbuf : (reply a v s).dbuf = s.dbuf := rfl
@[simp] theorem reply_opc : (reply a v s).opc = s.opc := rfl
@[simp] theorem reply_nbits : (reply a v s).nbits = s.nbits := rfl
@[simp] theorem reply_phase : (reply a v s).phase = s.phase := rfl
@[simp] theorem reply_st : (reply a v s).st = s.st := rfl
@[simp] theorem reply_fatal : (reply a v s).fatal = s.fatal := rfl
@[simp] theorem reply_err : (reply a v s).err = s.err := rfl
@[simp] theorem reply_obsEn : (reply a v s).obsEn = s.obsEn := rfl
@[simp] theorem reply_pwLen : (reply a v s).pwLen = s.pwLen := rfl
@[simp] theorem reply_pwtLen : (reply a v s).pwtLen = s.pwtLen := rfl
@[simp] theorem reply_txtLen : (reply a v s).txtLen = s.txtLen := rfl
@[simp] theorem reply_inLen : (reply a v s).inLen = s.inLen := rfl
@[simp] theorem reply_outLen : (reply a v s).outLen = s.outLen := rfl
@[simp] theorem reply_b64Len : (reply a v s).b64Len = s.b64Len := rfl
@[simp] theorem reply_pw : (reply a v s).pw = s.pw := rfl
@[simp] theorem reply_pwt : (reply a v s).pwt = s.pwt := rfl
@[simp] theorem reply_txt : (reply a v s).txt = s.txt := rfl
@[simp] theorem reply_inp : (reply a v s).inp = s.inp := rfl
@[simp] theorem reply_out : (reply a v s).out = s.out := rfl
@[simp] theorem reply_b64 : (reply a v s).b64 = s.b64 := rfl
@[simp] theorem reply_params : (reply a v s).params = s.params := rfl
@[simp] theorem reply_pending : (reply a v s).pending = s.pending := rfl
@[simp] theorem reply_replies : (reply a v s).replies = s.replies ++ [⟨a, v⟩] := rfl
@[simp] theorem reply_events : (reply a v s).events = s.events := rfl
@[simp] theorem reply_draws : (reply a v s).draws = s.draws := rfl
end

end Sys2Proof.Machine
end

