-- ==== Sys2Proof/Laws/HostPort.lean ====
section
/-! SUPPORT. What one step can do, said once. -/

namespace Sys2Proof.Machine

theorem takeStatusRead_some {l rest : List HostAccess} (h : takeStatusRead l = some rest) :
    ∃ pre post, l = pre ++ .readReg 1 :: post ∧ rest = pre ++ post := by
  induction l generalizing rest with
  | nil => simp [takeStatusRead] at h
  | cons a t ih =>
    simp only [takeStatusRead] at h
    split at h
    · rename_i ha
      injection h with h
      exact ⟨[], t, by simp [ha], by simp [h]⟩
    · cases ht : takeStatusRead t with
      | none => simp [ht] at h
      | some r =>
        obtain ⟨pre, post, h1, h2⟩ := ih ht
        simp only [ht, Option.map_some, Option.some.injEq] at h
        exact ⟨a :: pre, post, by simp [h1], by simp [← h, h2]⟩

theorem takeStatusRead_none {l : List HostAccess} (h : ∀ a ∈ l, a ≠ .readReg 1) : takeStatusRead l = none := by
  induction l with
  | nil => rfl
  | cons a t ih =>
    have ha : a ≠ .readReg 1 := h a (by simp)
    simp [takeStatusRead, ha, ih fun b hb => h b (by simp [hb])]

/-- The cases of a step (R31, R70, R262). -/
theorem step_cases (s : State) :
    (s.st = .busy ∧ step s = runLatched s)
      ∨ (s.st = .busy ∧ ∃ rest, takeStatusRead s.pending = some rest ∧ step s = .next (answerStatus rest s))
      ∨ (s.st ≠ .busy ∧ s.pending = [] ∧ step s = .next s)
      ∨ (s.st ≠ .busy ∧ ∃ a rest, s.pending = a :: rest ∧ step s = serve Config.actual a { s with pending := rest }) := by
  unfold step
  by_cases hb : s.st = .busy
  · rw [if_pos hb]
    cases ht : takeStatusRead s.pending with
    | none => exact .inl ⟨hb, rfl⟩
    | some rest =>
      simp only
      split
      · exact .inr (.inl ⟨hb, rest, rfl, rfl⟩)
      · exact .inl ⟨hb, rfl⟩
  · rw [if_neg hb]
    cases hp : s.pending with
    | nil => exact .inr (.inr (.inl ⟨hb, rfl, rfl⟩))
    | cons a rest => exact .inr (.inr (.inr ⟨hb, a, rest, rfl, rfl⟩))

/-- A step of a core that is not BUSY and has an access to complete. -/
theorem step_access {s : State} {a : HostAccess} {rest : List HostAccess} (hb : s.st ≠ .busy) (hp : s.pending = a :: rest) :
    step s = serve Config.actual a { s with pending := rest } := by
  unfold step
  rw [if_neg hb, hp]

/-- A step of a BUSY core with no STATUS read outstanding runs the command. -/
theorem step_busy {s : State} {i : Instr} (hb : s.st = .busy) (hl : latchedCommand s = .ok i)
    (hp : ∀ a ∈ s.pending, a ≠ .readReg 1) : step s = exec i s := by
  unfold step
  rw [if_pos hb, takeStatusRead_none hp]
  simp only [runLatched, hl]

/-- An access that completes: its element exists, and the state is what the access leaves. -/
theorem serve_next {c : Config} {a : HostAccess} {s t : State} (h : serve c a s = .next t) :
    accessExists s.params a = true ∧ t = access c a s := by
  unfold serve at h
  split at h
  · rename_i he
    injection h with h
    exact ⟨he, h.symm⟩
  · cases h

/-- What a write of CMD can do (R34, R95, R262). -/
theorem writeCommand_cases (w : Word) (s : State) :
    (s.fatal = true ∧ writeCommand w s = s)
      ∨ (s.fatal = false ∧ ∃ i, decode w = .ok i ∧ writeCommand w s = acceptCommand i w s)
      ∨ (s.fatal = false ∧ ∃ e, decode w = .error e ∧ writeCommand w s = raise .illegalCommand s) := by
  unfold writeCommand
  cases hf : s.fatal with
  | true => exact .inl ⟨rfl, rfl⟩
  | false =>
    cases hd : decode w with
    | ok i => exact .inr (.inl ⟨rfl, i, rfl, rfl⟩)
    | error e => exact .inr (.inr ⟨rfl, e, rfl, rfl⟩)

/-- The buffers have their canonical form after reset. -/
theorem reset_buffersWf : State.reset.buffersWf = true := rfl

/-- A host write of an element keeps the canonical form of every buffer. -/
theorem writeByteBuf_buffersWf (b : ByteBuf) (i : Nat) (v : Byte) {s : State} (h : s.buffersWf = true) :
    (writeByteBuf b i v s).buffersWf = true := by
  simp only [State.buffersWf, Bool.and_eq_true] at h
  obtain ⟨⟨⟨⟨⟨h1, h2⟩, h3⟩, h4⟩, h5⟩, h6⟩ := h
  cases b <;> simp [State.buffersWf, writeByteBuf, *]

theorem writeTextBuf_buffersWf (b : TextBuf) (i : Nat) (v : Word) {s : State} (h : s.buffersWf = true) :
    (writeTextBuf b i v s).buffersWf = true := by
  simp only [State.buffersWf, Bool.and_eq_true] at h
  obtain ⟨⟨⟨⟨⟨h1, h2⟩, h3⟩, h4⟩, h5⟩, h6⟩ := h
  cases b <;> simp [State.buffersWf, writeTextBuf, *]

end Sys2Proof.Machine
end

