-- ==== Sys2Proof/Laws/KeyDeriver.lean ====
section
/-! SUPPORT. What a derivation does, all of it. -/

namespace Sys2Proof.Machine

theorem keyBytes_of_ok {nb : Nat} (h : keySizeOk nb = true) : keyBytes nb = 16 ∨ keyBytes nb = 24 ∨ keyBytes nb = 32 := by
  simp [keySizeOk] at h
  rcases h with (h | h) | h <;> subst h <;> decide

theorem deriveBuffer_eq (pw : List Byte) (n : Nat) : deriveBuffer pw n = padTo 0 n pw := by
  apply List.ext_getElem (by simp [deriveBuffer, padTo_length])
  intro i h1 h2
  have h3 : i < n := by simpa [padTo_length] using h2
  have := padTo_getD (0 : Byte) n pw i
  rw [List.getD_eq_getElem?_getD, List.getElem?_eq_getElem h2, if_pos h3] at this
  simpa [deriveBuffer] using this.symm

@[simp] theorem deriveBuffer_length (pw : List Byte) (n : Nat) : (deriveBuffer pw n).length = n := by simp [deriveBuffer]

/-- A derivation depends on the first `n` password bytes only (R122). -/
theorem deriveBuffer_take (pw : List Byte) (n : Nat) : deriveBuffer (pw.take n) n = deriveBuffer pw n := by
  rw [deriveBuffer_eq, deriveBuffer_eq, padTo_take]

theorem padTo_append_of_length {α : Type} (d : α) (l m : List α) (n k : Nat) (h : l.length = n) (hk : k ≤ n) :
    padTo d k (l ++ m) = l.take k := by
  rw [padTo_of_length_le _ _ _ (by simp; omega), List.take_append_of_le_length (by omega)]

/-- Everything a derivation of `n` bytes does to the state. -/
theorem deriveKey_eq (c : Config) (pw : List Byte) (n : Nat) (s : State) (h16 : 16 ≤ n) (h32 : n ≤ 32) :
    deriveKey c pw n s =
      { s with
        phase := .kdExtend, ks := none, dbuf := zeros 32
        key := packBytes 32 ((deriveBlock c pw n).toList ++ (deriveBlock c pw n).toList.take (n - 16))
        klen := BitVec.ofNat 8 n
        o := c.freeBlock s.draws
        events := s.events ++ [.keyExpansion (deriveBuffer pw n), .cipher ((deriveBuffer pw n).take 16)]
        draws := s.draws + 1 } := by
  have hl : (padTo 0 n pw ++ s.dbuf.toList.drop n).length = 32 := by simp [padTo_length]; omega
  have hd : (packBytes 32 (padTo 0 n pw ++ s.dbuf.toList.drop n)).toList = padTo 0 n pw ++ s.dbuf.toList.drop n :=
    packBytes_toList_of_length _ _ hl
  have ht : (padTo 0 n pw ++ s.dbuf.toList.drop n).take n = padTo 0 n pw := by
    rw [List.take_append_of_le_length (by simp [padTo_length]), List.take_of_length_le (by simp [padTo_length])]
  have h1 : (padTo 0 n pw ++ s.dbuf.toList.drop n).take 16 = (padTo 0 n pw).take 16 := by
    rw [List.take_append_of_le_length (by simp [padTo_length]; omega)]
  have hp : packBytes 16 (padTo 0 n pw ++ s.dbuf.toList.drop n) = packBytes 16 (padTo 0 n pw) := by
    apply Vector.toList_inj.mp
    rw [packBytes_toList, packBytes_toList, ← padTo_take, h1, padTo_take]
  simp only [deriveKey, kdFill, kdExpand, kdCipher, kdExtend, kdEnd, forgetO, hd, ht, h1, hp, deriveBlock,
    deriveBuffer_eq, List.append_assoc, List.cons_append, List.nil_append]

/-- Byte by byte, the Key a derivation leaves (R125). -/
theorem byteAt_derivedKey (c : Config) (pw : List Byte) (n i : Nat) (h16 : 16 ≤ n) (h32 : n ≤ 32) :
    byteAt (packBytes 32 ((deriveBlock c pw n).toList ++ (deriveBlock c pw n).toList.take (n - 16))) i =
      derivedKeyByte c pw n i := by
  rw [byteAt_packBytes]
  unfold derivedKeyByte byteAt
  generalize (deriveBlock c pw n) = R
  have hR : R.toList.length = 16 := by simp
  by_cases h1 : i < 16
  · simp [h1, show i < 32 by omega, List.getD_eq_getElem?_getD, List.getElem?_append_left (by omega : i < R.toList.length)]
  · by_cases h2 : i < n
    · simp only [h1, h2, show i < 32 by omega, if_true, if_false, List.getD_eq_getElem?_getD]
      rw [List.getElem?_append_right (by omega), hR, List.getElem?_take_of_lt (by omega)]
    · simp only [h1, h2, if_false, List.getD_eq_getElem?_getD]
      split
      · rw [List.getElem?_append_right (by omega), hR, List.getElem?_eq_none (by simp; omega)]
        rfl
      · rfl

end Sys2Proof.Machine
end

