-- ==== Sys2Proof/Laws/PerInstr.lean ====
section
/-! SUPPORT. Statements about every command as syntax, one lemma per constructor. -/

namespace Sys2Proof

/-- The fields of an encoded word: OP, RSV = 0, NB (R90). -/
theorem fields_commandWord (op : Byte) (nb : BitVec 16) :
    fieldOp (commandWord op nb) = op ∧ fieldRsv (commandWord op nb) = 0 ∧ fieldNb (commandWord op nb) = nb := by
  have hb : ∀ j, (commandWord op nb).getLsbD j = if j < 16 then op.getLsbD j else nb.getLsbD (j - 16) := by
    intro j
    simp only [commandWord, BitVec.getLsbD_or, BitVec.getLsbD_shiftLeft, BitVec.getLsbD_setWidth]
    by_cases h16 : j < 16
    · simp [h16, show j < 32 by omega]
    · by_cases h32 : j < 32
      · simp [h16, h32, show j - 16 < 32 by omega, BitVec.getLsbD_of_ge op j (by omega)]
      · simp [h16, h32, BitVec.getLsbD_of_ge nb (j - 16) (by omega)]
  refine ⟨?_, ?_, ?_⟩
  · ext i hi
    rw [fieldOp, BitVec.getElem_extractLsb', hb, if_pos (by omega), Nat.zero_add, BitVec.getLsbD_eq_getElem]
  · ext i hi
    rw [fieldRsv, BitVec.getElem_extractLsb', hb, if_pos (by omega), BitVec.getLsbD_of_ge op _ (by omega)]
    simp
  · ext i hi
    rw [fieldNb, BitVec.getElem_extractLsb', hb, if_neg (by omega), Nat.add_sub_cancel_left, BitVec.getLsbD_eq_getElem]

/-- Two words with equal fields are equal: the three fields cover the word (R90). -/
theorem word_of_fields (w : Word) (h : fieldRsv w = 0) : commandWord (fieldOp w) (fieldNb w) = w := by
  ext i hi
  simp only [fieldOp, fieldNb, commandWord, BitVec.getElem_or, BitVec.getElem_shiftLeft, BitVec.getElem_setWidth,
    BitVec.getLsbD_extractLsb']
  by_cases h1 : i < 8
  · simp [h1, show i < 16 by omega, BitVec.getLsbD_eq_getElem hi]
  · by_cases h2 : i < 16
    · have := congrArg (fun b => b.getLsbD (i - 8)) h
      simp only [fieldRsv, BitVec.getLsbD_extractLsb', show i - 8 < 8 by omega, decide_true,
        Bool.true_and, show 8 + (i - 8) = i by omega] at this
      simp [h1, h2, ← BitVec.getLsbD_eq_getElem hi, this]
    · simp [h1, h2, show i - 16 < 16 by omega, show 16 + (i - 16) = i by omega,
        BitVec.getLsbD_eq_getElem hi]

end Sys2Proof

namespace Sys2Proof.Laws.EncodedFields

/-- The encoded word of a well-formed command carries its opcode in OP, 0 in RSV and its operand in NB (R90 to R93). -/
def Statement (i : Instr) : Prop :=
  i.wf = true →
    fieldOp (encode i) = opcodeOf i ∧ fieldRsv (encode i) = 0 ∧ (fieldNb (encode i)).toNat = operandOf i

theorem of_operand (i : Instr) (h : i.wf = true → operandOf i < 65536) : Statement i := by
  intro hw
  obtain ⟨h1, h2, h3⟩ := fields_commandWord (opcodeOf i) (BitVec.ofNat 16 (operandOf i))
  refine ⟨h1, h2, ?_⟩
  rw [encode, h3, BitVec.toNat_ofNat, Nat.mod_eq_of_lt (h hw)]

theorem derive (nb : Nat) : Statement (.derive nb) := of_operand _ (by simp [Instr.wf, nbFits, operandOf])
theorem nonceGen : Statement .nonceGen := of_operand _ (by simp [operandOf])
theorem cbInit : Statement .cbInit := of_operand _ (by simp [operandOf])
theorem run : Statement .run := of_operand _ (by simp [operandOf])
theorem utf8Enc : Statement .utf8Enc := of_operand _ (by simp [operandOf])
theorem utf8Dec : Statement .utf8Dec := of_operand _ (by simp [operandOf])
theorem b64Enc : Statement .b64Enc := of_operand _ (by simp [operandOf])
theorem b64Dec : Statement .b64Dec := of_operand _ (by simp [operandOf])
theorem encrypt (nb : Nat) : Statement (.encrypt nb) := of_operand _ (by simp [Instr.wf, nbFits, operandOf])
theorem decrypt (nb : Nat) : Statement (.decrypt nb) := of_operand _ (by simp [Instr.wf, nbFits, operandOf])
theorem clr : Statement .clr := of_operand _ (by simp [operandOf])

end Sys2Proof.Laws.EncodedFields
end

