-- ==== Sys2Proof/Laws/TextCodec.lean ====
section
/-! SUPPORT. What the operations of the text codec can answer, and what a written result reads back as. -/

namespace Sys2Proof.Machine

theorem fits_mono {p : Params} {m n : Nat} (h : fits p n = true) (hl : m ≤ n) : fits p m = true := by
  unfold fits at *
  split at h
  · rfl
  · exact decide_eq_true (Nat.le_trans hl (of_decide_eq_true h))

theorem fits_of_unbounded {p : Params} (h : p.maxLen = none) (n : Nat) : fits p n = true := by simp [fits, h]

/-- A scan that ends without error: the text is made of scalar values, its bytes are written whole and fit (R200). -/
theorem utf8Scan_ok {p : Params} {text : List Word} {n : Nat} {bs : List Byte} (h : utf8Scan p text n = .ok bs) :
    bs = utf8All text ∧ scalarText text = true ∧ (fits p n = true → fits p (n + bs.length) = true) := by
  induction text generalizing n bs with
  | nil =>
    simp only [utf8Scan, Except.ok.injEq] at h
    subst h
    exact ⟨rfl, rfl, fun hf => hf⟩
  | cons x xs ih =>
    simp only [utf8Scan] at h
    split at h
    · cases h
    · rename_i hx
      split at h
      · cases h
      · rename_i hf
        split at h
        · cases h
        · rename_i bs' h2
          injection h with h
          subst h
          obtain ⟨h3, h4, h5⟩ := ih h2
          refine ⟨by simp [utf8All, h3], ?_, fun _ => ?_⟩
          · simp only [scalarText, List.all_cons, Bool.and_eq_true] at *
            exact ⟨by simpa using hx, h4⟩
          · have := h5 (by simpa using hf)
            simpa [List.length_append, Nat.add_assoc] using this

/-- A scan of scalar values whose bytes fit ends without error. -/
theorem utf8Scan_of {p : Params} {text : List Word} {n : Nat} (hs : scalarText text = true)
    (hf : fits p (n + (utf8All text).length) = true) : utf8Scan p text n = .ok (utf8All text) := by
  induction text generalizing n with
  | nil => rfl
  | cons x xs ih =>
    simp only [scalarText, List.all_cons, Bool.and_eq_true] at hs
    have hl : (utf8All (x :: xs)).length = (utf8Bytes x).length + (utf8All xs).length := by simp [utf8All]
    rw [hl, ← Nat.add_assoc] at hf
    simp only [utf8Scan, hs.1, fits_mono hf (by omega : n + (utf8Bytes x).length ≤ _), ih hs.2 hf, Bool.not_true,
      Bool.false_eq_true, if_false]
    simp [utf8All]

/-- The errors of a scan (R200). -/
theorem utf8Scan_error {p : Params} {text : List Word} {n : Nat} {e : ErrCode} (h : utf8Scan p text n = .error e) :
    e = .invalidScalar ∨ e = .capacityExceeded := by
  induction text generalizing n with
  | nil => simp [utf8Scan] at h
  | cons x xs ih =>
    simp only [utf8Scan] at h
    split at h
    · injection h with h
      exact .inl h.symm
    · split at h
      · injection h with h
        exact .inr h.symm
      · split at h
        · rename_i h2
          injection h with h
          subst h
          exact ih h2
        · cases h

/-- The errors of `utf8Decode` (R202, R204). -/
theorem utf8Decode_error {c : Config} {p : Params} {b : List Byte} {e : ErrCode} (h : utf8Decode c p b = .error e) :
    e = .malformedUtf8 ∨ e = .capacityExceeded := by
  unfold utf8Decode utf8Text at h
  split at h
  · rename_i h2
    split at h2
    · cases h2
    · split at h2
      · injection h2 with h2
        injection h with h
        exact .inl (by rw [← h, ← h2])
      · cases h2
  · split at h
    · cases h
    · injection h with h
      exact .inr h.symm

/-- The length of a Base64 string (R210). -/
theorem b64String_length (b : List Byte) : (b64String b).length = b64Length b.length := by
  fun_induction b64String b <;> simp [b64Length, *]
  omega

/-- The only error of `base64Encode` (R205). -/
theorem b64Encode_error {p : Params} {b : List Byte} {e : ErrCode} (h : b64Encode p b = .error e) : e = .capacityExceeded := by
  unfold b64Encode at h
  split at h
  · cases h
  · injection h with h
    exact h.symm

/-- The only error of `base64Decode` (R207). -/
theorem b64Decode_error {b : List Byte} {e : ErrCode} (h : b64Decode b = .error e) : e = .malformedBase64 := by
  unfold b64Decode at h
  split at h
  · cases h
  · injection h with h
    exact h.symm

/-- A continuation byte as a number (R201). -/
theorem contByte_toNat (c : Word) (sh : Nat) : (contByte c sh).toNat = 0x80 + c.toNat / 2 ^ sh % 2 ^ 6 := by
  have h : c.toNat / 2 ^ sh % 2 ^ 6 < 2 ^ 7 := by omega
  have := Nat.two_pow_add_eq_or_of_lt h 1
  simp only [contByte, BitVec.toNat_setWidth, BitVec.toNat_or, BitVec.toNat_and, BitVec.toNat_ushiftRight,
    Nat.shiftRight_eq_div_pow]
  rw [show (63 : BitVec 32).toNat = 2 ^ 6 - 1 from rfl, show (128 : BitVec 32).toNat = 2 ^ 7 * 1 from rfl,
    Nat.and_two_pow_sub_one_eq_mod]
  omega

/-- A lead byte as a number, when the bits of `c` stay below its mark (R201). -/
theorem leadByte_toNat (m k : Nat) (c : Word) (sh : Nat) (h : c.toNat / 2 ^ sh < 2 ^ k) (hk : 2 ^ k * m + 2 ^ k ≤ 256) :
    (leadByte (BitVec.ofNat 32 (2 ^ k * m)) c sh).toNat = 2 ^ k * m + c.toNat / 2 ^ sh := by
  have hp := Nat.two_pow_pos k
  have := Nat.two_pow_add_eq_or_of_lt h m
  simp only [leadByte, BitVec.toNat_setWidth, BitVec.toNat_or, BitVec.toNat_ushiftRight, BitVec.toNat_ofNat,
    Nat.shiftRight_eq_div_pow]
  rw [Nat.mod_eq_of_lt (by omega : 2 ^ k * m < 2 ^ 32), ← this]
  omega

/-- The 24-bit value of three bytes as a number (R65). -/
theorem b64Group_toNat (b0 b1 b2 : Byte) : (b64Group b0 b1 b2).toNat = b64Value24 b0 b1 b2 := by
  have h1 : b1.toNat * 2 ^ 8 < 2 ^ 16 := by omega
  have h2 : b2.toNat < 2 ^ 8 := b2.isLt
  have e1 := Nat.two_pow_add_eq_or_of_lt h1 b0.toNat
  have e2 := Nat.two_pow_add_eq_or_of_lt h2 (b0.toNat * 2 ^ 8 + b1.toNat)
  have h0 := b0.isLt
  have h3 := b1.isLt
  simp only [b64Group, b64Value24, BitVec.toNat_or, BitVec.toNat_shiftLeft, BitVec.toNat_setWidth, Nat.shiftLeft_eq]
  generalize b0.toNat = x0, b1.toNat = x1, b2.toNat = x2 at *
  simp only [Nat.reducePow] at *
  rw [show x0 % 16777216 * 65536 % 16777216 = 65536 * x0 by omega, show x1 % 16777216 * 256 % 16777216 = x1 * 256 by omega,
    show x2 % 16777216 = x2 by omega, ← e1, show 65536 * x0 + x1 * 256 = 256 * (x0 * 256 + x1) by omega, ← e2]
  omega

/-- A character of the encoder is the one that the alphabet of R206 lists. -/
theorem b64Char_eq_alphabet : ∀ v : BitVec 6, b64Char v = BitVec.ofNat 8 (b64Alphabet.getD v.toNat '=').toNat := by decide

/-- A character of a group is the digit of its value (R205). -/
theorem b64CharAt_eq_digit (b0 b1 b2 : Byte) (sh : Nat) :
    b64CharAt (b64Group b0 b1 b2) sh = b64Digit (b64Value24 b0 b1 b2) sh := by
  rw [b64CharAt, b64Char_eq_alphabet, BitVec.extractLsb'_toNat, b64Group_toNat, Nat.shiftRight_eq_div_pow]
  rfl
/-- The index of an alphabet character is the one it was made from (R206). -/
theorem b64Index_b64Char : ∀ v : BitVec 6, b64Index (b64Char v) = some v := by decide

theorem b64Char_ne_pad : ∀ v : BitVec 6, b64Char v ≠ b64Pad := by decide

theorem lengthReg_toNat (c : Config) (k n : Nat) (h : n < 2 ^ 32) : (lengthReg c k n).toNat = n := by
  simp only [lengthReg, h, if_true, BitVec.toNat_ofNat]
  omega

/-- A result put in OUT reads back whole. -/
theorem outBytes_putOut (c : Config) (bs : List Byte) (s : State) (h : bs.length < 2 ^ 32) : outBytes c (putOut c bs s) = bs := by
  simp only [outBytes, putOut, lengthReg_toNat _ _ _ h]
  exact Buffer.memRead_result _ _ _

/-- A result put in TXT reads back whole. -/
theorem txtText_putTxt (c : Config) (es : List Word) (s : State) (h : es.length < 2 ^ 32) : txtText c (putTxt c es s) = es := by
  simp only [txtText, putTxt, lengthReg_toNat _ _ _ h]
  exact Buffer.memRead_result _ _ _

/-- A result put in B64 reads back whole. -/
theorem b64Chars_putB64 (c : Config) (cs : List Byte) (s : State) (h : cs.length < 2 ^ 32) : b64Chars c (putB64 c cs s) = cs := by
  simp only [b64Chars, putB64, lengthReg_toNat _ _ _ h]
  exact Buffer.memRead_result _ _ _

end Sys2Proof.Machine
end

