-- ==== Sys2Proof/Tests/Slice0.lean ====
section
/-! SUPPORT. The model's own tests: well-formedness, decoding of hand-written words, single commands against the vectors of
spec/95_test_vectors.md, and for every statement a state that meets its hypotheses. Numbers V, T name the vector a test is from. -/

namespace Sys2Proof.Tests

open Sys2Proof Sys2Proof.Machine

/-! ## Well-formedness: nBits needs 16 bits (R90) -/

theorem test_wf_derive_refused : (Instr.derive 65536).wf = false := by decide
theorem test_wf_encrypt_refused : (Instr.encrypt 65536).wf = false := by decide
theorem test_wf_decrypt_refused : (Instr.decrypt 70000).wf = false := by decide
theorem test_wf_largest_operand : (Instr.derive 65535).wf = true ∧ (Instr.encrypt 0).wf = true := by decide

/-! ## Decoding: words written out from R90 to R93 (V1 to V4) -/

theorem test_decode_derive : decode 0x00C00001 = .ok (.derive 192) := by rfl
theorem test_decode_nonceGen : decode 0x00000002 = .ok .nonceGen := by rfl
theorem test_decode_cbInit : decode 0x00000003 = .ok .cbInit := by rfl
theorem test_decode_run : decode 0x00000004 = .ok .run := by rfl
theorem test_decode_utf8Enc : decode 0x00000005 = .ok .utf8Enc := by rfl
theorem test_decode_utf8Dec : decode 0x00000006 = .ok .utf8Dec := by rfl
theorem test_decode_b64Enc : decode 0x00000007 = .ok .b64Enc := by rfl
theorem test_decode_b64Dec : decode 0x00000008 = .ok .b64Dec := by rfl
theorem test_decode_encrypt : decode 0xFFFF0010 = .ok (.encrypt 65535) := by rfl
theorem test_decode_decrypt : decode 0x01000011 = .ok (.decrypt 256) := by rfl
theorem test_decode_clr : decode 0x0000001F = .ok .clr := by rfl
theorem test_decode_derive_zero : decode 0x00000001 = .ok (.derive 0) := by rfl

/-- V3: every illegal word of the vector. -/
theorem test_decode_illegal :
    decode 0x00000000 = .error .unknownOp ∧ decode 0x00000009 = .error .unknownOp ∧ decode 0x00000012 = .error .unknownOp ∧
      decode 0x000000FF = .error .unknownOp ∧ decode 0x00000104 = .error .reservedNotZero ∧
      decode 0x00800101 = .error .reservedNotZero ∧ decode 0x00010004 = .error .operandNotZero ∧
      decode 0x0080001F = .error .operandNotZero ∧ decode 0xFFFFFFFF = .error .reservedNotZero := by
  refine ⟨?_, ?_, ?_, ?_, ?_, ?_, ?_, ?_, ?_⟩ <;> rfl

/-- V1: the encoder writes the words of the vector. -/
theorem test_encode :
    encode (.derive 128) = 0x00800001 ∧ encode (.encrypt 192) = 0x00C00010 ∧ encode (.decrypt 256) = 0x01000011 ∧
      encode .clr = 0x0000001F := by decide

theorem test_table_word : decodeTableWord 32 0x01000011 = some (.decrypt 256) := by decide

/-! ## Small states -/

/-- The build of the vectors: MAXLEN unbounded, policy FAIL, PROGRESS_INTERVAL 1000, the facility present. -/
def plainParams : Params := ⟨none, .fail, 999, true, 0⟩

/-- The same with MAXLEN = `m`. -/
def smallParams (m : Nat) : Params := { plainParams with maxLen := some m }

/-- The primitive TOY of section 3 of the vectors, the clock reading and the draw of V30. -/
def toy : Config where
  params := plainParams
  keyExpansion := fun k => ⟨k⟩
  cipher := fun b s =>
    let t : Byte := s.bytes.foldl (· + ·) 0 + BitVec.ofNat 8 s.bytes.length
    packBytes 16 ((List.range 16).map fun i => byteAt b ((i + 1) % 16) ^^^ s.bytes.getD i 0 ^^^ t)
  utf8Replace := fun _ => []
  clockRead := fun _ _ => 1700000000123
  rngDraw := fun _ => 0xBEEF
  progressShown := fun _ => true
  statusReadFirst := fun _ => true
  freeByte := fun _ _ => 0x5A
  freeText := fun _ _ => 0xD800
  freeBlock := fun _ => Vector.replicate 16 0x5A
  freeJ := fun _ => 5
  freeNblk := fun _ => 6
  freeLength := fun _ => 7

/-- The reset state of the vectors' build. -/
def base : State := State.resetWith plainParams

/-- A buffer that holds a sequence from element 0. -/
def holds {w : Nat} (l : List (BitVec w)) : Buffer w := .result 0 l

/-- The characters "ewDvvgDxU2U=" (V55), the Base64 of the eight bytes of V30's nonce. -/
def nonceChars : List Byte := [0x65, 0x77, 0x44, 0x76, 0x76, 0x67, 0x44, 0x78, 0x55, 0x32, 0x55, 0x3D]

/-- The nonce of V30. -/
def nonce30 : Vector Byte 8 := packBytes 8 [0x7B, 0x00, 0xEF, 0xBE, 0x00, 0xF1, 0x53, 0x65]

/-- TXT = "Hi €", PWT = "pw" (T5). -/
def hiEuro : State :=
  { base with txt := holds [0x48, 0x69, 0x20, 0x20AC], txtLen := 4, pwt := holds [0x70, 0x77], pwtLen := 2 }

/-! ## Single commands -/

/-- T1, 192 bits: the whole buffer reaches keyExpansion, the Key is R followed by R[0,8). -/
theorem test_derive_192 :
    let t := deriveCommand toy 192 { base with pw := holds [0x70, 0x61, 0x73, 0x73, 0x77, 0x6F, 0x72, 0x64], pwLen := 8 }
    t.st = .done ∧ t.klen = 24 ∧ t.key.toList =
      [0x9A, 0x99, 0x8B, 0x8F, 0x93, 0x96, 0x9D, 0xEF, 0x8B, 0x8B, 0x8B, 0x8B, 0x8B, 0x8B, 0x8B, 0xFB,
       0x9A, 0x99, 0x8B, 0x8F, 0x93, 0x96, 0x9D, 0xEF, 0, 0, 0, 0, 0, 0, 0, 0] := by decide

/-- V70: DERIVE 64 raises InvalidKeySize. -/
theorem test_derive_64 : (deriveCommand toy 64 base).st = .error ∧ (deriveCommand toy 64 base).err = .invalidKeySize := by decide

/-- V30. -/
theorem test_nonceGen : (nonceGenCommand toy base).nonce = nonce30 ∧ (nonceGenCommand toy base).nv = true := by decide

/-- R141: the reading counts from EPOCH; a clock at 1700000000123 on its own time line, EPOCH 1700000000000, gives 123 ms. -/
theorem test_nonceGen_epoch :
    (nonceGenCommand { toy with clockRead := fun epoch _ => (1700000000123 - epoch).toNat }
      { base with params := { plainParams with epoch := 1700000000000 } }).nonce.toList = [0x7B, 0, 0xEF, 0xBE, 0, 0, 0, 0] := by
  decide

/-- V32, V34: the seconds modulo 2^32, little-endian per field. -/
theorem test_nonceOf :
    (nonceOf 4294967296005 0xFFFF).toList = [0x05, 0x00, 0xFF, 0xFF, 0, 0, 0, 0] ∧
      (nonceOf 1234567890999 0x1234).toList = [0xE7, 0x03, 0x34, 0x12, 0xD2, 0x02, 0x96, 0x49] := by decide

/-- V35: all 16 bytes of CB are overwritten. -/
theorem test_cbInit :
    (cbInitCommand { base with nonce := nonce30, nv := true, cb := Vector.replicate 16 0xFF }).cb.toList =
      [0x7B, 0x00, 0xEF, 0xBE, 0x00, 0xF1, 0x53, 0x65, 0, 0, 0, 0, 0, 0, 0, 0] := by decide

/-- V35, V72: CBINIT without a nonce. -/
theorem test_cbInit_not_ready : (cbInitCommand base).err = .operandNotReady ∧ (cbInitCommand base).cbv = false := by decide

/-- The counter block of V10 to V17: nonce a1..a8, then a counter. -/
def cbA (l : List Byte) : Block := packBytes 16 ([0xA1, 0xA2, 0xA3, 0xA4, 0xA5, 0xA6, 0xA7, 0xA8] ++ l)

/-- V11, V13, V14. -/
theorem test_ctrInc_carries :
    ctrInc (cbA [0, 0, 0, 0, 0, 0, 0, 0xFF]) = cbA [0, 0, 0, 0, 0, 0, 1, 0] ∧
      ctrInc (cbA [0, 0, 0, 0, 0xFF, 0xFF, 0xFF, 0xFF]) = cbA [0, 0, 0, 1, 0, 0, 0, 0] ∧
      ctrInc (cbA [0, 0xFF, 0xFF, 0xFF, 0xFF, 0xFF, 0xFF, 0xFF]) = cbA [1, 0, 0, 0, 0, 0, 0, 0] := by decide

/-- V15: the carry out of CB[8] is dropped. -/
theorem test_ctrInc_wraps :
    ctrInc (cbA [0xFF, 0xFF, 0xFF, 0xFF, 0xFF, 0xFF, 0xFF, 0xFF]) = cbA [0, 0, 0, 0, 0, 0, 0, 0] := by decide

/-- T4's operands: 20 bytes under a host-loaded Key and counter block. -/
def runT4 : State :=
  { base with
    key := packBytes 32 [0x10, 0x11, 0x12, 0x13, 0x14, 0x15, 0x16, 0x17, 0x18, 0x19, 0x1A, 0x1B, 0x1C, 0x1D, 0x1E, 0x1F]
    klen := 16, cb := cbA [0, 0, 0, 0, 0, 0, 0, 0xFF], cbv := true, inLen := 20
    inp := holds [0x41, 0x42, 0x43, 0x44, 0x45, 0x46, 0x47, 0x48, 0x49, 0x4A, 0x4B, 0x4C, 0x4D, 0x4E, 0x4F, 0x50,
      0x51, 0x52, 0x53, 0x54] }

/-- T4: two blocks, a carry between them, a partial last block. -/
theorem test_run : outBytes toy (runCommand toy runT4) =
    [0x7B, 0x78, 0x7D, 0x7A, 0x7F, 0x7C, 0x71, 0xD7, 0xD9, 0xDB, 0xD9, 0xDF, 0xD9, 0xDB, 0x26, 0x66,
     0x6B, 0x68, 0x6D, 0x6A] := by decide

/-- T4: the counter after the run. -/
theorem test_run_counter : (runCommand toy runT4).cb = cbA [0, 0, 0, 0, 0, 0, 1, 1] := by decide

/-- V75: RUN with INLEN = 17 under MAXLEN 16, from reset: CapacityExceeded before any call, though KLEN is 0 too. -/
theorem test_run_capacity :
    runCommand toy { State.resetWith (smallParams 16) with inLen := 17 } =
      { State.resetWith (smallParams 16) with inLen := 17, st := .error, err := .capacityExceeded } := by decide

/-- V50. -/
theorem test_utf8Enc :
    outBytes toy (utf8EncCommand toy { base with txt := holds [0x41, 0xE9, 0x20AC, 0x1F600], txtLen := 4 }) =
      [0x41, 0xC3, 0xA9, 0xE2, 0x82, 0xAC, 0xF0, 0x9F, 0x98, 0x80] := by decide

/-- V57: a surrogate, and an element with a bit above 20 set. -/
theorem test_utf8Enc_invalid :
    (utf8EncCommand toy { base with txt := holds [0x41, 0xD800], txtLen := 2, outLen := 9 }).err = .invalidScalar ∧
      (utf8EncCommand toy { base with txt := holds [0x00200041], txtLen := 1, outLen := 9 }).outLen = 0 := by decide

/-- V51: the boundaries of the four ranges. -/
theorem test_utf8Bytes :
    utf8Bytes 0x7F = [0x7F] ∧ utf8Bytes 0x80 = [0xC2, 0x80] ∧ utf8Bytes 0x7FF = [0xDF, 0xBF] ∧
      utf8Bytes 0x800 = [0xE0, 0xA0, 0x80] ∧ utf8Bytes 0xFFFF = [0xEF, 0xBF, 0xBF] ∧
      utf8Bytes 0x10000 = [0xF0, 0x90, 0x80, 0x80] ∧ utf8Bytes 0x10FFFF = [0xF4, 0x8F, 0xBF, 0xBF] := by decide

/-- V52. -/
theorem test_utf8Dec :
    txtText toy (utf8DecCommand toy
      { base with inp := holds [0x41, 0xC3, 0xA9, 0xE2, 0x82, 0xAC, 0xF0, 0x9F, 0x98, 0x80], inLen := 10 }) =
      [0x41, 0xE9, 0x20AC, 0x1F600] := by decide

/-- V53: every malformed input of the vector. -/
theorem test_utf8Strict_malformed :
    ([[0x80], [0xC3], [0xE2, 0x82], [0xC3, 0x28], [0xC0, 0x80], [0xC1, 0xBF], [0xE0, 0x80, 0x80], [0xE0, 0x9F, 0xBF],
      [0xF0, 0x80, 0x80, 0x80], [0xF0, 0x8F, 0xBF, 0xBF], [0xED, 0xA0, 0x80], [0xED, 0xBF, 0xBF], [0xF4, 0x90, 0x80, 0x80],
      [0xF5, 0x80, 0x80, 0x80], [0xFE], [0xFF], [0x41, 0x80, 0x42]] : List (List Byte)).all
        (fun b => utf8Strict b == none) = true := by decide

/-- V52's input malformed, under REPLACE: the replacement text when it fits, else CapacityExceeded with TXTLEN 0 (R202, R204). -/
theorem test_utf8Dec_replace :
    let c := { toy with utf8Replace := fun _ => [⟨0xFFFD, by decide⟩, ⟨0xFFFD, by decide⟩] }
    let s := fun m => { State.resetWith { smallParams m with policy := .replace } with inp := holds [0xFF], inLen := 1, txtLen := 9 }
    txtText c (utf8DecCommand c (s 2)) = [0xFFFD, 0xFFFD] ∧ (utf8DecCommand c (s 1)).err = .capacityExceeded ∧
      (utf8DecCommand c (s 1)).txtLen = 0 := by decide

/-- V54: "fooba" gives "Zm9vYmE=". -/
theorem test_b64Enc :
    b64Chars toy (b64EncCommand toy { base with inp := holds [0x66, 0x6F, 0x6F, 0x62, 0x61], inLen := 5 }) =
      [0x5A, 0x6D, 0x39, 0x76, 0x59, 0x6D, 0x45, 0x3D] := by decide

/-- V75: with MAXLEN = 16 twelve bytes fit, thirteen do not, and nothing changes. -/
theorem test_b64Enc_capacity :
    (b64EncCommand toy { State.resetWith (smallParams 16) with inLen := 12 }).b64Len = 16 ∧
      b64EncCommand toy { State.resetWith (smallParams 16) with inLen := 13 } =
        { State.resetWith (smallParams 16) with inLen := 13, st := .error, err := .capacityExceeded } := by decide

/-- V56: the string of V55 decodes. -/
theorem test_b64Dec :
    outBytes toy (b64DecCommand toy { base with b64 := holds nonceChars, b64Len := 12 }) = nonce30.toList := by decide

/-- V56: "Zg=", "Zm9vY", "Zh==", "Zm9=", "Z=9v", "Zg==Zg==", "Z===", "====", "Zm-_" and "Zm 9" are malformed. -/
theorem test_b64Canonical_malformed :
    ([[0x5A, 0x67, 0x3D], [0x5A, 0x6D, 0x39, 0x76, 0x59], [0x5A, 0x68, 0x3D, 0x3D], [0x5A, 0x6D, 0x39, 0x3D],
      [0x5A, 0x3D, 0x39, 0x76], [0x5A, 0x67, 0x3D, 0x3D, 0x5A, 0x67, 0x3D, 0x3D], [0x5A, 0x3D, 0x3D, 0x3D],
      [0x3D, 0x3D, 0x3D, 0x3D], [0x5A, 0x6D, 0x2D, 0x5F], [0x5A, 0x6D, 0x20, 0x39]] : List (List Byte)).all
        (fun s => !b64Canonical s) = true := by decide

/-- T5: the string "ewDvvgDxU2UqlPuHFpo=". -/
theorem test_encrypt :
    b64Chars toy (encryptCommand toy 128 hiEuro) =
      [0x65, 0x77, 0x44, 0x76, 0x76, 0x67, 0x44, 0x78, 0x55, 0x32, 0x55, 0x71, 0x6C, 0x50, 0x75, 0x48, 0x46, 0x70, 0x6F,
       0x3D] := by decide

/-- V75: ENCRYPT of "Hello" under MAXLEN 16 fails at the last line: the nonce is kept, the discard is done. -/
theorem test_encrypt_capacity :
    let t := encryptCommand toy 128
      { State.resetWith (smallParams 16) with
        txt := holds [0x48, 0x65, 0x6C, 0x6C, 0x6F], txtLen := 5, pwt := holds [0x70, 0x77], pwtLen := 2 }
    t.err = .capacityExceeded ∧ t.nonce = nonce30 ∧ t.nv = true ∧ t.b64Len = 0 ∧ t.klen = 0 ∧ t.events.length = 6 := by decide

/-- T6: DECRYPT 256 of "ewDvvgDxU2XsUj1B0Fw=" gives "Hi €". -/
theorem test_decrypt :
    txtText toy (decryptCommand toy 256
      { hiEuro with
        b64 := holds [0x65, 0x77, 0x44, 0x76, 0x76, 0x67, 0x44, 0x78, 0x55, 0x32, 0x58, 0x73, 0x55, 0x6A, 0x31, 0x42, 0x30, 0x46,
          0x77, 0x3D], b64Len := 20, txtLen := 0 }) = [0x48, 0x69, 0x20, 0x20AC] := by decide

/-- V73, V74: eleven characters, then seven payload bytes. -/
theorem test_decrypt_payload :
    (decryptCommand toy 128 { base with b64 := holds nonceChars, b64Len := 11 }).err = .malformedBase64 ∧
      (decryptCommand toy 128 { base with b64 := holds [0x41, 0x41, 0x41, 0x41], b64Len := 4 }).err = .malformedPayload := by
  decide

/-- V77: after CLR the registers the host reads are as after reset, but for CTL. -/
theorem test_clr :
    (clrCommand { runCommand toy runT4 with obsEn := true }).obsEn = true ∧
      (List.range 12).map (readReg (clrCommand { runCommand toy runT4 with obsEn := true })) =
        [0, 0, 0, 1, 0, 0, 0, 0, 0, 0, 0, 0] := by decide

/-- V78, V79: what the host reads after reset, with the facility and without. -/
theorem test_reset_reads :
    (List.range 13).map (readReg base) = List.replicate 13 0 ∧
      readReg (State.resetWith { plainParams with encAvailable := false }) 1 = 7 ∧
      readReg (State.resetWith { plainParams with encAvailable := false }) 2 = 2 := by decide

/-- V45 in little, V81: with interval 1 the signals of a run of two blocks are (1, 2) and (2, 2). -/
theorem test_progress :
    (runCommand toy { runT4 with obsEn := true, params := { plainParams with progressIntervalLess1 := 0 } }).events.filter
      isProgress = [.progress 1 2, .progress 2 2] := by decide

/-! ## Witnesses

For every statement with hypotheses, a state and operands that meet all of them, per clause at a boundary of its range. -/

/-- A state on which every command ends without error: a Key, a nonce, a counter block, an 8-byte payload in B64. -/
def ready : State :=
  { base with klen := 16, cbv := true, nv := true, b64 := holds nonceChars, b64Len := 12 }

/-- A core that has accepted RUN, with a write of INLEN and a read of STATUS outstanding. -/
def busyRun : State :=
  { base with st := .busy, opc := 0x04, phase := .ceCheck, pending := [.writeReg 9 5, .readReg 1] }

/-- The core without the encoding facility, the host about to write CLR's word. -/
def fatalCore : State :=
  { State.resetWith { plainParams with encAvailable := false } with pending := [.writeReg 0 0x1F] }

/-- MAXLEN = 4 and every operand length at `n`. -/
def lengths (n : Word) : State :=
  { State.resetWith (smallParams 4) with klen := 16, cbv := true, pwLen := n, pwtLen := n, txtLen := n, inLen := n, b64Len := n }

theorem base_inv : base.Inv := by
  constructor
  case busyCommand => exact fun h => absurd h (by decide)
  all_goals decide

theorem busyRun_inv : busyRun.Inv := by
  constructor
  case busyCommand => exact fun _ => ⟨rfl, .run, rfl, rfl⟩
  all_goals decide

theorem fatalCore_inv : fatalCore.Inv := by
  constructor
  case busyCommand => exact fun h => absurd h (by decide)
  all_goals decide

theorem test_witness_DecodeEncodeRoundTrip : ∃ i : Instr, i.wf = true ∧ i = .encrypt 65535 := ⟨_, by decide, rfl⟩

theorem test_witness_EncodeOfDecodedWord : decode 0xFFFF0010 = .ok (.encrypt 65535) := by rfl

/-- Just outside the legal words: RSV 1, and NB 1 in format N. -/
theorem test_witness_IllegalWordEndsAtOnce :
    ∀ w ∈ ([0x00000104, 0x00010004, 0x00000009] : List Word), ∃ s : State, s.st ≠ .busy ∧ s.phase = .idle ∧ s.ks = none ∧
      s.fatal = false ∧ s.pending = [.writeReg 0 w] ∧ ¬ legalWord w := by
  intro w hw
  refine ⟨{ base with pending := [.writeReg 0 w] }, by show St.idle ≠ .busy; decide, rfl, rfl, rfl, rfl, ?_⟩
  simp only [List.mem_cons, List.not_mem_nil, or_false] at hw
  unfold legalWord
  rcases hw with rfl | rfl | rfl <;> decide

theorem test_witness_LegalWordStartsCommand : ∃ s : State, s.st ≠ .busy ∧ s.fatal = false ∧
    s.pending = [.writeReg 0 0x01000011] ∧ decode 0x01000011 = .ok (.decrypt 256) :=
  ⟨{ base with pending := [.writeReg 0 0x01000011] }, by decide, rfl, rfl, rfl⟩

theorem test_witness_BusyStepRunsCommand : ∃ s : State, s.st = .busy ∧ decode (commandWord s.opc s.nbits) = .ok .run ∧
    ∀ a ∈ s.pending, a ≠ .readReg 1 :=
  ⟨{ busyRun with pending := [.writeReg 9 5] }, rfl, rfl, by decide⟩

theorem test_witness_PlacedWordRunsNext : decodeTableWord 32 0x00C00001 = some (.derive 192) := by decide

/-- Both outcomes are open: a STATUS read is outstanding. -/
theorem test_witness_BusyHoldsHostAccesses : busyRun.Inv ∧ busyRun.st = .busy ∧ (.readReg 1) ∈ busyRun.pending :=
  ⟨busyRun_inv, rfl, by decide⟩

theorem test_witness_WaitingCoreHoldsState : base.st ≠ .busy ∧ base.pending = [] := by decide

/-- The last element of every buffer of 4 and of every array, and a register outside the table. -/
theorem test_witness_HostReadHasNoSideEffect :
    ∀ a ∈ ([.readByte .pw 3, .readByte .inp 3, .readByte .out 3, .readByte .b64 3, .readText .txt 3, .readText .pwt 3,
      .readArr .key 31, .readArr .cb 15, .readArr .nonce 7, .readReg 12] : List HostAccess), ∃ s : State, s.st ≠ .busy ∧
      s.pending = [a] ∧ isRead a = true ∧ accessExists s.params a = true := by
  intro a ha
  refine ⟨{ State.resetWith (smallParams 4) with pending := [a] }, by show St.idle ≠ .busy; decide, rfl, ?_⟩
  show isRead a = true ∧ accessExists (smallParams 4) a = true
  revert a
  decide

theorem test_witness_HostRegisterReadValues :
    ∀ i : Nat, ∃ s : State, s.st ≠ .busy ∧ s.pending = [.readReg i] :=
  fun i => ⟨{ base with pending := [.readReg i] }, by show St.idle ≠ .busy; decide, rfl⟩

theorem test_witness_HostRegisterWriteEffects :
    ∀ i : Nat, ∃ s : State, s.st ≠ .busy ∧ s.pending = [.writeReg i 0xFFFFFFFF] :=
  fun i => ⟨{ base with pending := [.writeReg i 0xFFFFFFFF] }, by show St.idle ≠ .busy; decide, rfl⟩

/-- The last elements: index MAXLEN - 1 of a buffer, index 7 of NONCE. -/
theorem test_witness_HostElementWriteChangesOneElement :
    let s := fun a => { lengths 0 with pending := [a] }
    (∀ a, (s a).st ≠ .busy ∧ fits (s a).params (3 + 1) = true) ∧
      (s (.writeByte .out 3 0x5A)).pending = .writeByte .out 3 0x5A :: [] ∧
      (s (.writeText .txt 3 0x20AC)).pending = .writeText .txt 3 0x20AC :: [] ∧
      (s (.writeArr .nonce 7 0x5A)).pending = .writeArr .nonce 7 0x5A :: [] ∧
      7 < arrSize .nonce ∧ 31 < arrSize .key ∧ 15 < arrSize .cb :=
  ⟨fun _ => ⟨by show St.idle ≠ .busy; decide, rfl⟩, rfl, rfl, rfl, by decide, by decide, by decide⟩

theorem test_witness_FatalStateIsForever : fatalCore.Inv ∧ fatalCore.fatal = true ∧ fatalCore.pending = [.writeReg 0 0x1F] :=
  ⟨fatalCore_inv, rfl, rfl⟩

theorem test_witness_InvalidKeySizeComesFirst : ¬ legalKeySize 0 ∧ ¬ legalKeySize 129 ∧ ¬ legalKeySize 65535 := by
  unfold legalKeySize
  decide

/-- V72: no nonce; KLEN = 20; no counter block; and a composite command that ends. -/
theorem test_witness_OperandNotReadyRaised : base.nv = false ∧ ¬ runReady { base with klen := 20, cbv := true } ∧
    ¬ runReady { base with klen := 16 } ∧ fits base.params base.inLen.toNat = true ∧
    ¬ runReady { lengths 5 with cbv := false } ∧ fits (lengths 5).params (lengths 5).inLen.toNat = false ∧
    exec (.encrypt 128) base = .next (effect Config.actual (.encrypt 128) base) := by
  refine ⟨rfl, ?_, ?_, rfl, ?_, rfl, exec_eq _ _⟩ <;> (unfold runReady; decide)

/-- Lengths one above MAXLEN = 4; for B64ENC also a result that is too long of an operand that fits. -/
theorem test_witness_OperandCapacityExceeded : (lengths 5).params.maxLen = some 4 ∧ legalKeySize 192 ∧
    4 < (lengths 5).pwLen.toNat ∧ 4 < (lengths 5).inLen.toNat ∧ 4 < (lengths 5).txtLen.toNat ∧ 4 < (lengths 5).b64Len.toNat ∧
    4 < (lengths 5).pwtLen.toNat ∧ ¬ 4 < (lengths 4).inLen.toNat ∧ 4 < 4 * (((lengths 4).inLen.toNat + 2) / 3) := by
  unfold legalKeySize
  decide

/-- Any command answers a next state; each list of what a command writes leaves some command out. -/
theorem test_witness_CommandWritesOnlyItsState :
    exec .run ready = .next (effect Config.actual .run ready) ∧ writesKey .run = false ∧ writesNonce .run = false ∧
      writesCb .run = false ∧ writesScratch .run = false ∧ writesTxt .run = false ∧ writesB64 .run = false ∧
      writesCb .nonceGen = false ∧ writesOut .nonceGen = false ∧ usesPrimitive .cbInit = false ∧ writesCounts .cbInit = false :=
  ⟨exec_eq _ _, rfl, rfl, rfl, rfl, rfl, rfl, rfl, rfl, rfl, rfl⟩

theorem test_witness_ObserverHasNoEffect : exec .run ready = .next (effect Config.actual .run ready) := exec_eq _ _

/-- Every command ends without error on `ready`. -/
theorem test_witness_OutsideCallCounts :
    ∀ i ∈ ([.derive 128, .nonceGen, .cbInit, .run, .utf8Enc, .utf8Dec, .b64Enc, .b64Dec, .encrypt 192, .decrypt 256, .clr] :
      List Instr), ∃ t, exec i ready = .next t ∧ t.st ≠ .error := by
  intro i hi
  refine ⟨_, exec_eq i ready, ?_⟩
  simp only [List.mem_cons, List.not_mem_nil, or_false] at hi
  rcases hi with rfl | rfl | rfl | rfl | rfl | rfl | rfl | rfl | rfl | rfl | rfl <;> decide

theorem test_witness_KeyExpansionArgumentSizes :
    exec (.derive 64) ready = .next (effect Config.actual (.derive 64) ready) := exec_eq _ _

theorem test_witness_DeriveResult : ∀ nb ∈ [128, 192, 256], legalKeySize nb ∧ fits (lengths 4).params (lengths 4).pwLen.toNat = true := by
  unfold legalKeySize
  decide

/-- V24, V25: passwords of 16 and 17 bytes that agree in the first 16. -/
theorem test_witness_LongPasswordIsCut :
    let l : List Byte := List.replicate 16 0x61
    let s := { base with pw := holds l, pwLen := 16 }
    let s' := { base with pw := holds (l ++ [0x71]), pwLen := 17 }
    ∃ t t', exec (.derive 128) s = .next t ∧ exec (.derive 128) s' = .next t' ∧ t.st = .done ∧ t'.st = .done ∧
      128 / 8 ≤ s.pwLen.toNat ∧ 128 / 8 ≤ s'.pwLen.toNat ∧
      ∀ i, i < 128 / 8 → s.pw.get Config.actual.freeByte i = s'.pw.get Config.actual.freeByte i :=
  ⟨_, _, exec_eq _ _, exec_eq _ _, by decide, by decide, by decide, by decide, by decide⟩

theorem test_witness_CbInitResult : ready.nv = true := rfl

theorem test_witness_RunClosedForm :
    runReady runT4 ∧ fits runT4.params runT4.inLen.toNat = true ∧ runT4.obsEn = false := by
  unfold runReady
  decide

theorem runT4_done (l : Buffer 8) (n : Word) (cb : Block) :
    (effect Config.actual .run { runT4 with inp := l, inLen := n, cb := cb }).st = .done := by
  have h1 : keyLenOk runT4.klen = true := by decide
  have h2 : runT4.cbv = true := rfl
  have h3 : fits runT4.params n.toNat = true := fits_of_unbounded rfl _
  simp [effect, runCommand, h1, h2, h3]

/-- The second run reads the first one's output. -/
theorem test_witness_RunTwiceGivesInputBack :
    let t := effect Config.actual .run runT4
    let s' := { runT4 with inp := t.out }
    exec .run runT4 = .next t ∧ t.st = .done ∧ exec .run s' = .next (effect Config.actual .run s') ∧
      s'.params = runT4.params ∧ s'.key = runT4.key ∧ s'.klen = runT4.klen ∧ s'.cb = runT4.cb ∧ s'.cbv = runT4.cbv ∧
      s'.inLen = runT4.inLen ∧
      ∀ k, k < runT4.inLen.toNat → s'.inp.get Config.actual.freeByte k = t.out.get Config.actual.freeByte k :=
  ⟨exec_eq _ _, runT4_done runT4.inp runT4.inLen runT4.cb, exec_eq _ _, rfl, rfl, rfl, rfl, rfl, rfl, fun _ _ => rfl⟩

theorem test_witness_RunPropagatesNoError :
    let s' := { runT4 with inp := runT4.inp.put 19 0x55 }
    exec .run runT4 = .next (effect Config.actual .run runT4) ∧ (effect Config.actual .run runT4).st = .done ∧
      exec .run s' = .next (effect Config.actual .run s') ∧ s'.params = runT4.params ∧ s'.key = runT4.key ∧
      s'.klen = runT4.klen ∧ s'.cb = runT4.cb ∧ s'.cbv = runT4.cbv ∧ s'.inLen = runT4.inLen :=
  ⟨exec_eq _ _, runT4_done runT4.inp runT4.inLen runT4.cb, exec_eq _ _, rfl, rfl, rfl, rfl, rfl, rfl⟩

theorem test_witness_RunOnEmptyInput : runReady ready ∧ ready.inLen = 0 := by
  unfold runReady
  decide

/-- T4's input, cut at byte 16; the second run starts where the first one's counter stopped. -/
theorem test_witness_RunSplitAtBlockBoundary :
    let s1 := { runT4 with inLen := 16 }
    let t1 := effect Config.actual .run s1
    let s2 := { runT4 with inp := holds [0x51, 0x52, 0x53, 0x54], inLen := 4, cb := t1.cb }
    exec .run s1 = .next t1 ∧ exec .run s2 = .next (effect Config.actual .run s2) ∧
      exec .run runT4 = .next (effect Config.actual .run runT4) ∧ t1.st = .done ∧
      (effect Config.actual .run s2).st = .done ∧ (effect Config.actual .run runT4).st = .done ∧
      s1.key = runT4.key ∧ s1.klen = runT4.klen ∧ s1.cb = runT4.cb ∧ s2.key = runT4.key ∧ s2.klen = runT4.klen ∧
      s2.cb = t1.cb ∧ s1.inLen.toNat % 16 = 0 ∧ runT4.inLen.toNat = s1.inLen.toNat + s2.inLen.toNat ∧
      (∀ k, k < 16 → s1.inp.get Config.actual.freeByte k = runT4.inp.get Config.actual.freeByte k) ∧
      ∀ k, k < 4 → (holds [0x51, 0x52, 0x53, 0x54] : Buffer 8).get Config.actual.freeByte k =
        runT4.inp.get Config.actual.freeByte (16 + k) :=
  ⟨exec_eq _ _, exec_eq _ _, exec_eq _ _, runT4_done runT4.inp 16 runT4.cb, runT4_done _ 4 _,
    runT4_done runT4.inp runT4.inLen runT4.cb, rfl, rfl, rfl, rfl, rfl, rfl, by decide, by decide, fun _ _ => rfl, by decide⟩

/-- Any command answers a next state; for DECRYPT a string that decodes, and one that does not. -/
theorem test_witness_ProgressSignalsAreDue :
    (∀ i, exec i ready = .next (effect Config.actual i ready)) ∧ b64Decode (b64Chars Config.actual ready) = .ok nonce30.toList ∧
      ∀ payload, b64Decode (b64Chars Config.actual { ready with b64Len := 11 }) ≠ .ok payload := by
  have h : b64Decode (b64Chars Config.actual { ready with b64Len := 11 }) = .error .malformedBase64 := by rfl
  exact ⟨fun i => exec_eq i ready, by rfl, fun _ => by rw [h]; simp⟩

/-- The bounds of the four ranges of R201. -/
theorem test_witness_Utf8LengthsAndAscii :
    (∀ e ∈ ([0x00, 0x7F] : List Word), e.toNat < 0x80) ∧
      ∀ e ∈ ([0x00, 0x7F, 0x80, 0x7FF, 0x800, 0xD7FF, 0xE000, 0xFFFF, 0x10000, 0x10FFFF] : List Word),
        isScalarValue e = true := by
  refine ⟨?_, ?_⟩
  all_goals
    intro e he
    simp only [List.mem_cons, List.not_mem_nil, or_false] at he
    rcases he with rfl | rfl | rfl | rfl | rfl | rfl | rfl | rfl | rfl | rfl <;> decide

theorem test_witness_Utf8EncResult :
    let s := { State.resetWith (smallParams 4) with txt := holds [0x7F, 0x20AC], txtLen := 2 }
    fits s.params s.txtLen.toNat = true ∧ scalarText (txtText Config.actual s) = true ∧
      fits s.params (utf8All (txtText Config.actual s)).length = true := by decide

/-- Both errors: a surrogate, and a byte beyond MAXLEN = 4. -/
theorem test_witness_Utf8EncScanErrors :
    let s := { State.resetWith (smallParams 4) with txt := holds [0x7F, 0x20AC, 0xD800], txtLen := 3 }
    let s' := { State.resetWith (smallParams 4) with txt := holds [0x7F, 0x20AC, 0x41], txtLen := 3 }
    fits s.params s.txtLen.toNat = true ∧ txtText Config.actual s = [0x7F, 0x20AC] ++ 0xD800 :: [] ∧
      txtText Config.actual s' = [0x7F, 0x20AC] ++ 0x41 :: [] ∧ scalarText [0x7F, 0x20AC] = true ∧
      fits s.params (utf8All [0x7F, 0x20AC]).length = true ∧ isScalarValue 0xD800 = false ∧
      fits s'.params (utf8All ([0x7F, 0x20AC] ++ [0x41])).length = false := by decide

theorem test_witness_Utf8DecResult :
    let s := { base with inp := holds [0x7F, 0xE2, 0x82, 0xAC], inLen := 4 }
    fits s.params s.inLen.toNat = true ∧ scalarText [0x7F, 0x20AC] = true ∧ inBytes Config.actual s = utf8All [0x7F, 0x20AC] := by
  decide

/-- No text encodes to the byte FF. -/
theorem utf8All_ne_ff (text : List Word) (h : scalarText text = true) : utf8All text ≠ [0xFF] := by
  intro he
  match text with
  | [] => simp [utf8All] at he
  | x :: xs =>
    simp only [utf8All, List.flatMap_cons] at he
    have hx : x.toNat ≤ 0x10FFFF := by
      simp only [scalarText, List.all_cons, isScalarValue, Bool.and_eq_true, Bool.or_eq_true, decide_eq_true_eq] at h
      omega
    unfold utf8Bytes at he
    split at he
    · rename_i h7
      have := congrArg (fun l => (l.getD 0 0).toNat) he
      simp at this
      omega
    · repeat' split at he
      all_goals
        have := congrArg List.length he
        simp at this

/-- The byte FF (V53), under either policy, in an unbounded build (every text fits). Whether the replacement text is longer than a
bounded MAXLEN no proof can show, since `utf8Replace` is opaque; `test_utf8Dec_replace` runs both outcomes. -/
theorem test_witness_Utf8DecMalformed :
    ∀ p, ∃ s : State, s.params.policy = p ∧ s.params.maxLen = none ∧ fits s.params s.inLen.toNat = true ∧
      ∀ text, scalarText text = true → utf8All text ≠ inBytes Config.actual s :=
  fun p => ⟨{ State.resetWith { plainParams with policy := p } with inp := holds [0xFF], inLen := 1 }, rfl, rfl,
    fits_of_unbounded rfl _, utf8All_ne_ff⟩

/-- Operands of 3, 4 and 5 bytes: full groups, one byte over, two bytes over. -/
theorem test_witness_B64EncResult :
    ∀ n ∈ ([3, 4, 5] : List Word), ∃ s : State, s.inLen = n ∧ fits s.params s.inLen.toNat = true ∧
      fits s.params (4 * ((s.inLen.toNat + 2) / 3)) = true :=
  fun n _ => ⟨{ base with inLen := n }, rfl, fits_of_unbounded rfl _, fits_of_unbounded rfl _⟩

/-- A canonical string, and one of eleven characters. -/
theorem test_witness_B64DecResult :
    (fits ready.params ready.b64Len.toNat = true ∧ b64Chars Config.actual ready = b64String nonce30.toList) ∧
      ∀ b, b64Chars Config.actual { ready with b64Len := 11 } ≠ b64String b := by
  refine ⟨by decide, ?_⟩
  intro b h
  have := congrArg List.length h
  rw [b64String_length] at this
  simp [b64Chars, b64Length] at this
  omega

theorem test_witness_EncryptResult :
    legalKeySize 256 ∧ fits hiEuro.params hiEuro.txtLen.toNat = true ∧ fits hiEuro.params hiEuro.pwtLen.toNat = true ∧
      scalarText (txtText Config.actual hiEuro) = true ∧ scalarText (pwtText Config.actual hiEuro) = true ∧
      fits hiEuro.params (utf8All (pwtText Config.actual hiEuro)).length = true ∧
      fits hiEuro.params (8 + (utf8All (txtText Config.actual hiEuro)).length) = true ∧
      fits hiEuro.params (4 * ((10 + (utf8All (txtText Config.actual hiEuro)).length) / 3)) = true := by
  unfold legalKeySize
  decide

/-- The string of V65, whose body is empty, and a password of two characters. -/
def emptyPayload : State := { hiEuro with b64 := holds nonceChars, b64Len := 12 }

theorem test_witness_DecryptResult :
    legalKeySize 128 ∧ fits emptyPayload.params emptyPayload.b64Len.toNat = true ∧
      fits emptyPayload.params emptyPayload.pwtLen.toNat = true ∧
      b64Chars Config.actual emptyPayload = b64String (nonce30.toList ++ []) ∧
      scalarText (pwtText Config.actual emptyPayload) = true ∧
      fits emptyPayload.params (utf8All (pwtText Config.actual emptyPayload)).length = true ∧ scalarText [] = true ∧
      ctrTransform Config.actual (callSchedule Config.actual 128 emptyPayload) (freshBlock nonce30) [] = utf8All [] := by
  refine ⟨.inl rfl, by decide, by decide, by decide, by decide, by decide, rfl, rfl⟩

/-- A body that decrypts to the byte FF, whatever the primitive is; under either policy, in an unbounded build. -/
theorem test_witness_DecryptOfMalformedText :
    ∀ p, ∃ (s : State) (body : List Byte), s.params.policy = p ∧ s.params.maxLen = none ∧ legalKeySize 128 ∧
      fits s.params s.b64Len.toNat = true ∧ fits s.params s.pwtLen.toNat = true ∧
      b64Chars Config.actual s = b64String (nonce30.toList ++ body) ∧ scalarText (pwtText Config.actual s) = true ∧
      fits s.params (utf8All (pwtText Config.actual s)).length = true ∧
      ∀ text, scalarText text = true →
        utf8All text ≠ ctrTransform Config.actual (callSchedule Config.actual 128 s) (freshBlock nonce30) body := by
  intro p
  let s0 : State := { State.resetWith { plainParams with policy := p } with b64Len := 12 }
  let body := ctrTransform Config.actual (callSchedule Config.actual 128 s0) (freshBlock nonce30) [0xFF]
  refine ⟨{ s0 with b64 := holds (b64String (nonce30.toList ++ body)) }, body, rfl, rfl, .inl rfl, fits_of_unbounded rfl _,
    fits_of_unbounded rfl _, ?_, rfl, fits_of_unbounded rfl _, ?_⟩
  · have hl : (b64String (nonce30.toList ++ body)).length = 12 := by
      rw [b64String_length]
      simp [body, b64Length]
    show (holds (b64String (nonce30.toList ++ body))).memRead Config.actual.freeByte 12 = _
    rw [← hl]
    exact Buffer.memRead_result _ _ _
  · intro text h
    show utf8All text ≠ ctrTransform Config.actual (callSchedule Config.actual 128 s0) (freshBlock nonce30) body
    rw [ctrTransform_twice]
    exact utf8All_ne_ff text h

theorem hiEuro_done (nb : Nat) (h : keySizeOk nb = true) : (effect Config.actual (.encrypt nb) hiEuro).st = .done := by
  have h1 : utf8Encode plainParams (txtText Config.actual hiEuro) = .ok [0x48, 0x69, 0x20, 0xE2, 0x82, 0xAC] := by rfl
  have h2 : utf8Encode plainParams (pwtText Config.actual hiEuro) = .ok [0x70, 0x77] := by rfl
  have hf : ∀ n, fits plainParams n = true := fits_of_unbounded rfl
  have hp : hiEuro.params = plainParams := rfl
  have hq : ∀ r : List Byte × State, r.2.params = plainParams →
      b64Encode r.2.params (r.2.nonce.toList ++ r.1) = .ok (b64String (r.2.nonce.toList ++ r.1)) := by
    intro r hr
    simp [b64Encode, hr, hf]
  have hr : (encryptBody Config.actual (keyBytes nb) [0x48, 0x69, 0x20, 0xE2, 0x82, 0xAC] [0x70, 0x77] hiEuro).2.params =
      plainParams := by
    rw [encryptBody, ctrRun_params]
    rfl
  simp only [effect, encryptCommand, h, hf, hp, h1, h2, hq _ hr, Bool.not_true, Bool.and_self, Bool.false_eq_true, if_false,
    finish_st]

/-- ENCRYPT of T5, then DECRYPT of the string it leaves. -/
theorem test_witness_EncryptDecryptRoundTrip :
    let t := effect Config.actual (.encrypt 128) hiEuro
    let s' := { hiEuro with b64 := t.b64, b64Len := t.b64Len }
    exec (.encrypt 128) hiEuro = .next t ∧ t.st = .done ∧
      4 * ((10 + (utf8All (txtText Config.actual hiEuro)).length) / 3) < 2 ^ 32 ∧ s'.params = hiEuro.params ∧
      b64Chars Config.actual s' = b64Chars Config.actual t ∧ pwtText Config.actual s' = pwtText Config.actual hiEuro ∧
      exec (.decrypt 128) s' = .next (effect Config.actual (.decrypt 128) s') :=
  ⟨exec_eq _ _, hiEuro_done 128 rfl, by decide, rfl, rfl, rfl, exec_eq _ _⟩

theorem test_witness_EqualStringsIffEqualNonces :
    let t := effect Config.actual (.encrypt 192) hiEuro
    exec (.encrypt 192) hiEuro = .next t ∧ t.st = .done ∧
      4 * ((10 + (utf8All (txtText Config.actual hiEuro)).length) / 3) < 2 ^ 32 :=
  ⟨exec_eq _ _, hiEuro_done 192 rfl, by decide⟩

/-- The empty plaintext (V65) for the clause about it. -/
theorem test_witness_EncryptLengths :
    ∃ t, exec (.encrypt 128) ready = .next t ∧ t.st = .done ∧ ready.txtLen = 0 ∧
      4 * ((10 + (utf8All (txtText Config.actual ready)).length) / 3) < 2 ^ 32 :=
  ⟨_, exec_eq _ _, by decide, rfl, by decide⟩

/-- Commands that end in ERROR after line 2: a surrogate in TXT, and an empty B64. -/
theorem test_witness_CompositeDiscards :
    let s := { base with txt := holds [0xD800], txtLen := 1 }
    legalKeySize 128 ∧ fits s.params s.pwtLen.toNat = true ∧ fits s.params s.txtLen.toNat = true ∧
      fits s.params s.b64Len.toNat = true ∧ exec (.encrypt 128) s = .next (effect Config.actual (.encrypt 128) s) ∧
      (effect Config.actual (.encrypt 128) s).st = .error ∧
      exec (.decrypt 128) s = .next (effect Config.actual (.decrypt 128) s) ∧
      (effect Config.actual (.decrypt 128) s).st = .error :=
  ⟨.inl rfl, rfl, rfl, rfl, exec_eq _ _, by decide, exec_eq _ _, by decide⟩

/-- V74: "ewDvvgDxUw==", the Base64 of the first seven bytes of V30's nonce. -/
def sevenBytes : State :=
  { ready with b64 := holds [0x65, 0x77, 0x44, 0x76, 0x76, 0x67, 0x44, 0x78, 0x55, 0x77, 0x3D, 0x3D] }

/-- The longest payload that is too short, and a string of eleven characters. -/
theorem test_witness_DecryptPayloadErrors :
    legalKeySize 128 ∧ fits sevenBytes.params sevenBytes.b64Len.toNat = true ∧
      fits sevenBytes.params sevenBytes.pwtLen.toNat = true ∧
      (∀ b, b64Chars Config.actual sevenBytes = b64String b → b.length < 8) ∧
      b64Chars Config.actual sevenBytes = b64String (nonce30.toList.take 7) ∧
      ∀ b, b64Chars Config.actual { ready with b64Len := 11 } ≠ b64String b := by
  refine ⟨.inl rfl, rfl, rfl, ?_, by decide, test_witness_B64DecResult.2⟩
  intro b h
  have hs : b64Chars Config.actual sevenBytes = [0x65, 0x77, 0x44, 0x76, 0x76, 0x67, 0x44, 0x78, 0x55, 0x77, 0x3D, 0x3D] := by
    decide
  rw [hs] at h
  have hl := congrArg List.length h
  rw [b64String_length] at hl
  simp only [List.length_cons, List.length_nil, b64Length] at hl
  have hc : (b64String b).getD 10 0 = b64Pad := by rw [← h]; rfl
  by_contra hlt
  match b with
  | [_, _, _, _, _, _, b6, b7] => exact b64Char_ne_pad _ (hc : b64CharAt (b64Group b6 b7 0) 6 = b64Pad)
  | [_, _, _, _, _, _, b6, b7, b8] => exact b64Char_ne_pad _ (hc : b64CharAt (b64Group b6 b7 b8) 6 = b64Pad)
  | [] | [_] | [_, _] | [_, _, _] | [_, _, _, _] | [_, _, _, _, _] | [_, _, _, _, _, _] | [_, _, _, _, _, _, _] => simp at hlt
  | _ :: _ :: _ :: _ :: _ :: _ :: _ :: _ :: _ :: _ :: t => simp at hl; omega

/-- A surrogate in TXT, and in PWT with a payload of the nonce alone. -/
theorem test_witness_CompositeInvalidScalar :
    let s := { base with txt := holds [0xD800], txtLen := 1 }
    let s' := { emptyPayload with pwt := holds [0x70, 0x110000] }
    legalKeySize 128 ∧ s.params.maxLen = none ∧ scalarText (txtText Config.actual s) = false ∧
      scalarText (pwtText Config.actual s') = false ∧ s'.params.maxLen = none ∧
      b64Chars Config.actual s' = b64String (nonce30.toList ++ []) :=
  ⟨.inl rfl, rfl, by decide, by decide, rfl, by decide⟩

/-- MAXLEN = 4 and a text of four bytes, then a surrogate or a fifth byte, in TXT and in PWT. -/
def scanStates (l : List Word) : State :=
  { State.resetWith (smallParams 4) with txt := holds l, txtLen := 3, pwt := holds l, pwtLen := 3 }

/-- MAXLEN = 12, B64 the string of V55, and a password of one element that is no scalar value. -/
def decryptScan : State :=
  { State.resetWith (smallParams 12) with b64 := holds nonceChars, b64Len := 12, pwt := holds [0x110000], pwtLen := 1 }

/-- A clause each: both errors of both scans; a payload that fits MAXLEN = 11 whose string of 12 characters does not; and a DECRYPT. -/
theorem test_witness_CompositeScanAndCapacityErrors :
    let s := scanStates [0x7F, 0x20AC, 0xD800]
    let s' := scanStates [0x7F, 0x20AC, 0x41]
    let s11 := State.resetWith (smallParams 11)
    legalKeySize 128 ∧
      (fits s.params s.pwtLen.toNat = true ∧ fits s.params s.txtLen.toNat = true ∧
        scanRaises s.params (txtText Config.actual s) .invalidScalar ∧
        scanRaises s'.params (txtText Config.actual s') .capacityExceeded) ∧
      (scanSucceeds s.params (txtText Config.actual { s with txtLen := 2 }) ∧
        scanRaises s.params (pwtText Config.actual { s with txtLen := 2 }) .invalidScalar) ∧
      (scanSucceeds s11.params (txtText Config.actual s11) ∧ scanSucceeds s11.params (pwtText Config.actual s11) ∧
        fits s11.params (8 + (utf8All (txtText Config.actual s11)).length) = true ∧
        fits s11.params (4 * ((10 + (utf8All (txtText Config.actual s11)).length) / 3)) = false) ∧
      fits decryptScan.params decryptScan.b64Len.toNat = true ∧ fits decryptScan.params decryptScan.pwtLen.toNat = true ∧
      b64Chars Config.actual decryptScan = b64String (nonce30.toList ++ []) ∧
      scanRaises decryptScan.params (pwtText Config.actual decryptScan) .invalidScalar := by
  refine ⟨.inl rfl, ⟨rfl, rfl, ?_, ?_⟩, ⟨by unfold scanSucceeds; decide, ?_⟩, by unfold scanSucceeds; decide, rfl, rfl, by decide, ?_⟩
  · exact ⟨[0x7F, 0x20AC], 0xD800, [], by decide, by unfold scanSucceeds; decide, .inl (by decide)⟩
  · exact ⟨[0x7F, 0x20AC], 0x41, [], by decide, by unfold scanSucceeds; decide, .inr (by decide)⟩
  · exact ⟨[0x7F, 0x20AC], 0xD800, [], by decide, by unfold scanSucceeds; decide, .inl (by decide)⟩
  · exact ⟨[], 0x110000, [], by decide, by unfold scanSucceeds; decide, .inl (by decide)⟩

theorem test_witness_ClrResult : runT4.fatal = false ∧ plainParams.encAvailable = true ∧ 12 ≠ 3 := by decide

/-- The step that runs RUN. -/
theorem test_witness_EveryStepKeepsInvariant : ∃ s t : State, s.Inv ∧ s.st = .busy ∧ step s = .next t :=
  have h := busyRun_inv
  ⟨{ busyRun with pending := [] }, _, ⟨h.buffers, h.noSchedule, h.idlePhase, h.busyCommand, h.errorCode, h.fatalCode, h.counts⟩,
    rfl, rfl⟩

theorem test_witness_NoStepChangesParameters : step base = .next base := rfl

end Sys2Proof.Tests
end

