-- ==== Sys2Proof/Proofs/Scope.lean ====
section
/-! The scope of the core (spec/00_scope.md): what it asks of the block-cipher primitive (R9), and the parameters that a build fixes
(R10). One relation between two states, `Follows`, says both; every command stands in it. -/

namespace Sys2Proof.Machine

/-- A call that the primitive accepts: keyExpansion takes 16, 24 or 32 bytes (R9), the others are not restricted. -/
def Event.callable : Event → Prop
  | .keyExpansion k => k.length = 16 ∨ k.length = 24 ∨ k.length = 32
  | _ => True

/-- `t` comes from `s` in the same build (R10), with callable calls only (R9). -/
structure Follows (s t : State) : Prop where
  params : t.params = s.params
  calls : ∃ es, t.events = s.events ++ es ∧ ∀ e ∈ es, e.callable

namespace Follows

variable {s t u : State}

theorem refl (s : State) : Follows s s := ⟨rfl, [], by simp, by simp⟩

theorem trans (h : Follows s t) (h' : Follows t u) : Follows s u := by
  obtain ⟨hp, es, he, hc⟩ := h
  obtain ⟨hp', es', he', hc'⟩ := h'
  refine ⟨hp'.trans hp, es ++ es', by rw [he', he, List.append_assoc], fun e hm => ?_⟩
  rcases List.mem_append.mp hm with hm | hm
  · exact hc e hm
  · exact hc' e hm

/-- An update that makes no call and keeps the parameters. -/
theorem silent (h : Follows s t) (hp : u.params = t.params) (he : u.events = t.events) : Follows s u :=
  h.trans ⟨hp, [], by simp [he], by simp⟩

/-- An update that makes one call. -/
theorem call (h : Follows s t) (hp : u.params = t.params) {e : Event} (he : u.events = t.events ++ [e]) (hc : e.callable) :
    Follows s u :=
  h.trans ⟨hp, [e], he, by simpa using hc⟩

end Follows

/-! ## The Key -/

theorem theKey_length (s : State) : (theKey s).length = min s.klen.toNat 32 := by simp [theKey]

theorem theKey_callable {s : State} (h : s.klen.toNat = 16 ∨ s.klen.toNat = 24 ∨ s.klen.toNat = 32) :
    (Event.keyExpansion (theKey s)).callable := by
  simp only [Event.callable, theKey_length]
  omega

theorem klen_of_keyLenOk {k : BitVec 8} (h : keyLenOk k = true) : k.toNat = 16 ∨ k.toNat = 24 ∨ k.toNat = 32 := by
  simp only [keyLenOk, Bool.or_eq_true, beq_iff_eq] at h
  rcases h with (rfl | rfl) | rfl <;> decide

/-! ## The parts of the commands -/

section
variable (c : Config)

theorem follows_ceCipher (s : State) : Follows s (ceCipher c s) := by
  unfold ceCipher
  split
  · exact .refl s
  · exact (Follows.refl s).call rfl rfl trivial

theorem follows_ceInc (s : State) : Follows s (ceInc c s) := by
  by_cases hp : (progressDue s (s.j + 1) && c.progressShown s.draws) = true
  · exact (Follows.refl s).call rfl (if_pos hp) trivial
  · exact (Follows.refl s).silent rfl (if_neg hp)

theorem follows_ctrLoop (k : Nat) (x : List Byte) (s : State) : Follows s (ctrLoop c k x s).2 := by
  induction k generalizing x s with
  | zero => exact .refl s
  | succ k ih =>
    have hxor : Follows s { ceCipher c s with phase := .ceXor } := (follows_ceCipher c s).silent rfl rfl
    exact (hxor.trans (follows_ceInc c _)).trans (ih _ _)

/-- A run calls keyExpansion with the Key, once, before its blocks (R163). -/
theorem follows_ctrRun (x : List Byte) {s : State} (h : (Event.keyExpansion (theKey s)).callable) :
    Follows s (ctrRun c x s).2 := by
  have hexpand : Follows s (ceExpand c { s with nblk := blockCount x.length, j := 0 }) :=
    (Follows.refl s).call rfl rfl h
  exact (hexpand.trans (follows_ctrLoop c _ x _)).silent rfl rfl

theorem follows_generate (s : State) : Follows s (generate c s) := ⟨rfl, _, generate_events c s, by simp [Event.callable]⟩

variable {nb : Nat} (hk : keySizeOk nb = true)
include hk

/-- A derivation calls keyExpansion with a buffer of nBytes (R124) and leaves a Key of that length. -/
theorem follows_deriveKey (pw : List Byte) (s : State) :
    Follows s (deriveKey c pw (keyBytes nb) s) ∧ (Event.keyExpansion (theKey (deriveKey c pw (keyBytes nb) s))).callable := by
  have hn := keyBytes_of_ok hk
  rw [deriveKey_eq c pw (keyBytes nb) s (by omega) (by omega)]
  refine ⟨⟨rfl, _, rfl, ?_⟩, theKey_callable ?_⟩
  · simpa [Event.callable] using hn
  · rcases hn with hn | hn | hn <;> simp [hn]

theorem follows_encryptBody (plain pw : List Byte) (s : State) : Follows s (encryptBody c (keyBytes nb) plain pw s).2 := by
  obtain ⟨hderive, hkey⟩ := follows_deriveKey c hk pw s
  have hload : Follows s (loadCounter (generate c (deriveKey c pw (keyBytes nb) s))) :=
    (hderive.trans (follows_generate c _)).silent rfl rfl
  exact hload.trans (follows_ctrRun c plain hkey)

theorem follows_decryptBody (body pw : List Byte) (s : State) : Follows s (decryptBody c (keyBytes nb) body pw s).2 := by
  obtain ⟨hderive, hkey⟩ := follows_deriveKey c hk pw s
  have hload : Follows s (loadCounter (deriveKey c pw (keyBytes nb) s)) := hderive.silent rfl rfl
  exact hload.trans (follows_ctrRun c body hkey)

end

/-! ## The commands -/

section
variable (c : Config) (nb : Nat) (s : State)

theorem follows_deriveCommand : Follows s (deriveCommand c nb s) := by
  unfold deriveCommand
  split
  · exact (Follows.refl s).silent rfl rfl
  · rename_i hk
    split
    · exact (Follows.refl s).silent rfl rfl
    · exact (follows_deriveKey c (by simpa using hk) _ s).1.silent rfl rfl

theorem follows_cbInitCommand : Follows s (cbInitCommand s) := by
  unfold cbInitCommand
  split <;> exact (Follows.refl s).silent rfl rfl

theorem follows_runCommand : Follows s (runCommand c s) := by
  unfold runCommand
  split
  · exact (Follows.refl s).silent rfl rfl
  · split
    · exact (Follows.refl s).silent rfl rfl
    · rename_i hk
      split
      · exact (Follows.refl s).silent rfl rfl
      · have hkey := theKey_callable (klen_of_keyLenOk (by simpa using hk))
        exact (follows_ctrRun c _ hkey).silent rfl rfl

theorem follows_utf8EncCommand : Follows s (utf8EncCommand c s) := by
  unfold utf8EncCommand
  split
  · exact (Follows.refl s).silent rfl rfl
  · split <;> exact (Follows.refl s).silent rfl rfl

theorem follows_utf8DecCommand : Follows s (utf8DecCommand c s) := by
  unfold utf8DecCommand
  split
  · exact (Follows.refl s).silent rfl rfl
  · split <;> exact (Follows.refl s).silent rfl rfl

theorem follows_b64EncCommand : Follows s (b64EncCommand c s) := by
  unfold b64EncCommand
  split <;> exact (Follows.refl s).silent rfl rfl

theorem follows_b64DecCommand : Follows s (b64DecCommand c s) := by
  unfold b64DecCommand
  split
  · exact (Follows.refl s).silent rfl rfl
  · split <;> exact (Follows.refl s).silent rfl rfl

/-- The errors before line 5 make no call; from there on the body's calls are all there are. -/
theorem follows_encryptCommand : Follows s (encryptCommand c nb s) := by
  unfold encryptCommand
  split
  · exact (Follows.refl s).silent rfl rfl
  · rename_i hk
    split
    · exact (Follows.refl s).silent rfl rfl
    · split
      · exact (Follows.refl s).silent rfl rfl
      · rename_i plain _
        split
        · exact (Follows.refl s).silent rfl rfl
        · rename_i pw _
          have hbody := follows_encryptBody c (by simpa using hk : keySizeOk nb = true) plain pw s
          dsimp only
          split <;> exact hbody.silent rfl rfl

theorem follows_decryptCommand : Follows s (decryptCommand c nb s) := by
  unfold decryptCommand
  split
  · exact (Follows.refl s).silent rfl rfl
  · rename_i hk
    split
    · exact (Follows.refl s).silent rfl rfl
    · split
      · exact (Follows.refl s).silent rfl rfl
      · rename_i payload _
        split
        · exact (Follows.refl s).silent rfl rfl
        · have hsplit : Follows s (splitNonce payload s) := (Follows.refl s).silent rfl rfl
          dsimp only
          split
          · exact hsplit.silent rfl rfl
          · rename_i pw _
            have hbody := hsplit.trans
              (follows_decryptBody c (by simpa using hk : keySizeOk nb = true) (payload.drop 8) pw (splitNonce payload s))
            split <;> exact hbody.silent rfl rfl

end

theorem follows_effect (c : Config) (i : Instr) (s : State) : Follows s (effect c i s) := by
  cases i with
  | derive nb => exact follows_deriveCommand c nb s
  | nonceGen => exact (follows_generate c s).silent rfl rfl
  | cbInit => exact follows_cbInitCommand s
  | run => exact follows_runCommand c s
  | utf8Enc => exact follows_utf8EncCommand c s
  | utf8Dec => exact follows_utf8DecCommand c s
  | b64Enc => exact follows_b64EncCommand c s
  | b64Dec => exact follows_b64DecCommand c s
  | encrypt nb => exact follows_encryptCommand c nb s
  | decrypt nb => exact follows_decryptCommand c nb s
  | clr => exact (Follows.refl s).silent rfl rfl

theorem exec_follows {i : Instr} {s t : State} (h : exec i s = .next t) : Follows s t := by
  rw [exec_next h]
  exact follows_effect Config.actual i s

/-! ## The host's accesses and the step -/

theorem writeCommand_params (w : Word) (s : State) : (writeCommand w s).params = s.params := by
  obtain ⟨_, h⟩ | ⟨_, _, _, h⟩ | ⟨_, _, _, h⟩ := writeCommand_cases w s <;> rw [h] <;> rfl

theorem writeReg_params (i : Nat) (v : Word) (s : State) : (writeReg i v s).params = s.params := by
  unfold writeReg
  split
  · exact writeCommand_params v s
  all_goals rfl

theorem access_params (c : Config) (a : HostAccess) (s : State) : (access c a s).params = s.params := by
  cases a with
  | writeReg i v => exact writeReg_params i v s
  | writeArr r i v => cases r <;> rfl
  | writeByte b i v => cases b <;> rfl
  | writeText b i v => cases b <;> rfl
  | readReg | readArr | readByte | readText => rfl

theorem runLatched_params {s t : State} (h : runLatched s = .next t) : t.params = s.params := by
  unfold runLatched at h
  split at h
  · exact (exec_follows h).params
  · cases h
    rfl

theorem step_params {s t : State} (h : step s = .next t) : t.params = s.params := by
  obtain ⟨_, hs⟩ | ⟨_, rest, _, hs⟩ | ⟨_, _, hs⟩ | ⟨_, a, rest, _, hs⟩ := step_cases s <;> rw [hs] at h
  · exact runLatched_params h
  · cases h
    rfl
  · cases h
    rfl
  · rw [(serve_next h).2]
    exact access_params _ a _

/-- Settles O24: every command follows its starting state, and `Follows` allows callable calls only. -/
theorem keyExpansionArgumentSizes : Obligations.KeyExpansionArgumentSizes := by
  intro i s t h
  obtain ⟨es, he, hc⟩ := (exec_follows h).calls
  exact ⟨es, he, fun k hk => hc (.keyExpansion k) hk⟩

/-- Settles O59, by the cases of a step. -/
theorem noStepChangesParameters : Obligations.NoStepChangesParameters := fun _ _ h => step_params h

end Sys2Proof.Machine
end

