-- ==== Sys2Proof/Proofs/CommandEnds.lean ====
section
/-! The states that commands leave (spec/10_state.md R20 to R40). `Leaves` lists them once; that every command ends, what a
command does not write, and what an invariant needs of a command are each read off that list. -/

namespace Sys2Proof.Machine

/-! ## What a derivation and a run keep -/

section
variable (c : Config) (pw : List Byte) (n : Nat) (s : State)
@[simp] theorem deriveKey_cb : (deriveKey c pw n s).cb = s.cb := rfl
@[simp] theorem deriveKey_nonce : (deriveKey c pw n s).nonce = s.nonce := rfl
@[simp] theorem deriveKey_nv : (deriveKey c pw n s).nv = s.nv := rfl
@[simp] theorem deriveKey_cbv : (deriveKey c pw n s).cbv = s.cbv := rfl
@[simp] theorem deriveKey_ks : (deriveKey c pw n s).ks = none := rfl
@[simp] theorem deriveKey_j : (deriveKey c pw n s).j = s.j := rfl
@[simp] theorem deriveKey_nblk : (deriveKey c pw n s).nblk = s.nblk := rfl
@[simp] theorem deriveKey_dbuf : (deriveKey c pw n s).dbuf = zeros 32 := rfl
@[simp] theorem deriveKey_opc : (deriveKey c pw n s).opc = s.opc := rfl
@[simp] theorem deriveKey_nbits : (deriveKey c pw n s).nbits = s.nbits := rfl
@[simp] theorem deriveKey_fatal : (deriveKey c pw n s).fatal = s.fatal := rfl
@[simp] theorem deriveKey_obsEn : (deriveKey c pw n s).obsEn = s.obsEn := rfl
@[simp] theorem deriveKey_pwLen : (deriveKey c pw n s).pwLen = s.pwLen := rfl
@[simp] theorem deriveKey_pwtLen : (deriveKey c pw n s).pwtLen = s.pwtLen := rfl
@[simp] theorem deriveKey_txtLen : (deriveKey c pw n s).txtLen = s.txtLen := rfl
@[simp] theorem deriveKey_inLen : (deriveKey c pw n s).inLen = s.inLen := rfl
@[simp] theorem deriveKey_outLen : (deriveKey c pw n s).outLen = s.outLen := rfl
@[simp] theorem deriveKey_b64Len : (deriveKey c pw n s).b64Len = s.b64Len := rfl
@[simp] theorem deriveKey_pw : (deriveKey c pw n s).pw = s.pw := rfl
@[simp] theorem deriveKey_pwt : (deriveKey c pw n s).pwt = s.pwt := rfl
@[simp] theorem deriveKey_txt : (deriveKey c pw n s).txt = s.txt := rfl
@[simp] theorem deriveKey_inp : (deriveKey c pw n s).inp = s.inp := rfl
@[simp] theorem deriveKey_out : (deriveKey c pw n s).out = s.out := rfl
@[simp] theorem deriveKey_b64 : (deriveKey c pw n s).b64 = s.b64 := rfl
@[simp] theorem deriveKey_params : (deriveKey c pw n s).params = s.params := rfl
@[simp] theorem deriveKey_pending : (deriveKey c pw n s).pending = s.pending := rfl
@[simp] theorem deriveKey_replies : (deriveKey c pw n s).replies = s.replies := rfl
end

@[simp] theorem setByteAt_toList {n : Nat} (v : Vector Byte n) (i : Nat) (x : Byte) :
    (setByteAt v i x).toList = v.toList.set i x :=
  packBytes_toList_of_length n _ (by simp)

theorem nonceRegion_setByteAt (cb : Block) {i : Nat} (x : Byte) (hi : 8 ≤ i) :
    nonceRegion (setByteAt cb i x) = nonceRegion cb := by
  rw [nonceRegion, setByteAt_toList, List.take_set_of_le hi, nonceRegion]

/-- The increment stays in `CB[8,16)`: it ends at byte 8 at the latest, and drops the carry out of it (R166). -/
theorem nonceRegion_ctrIncFrom (k : Nat) (cb : Block) : nonceRegion (ctrIncFrom k cb) = nonceRegion cb := by
  induction k generalizing cb with
  | zero => exact nonceRegion_setByteAt cb _ (by omega)
  | succ k ih =>
    have hbyte (x : Byte) : nonceRegion (setByteAt cb (9 + k) x) = nonceRegion cb := nonceRegion_setByteAt cb x (by omega)
    simp only [ctrIncFrom]
    split
    · rw [ih, hbyte]
    · exact hbyte _

theorem nonceRegion_ceInc (c : Config) (s : State) : nonceRegion (ceInc c s).cb = nonceRegion s.cb :=
  nonceRegion_ctrIncFrom 7 s.cb

theorem ceCipher_cb (c : Config) (s : State) : (ceCipher c s).cb = s.cb := by
  unfold ceCipher
  split <;> rfl

theorem nonceRegion_ctrLoop (c : Config) (k : Nat) (x : List Byte) (s : State) :
    nonceRegion (ctrLoop c k x s).2.cb = nonceRegion s.cb := by
  induction k generalizing x s with
  | zero => rfl
  | succ k ih =>
    simp only [ctrLoop]
    rw [ih, nonceRegion_ceInc, ceCipher_cb]

@[simp] theorem nonceRegion_ctrRun (c : Config) (x : List Byte) (s : State) :
    nonceRegion (ctrRun c x s).2.cb = nonceRegion s.cb :=
  nonceRegion_ctrLoop c _ x _

/-- After a run J and NBLK are free values of 64 bits (R28). -/
theorem ctrRun_counts_lt (c : Config) (x : List Byte) (s : State) :
    (ctrRun c x s).2.j < 2 ^ 64 ∧ (ctrRun c x s).2.nblk < 2 ^ 64 :=
  ⟨BitVec.isLt _, BitVec.isLt _⟩

/-! ## The list -/

/-- The codes that a running command can raise (R260): the others are no error, or raised before a command starts. -/
def ErrCode.ofCommand : ErrCode → Bool
  | .noError | .encodingUnavailable | .illegalCommand => false
  | _ => true

theorem ErrCode.ofCommand_iff (e : ErrCode) :
    e.ofCommand = true ↔ e ≠ .noError ∧ e ≠ .encodingUnavailable ∧ e ≠ .illegalCommand := by
  cases e <;> simp [ErrCode.ofCommand]

/-- The states that a command can leave when it starts in `s`: after its work, after an error, after CLR. The conditions under
which it leaves each are not part of the list. -/
inductive Leaves (c : Config) (s : State) : Instr → State → Prop where
  | derive (nb : Nat) (pw : List Byte) : Leaves c s (.derive nb) (finish (deriveKey c pw (keyBytes nb) s))
  | nonceGen : Leaves c s .nonceGen (finish (generate c s))
  | cbInit : Leaves c s .cbInit (finish (loadCounter s))
  | run (x : List Byte) : Leaves c s .run (finish (putOut c (ctrRun c x s).1 (ctrRun c x s).2))
  | utf8Enc (bs : List Byte) : Leaves c s .utf8Enc (finish (putOut c bs s))
  | utf8Dec (text : List Word) : Leaves c s .utf8Dec (finish (putTxt c text s))
  | b64Enc (cs : List Byte) : Leaves c s .b64Enc (finish (putB64 c cs s))
  | b64Dec (bs : List Byte) : Leaves c s .b64Dec (finish (putOut c bs s))
  | encrypt (nb : Nat) (plain pw str : List Byte) :
      Leaves c s (.encrypt nb) (finish (discard (putB64 c str (encryptBody c (keyBytes nb) plain pw s).2)))
  | decrypt (nb : Nat) (payload pw : List Byte) (text : List Word) :
      Leaves c s (.decrypt nb)
        (finish (discard (putTxt c text (decryptBody c (keyBytes nb) (payload.drop 8) pw (splitNonce payload s)).2)))
  | clr : Leaves c s .clr (clrCommand s)
  /-- An error before any write (R270 a). -/
  | untouched {i : Instr} {e : ErrCode} (he : e.ofCommand = true) (hi : i ≠ .clr := by simp) : Leaves c s i (raise e s)
  /-- An error inside a scan (R270 b). -/
  | utf8EncScan {e : ErrCode} (he : e.ofCommand = true) : Leaves c s .utf8Enc (raise e (voidOut s))
  | utf8DecScan {e : ErrCode} (he : e.ofCommand = true) : Leaves c s .utf8Dec (raise e (voidTxt s))
  /-- An error of a composite command after its line 2 (R270 c). -/
  | encryptScan (nb : Nat) {e : ErrCode} (he : e.ofCommand = true) : Leaves c s (.encrypt nb) (encryptFail e s)
  | encryptResult (nb : Nat) (plain pw : List Byte) {e : ErrCode} (he : e.ofCommand = true) :
      Leaves c s (.encrypt nb) (encryptFail e (encryptBody c (keyBytes nb) plain pw s).2)
  | decryptPayload (nb : Nat) {e : ErrCode} (he : e.ofCommand = true) : Leaves c s (.decrypt nb) (decryptFail e s)
  | decryptScan (nb : Nat) (payload : List Byte) {e : ErrCode} (he : e.ofCommand = true) :
      Leaves c s (.decrypt nb) (decryptFail e (splitNonce payload s))
  | decryptResult (nb : Nat) (payload pw : List Byte) {e : ErrCode} (he : e.ofCommand = true) :
      Leaves c s (.decrypt nb)
        (decryptFail e (decryptBody c (keyBytes nb) (payload.drop 8) pw (splitNonce payload s)).2)

/-! ## Every command is on the list -/

theorem ofCommand_of_utf8Encode {p : Params} {text : List Word} {e : ErrCode} (h : utf8Encode p text = .error e) :
    e.ofCommand = true := by
  rcases utf8Scan_error h with rfl | rfl <;> rfl

theorem ofCommand_of_utf8Decode {c : Config} {p : Params} {b : List Byte} {e : ErrCode} (h : utf8Decode c p b = .error e) :
    e.ofCommand = true := by
  rcases utf8Decode_error h with rfl | rfl <;> rfl

theorem ofCommand_of_b64Encode {p : Params} {b : List Byte} {e : ErrCode} (h : b64Encode p b = .error e) :
    e.ofCommand = true := by
  rw [b64Encode_error h]
  rfl

theorem ofCommand_of_b64Decode {b : List Byte} {e : ErrCode} (h : b64Decode b = .error e) : e.ofCommand = true := by
  rw [b64Decode_error h]
  rfl

section
variable (c : Config) (nb : Nat) (s : State)

theorem deriveCommand_leaves : Leaves c s (.derive nb) (deriveCommand c nb s) := by
  unfold deriveCommand
  split
  · exact .untouched rfl
  · split
    · exact .untouched rfl
    · exact .derive nb _

theorem cbInitCommand_leaves : Leaves c s .cbInit (cbInitCommand s) := by
  unfold cbInitCommand
  split
  · exact .untouched rfl
  · exact .cbInit

theorem runCommand_leaves : Leaves c s .run (runCommand c s) := by
  unfold runCommand
  split
  · exact .untouched rfl
  · split
    · exact .untouched rfl
    · split
      · exact .untouched rfl
      · exact .run _

theorem utf8EncCommand_leaves : Leaves c s .utf8Enc (utf8EncCommand c s) := by
  unfold utf8EncCommand
  split
  · exact .untouched rfl
  · split
    · exact .utf8EncScan (ofCommand_of_utf8Encode ‹_›)
    · exact .utf8Enc _

theorem utf8DecCommand_leaves : Leaves c s .utf8Dec (utf8DecCommand c s) := by
  unfold utf8DecCommand
  split
  · exact .untouched rfl
  · split
    · exact .utf8DecScan (ofCommand_of_utf8Decode ‹_›)
    · exact .utf8Dec _

theorem b64EncCommand_leaves : Leaves c s .b64Enc (b64EncCommand c s) := by
  unfold b64EncCommand
  split
  · exact .untouched rfl
  · exact .b64Enc _

theorem b64DecCommand_leaves : Leaves c s .b64Dec (b64DecCommand c s) := by
  unfold b64DecCommand
  split
  · exact .untouched rfl
  · split
    · exact .untouched (ofCommand_of_b64Decode ‹_›)
    · exact .b64Dec _

theorem encryptCommand_leaves : Leaves c s (.encrypt nb) (encryptCommand c nb s) := by
  unfold encryptCommand
  split
  · exact .untouched rfl
  · split
    · exact .untouched rfl
    · split
      · exact .encryptScan nb (ofCommand_of_utf8Encode ‹_›)
      · split
        · exact .encryptScan nb (ofCommand_of_utf8Encode ‹_›)
        · dsimp only
          split
          · exact .encryptResult nb _ _ (ofCommand_of_b64Encode ‹_›)
          · exact .encrypt nb _ _ _

theorem decryptCommand_leaves : Leaves c s (.decrypt nb) (decryptCommand c nb s) := by
  unfold decryptCommand
  split
  · exact .untouched rfl
  · split
    · exact .untouched rfl
    · split
      · exact .decryptPayload nb (ofCommand_of_b64Decode ‹_›)
      · split
        · exact .decryptPayload nb rfl
        · dsimp only
          split
          · exact .decryptScan nb _ (ofCommand_of_utf8Encode ‹_›)
          · split
            · exact .decryptResult nb _ _ (ofCommand_of_utf8Decode ‹_›)
            · exact .decrypt nb _ _ _

end

theorem effect_leaves (c : Config) (i : Instr) (s : State) : Leaves c s i (effect c i s) := by
  cases i with
  | derive nb => exact deriveCommand_leaves c nb s
  | nonceGen => exact .nonceGen
  | cbInit => exact cbInitCommand_leaves c s
  | run => exact runCommand_leaves c s
  | utf8Enc => exact utf8EncCommand_leaves c s
  | utf8Dec => exact utf8DecCommand_leaves c s
  | b64Enc => exact b64EncCommand_leaves c s
  | b64Dec => exact b64DecCommand_leaves c s
  | encrypt nb => exact encryptCommand_leaves c nb s
  | decrypt nb => exact decryptCommand_leaves c nb s
  | clr => exact .clr

theorem exec_leaves {i : Instr} {s t : State} (h : exec i s = .next t) : Leaves Config.actual s i t := by
  rw [exec_next h]
  exact effect_leaves Config.actual i s

/-! ## What holds of every state on the list -/

namespace Leaves

variable {c : Config} {s t : State} {i : Instr} (h : Leaves c s i t)
include h

/-- The three ends of a command: CLR, the end without error, the error entry. -/
theorem ends : (i = .clr ∧ t = clrCommand s) ∨ (i ≠ .clr ∧ ∃ u, t = finish u) ∨
    (i ≠ .clr ∧ ∃ e u, e.ofCommand = true ∧ t = raise e u) := by
  cases h with
  | clr => exact .inl ⟨rfl, rfl⟩
  | untouched he hi => exact .inr (.inr ⟨hi, _, _, he, rfl⟩)
  | utf8EncScan he | utf8DecScan he | encryptScan _ he | encryptResult _ _ _ he | decryptPayload _ he | decryptScan _ _ he
  | decryptResult _ _ _ he => exact .inr (.inr ⟨by simp, _, _, he, rfl⟩)
  | _ => exact .inr (.inl ⟨by simp, _, rfl⟩)

/-- No command writes CTL, FATAL, the latched word or the host's accesses. -/
theorem host_frame : t.opc = s.opc ∧ t.nbits = s.nbits ∧ t.fatal = s.fatal ∧ t.obsEn = s.obsEn ∧ t.pending = s.pending ∧
    t.replies = s.replies := by
  cases h with
  | run => simp
  | encrypt | encryptResult => simp [encryptBody, encryptFail]
  | decrypt | decryptResult => simp [decryptBody, decryptFail]
  | _ => exact ⟨rfl, rfl, rfl, rfl, rfl, rfl⟩

theorem key_frame (hi : writesKey i = false) : t.key = s.key ∧ t.klen = s.klen := by
  cases h with
  | derive | encrypt | encryptScan | encryptResult | decrypt | decryptPayload | decryptScan | decryptResult | clr => cases hi
  | run => simp
  | _ => exact ⟨rfl, rfl⟩

theorem dbuf_frame (hi : writesKey i = false) : t.dbuf = s.dbuf := by
  cases h with
  | derive | encrypt | encryptScan | encryptResult | decrypt | decryptPayload | decryptScan | decryptResult | clr => cases hi
  | run => simp
  | _ => rfl

theorem nonce_frame (hi : writesNonce i = false) : t.nonce = s.nonce ∧ t.nv = s.nv := by
  cases h with
  | nonceGen | encrypt | encryptScan | encryptResult | decrypt | decryptPayload | decryptScan | decryptResult | clr => cases hi
  | run => simp
  | _ => exact ⟨rfl, rfl⟩

/-- RUN writes CB, but neither its nonce region nor CBV (R146). -/
theorem nonceRegion_frame (hi : writesCb i = false) : nonceRegion t.cb = nonceRegion s.cb ∧ t.cbv = s.cbv := by
  cases h with
  | cbInit | encrypt | encryptScan | encryptResult | decrypt | decryptPayload | decryptScan | decryptResult | clr => cases hi
  | run => simp
  | _ => exact ⟨rfl, rfl⟩

theorem cb_frame (hi : writesCb i = false) (hr : i ≠ .run) : t.cb = s.cb := by
  cases h with
  | cbInit | encrypt | encryptScan | encryptResult | decrypt | decryptPayload | decryptScan | decryptResult | clr => cases hi
  | run => exact absurd rfl hr
  | _ => rfl

theorem scratch_frame (hi : writesScratch i = false) :
    t.pw = s.pw ∧ t.pwLen = s.pwLen ∧ t.inp = s.inp ∧ t.inLen = s.inLen := by
  cases h with
  | encrypt | encryptScan | encryptResult | decrypt | decryptPayload | decryptScan | decryptResult | clr => cases hi
  | run => simp
  | _ => exact ⟨rfl, rfl, rfl, rfl⟩

theorem out_frame (hi : writesOut i = false) : t.out = s.out ∧ t.outLen = s.outLen := by
  cases h with
  | run | utf8Enc | utf8EncScan | b64Dec => cases hi
  | encrypt | encryptScan | encryptResult | decrypt | decryptPayload | decryptScan | decryptResult | clr => cases hi
  | _ => exact ⟨rfl, rfl⟩

theorem txt_frame (hi : writesTxt i = false) : t.txt = s.txt ∧ t.txtLen = s.txtLen := by
  cases h with
  | utf8Dec | utf8DecScan | decrypt | decryptPayload | decryptScan | decryptResult | clr => cases hi
  | run => simp
  | encrypt | encryptResult => simp [encryptBody, encryptFail]
  | _ => exact ⟨rfl, rfl⟩

theorem b64_frame (hi : writesB64 i = false) : t.b64 = s.b64 ∧ t.b64Len = s.b64Len := by
  cases h with
  | b64Enc | encrypt | encryptScan | encryptResult | clr => cases hi
  | run => simp
  | decrypt | decryptResult => simp [decryptBody, decryptFail]
  | _ => exact ⟨rfl, rfl⟩

theorem pwt_frame (hi : i ≠ .clr) : t.pwt = s.pwt ∧ t.pwtLen = s.pwtLen := by
  cases h with
  | clr => exact absurd rfl hi
  | run => simp
  | encrypt | encryptResult => simp [encryptBody, encryptFail]
  | decrypt | decryptResult => simp [decryptBody, decryptFail]
  | _ => exact ⟨rfl, rfl⟩

/-- A command that calls the primitive drops its schedule, as CLR and the error entry do (R26, R250, R270). -/
theorem ks_eq : t.ks = if usesPrimitive i || i == .clr || t.st == .error then none else s.ks := by
  cases h with
  | run => simp [usesPrimitive]
  | untouched => simp
  | _ => rfl

theorem o_frame (hi : usesPrimitive i = false) : t.o = s.o := by
  cases h with
  | derive | run | encrypt | encryptScan | encryptResult | decrypt | decryptPayload | decryptScan | decryptResult => cases hi
  | _ => rfl

theorem events_frame (hi : usesPrimitive i = false) (hn : i ≠ .nonceGen) : t.events = s.events := by
  cases h with
  | derive | run | encrypt | encryptScan | encryptResult | decrypt | decryptPayload | decryptScan | decryptResult => cases hi
  | nonceGen => exact absurd rfl hn
  | _ => rfl

theorem counts_frame (hi : writesCounts i = false) : t.j = s.j ∧ t.nblk = s.nblk := by
  cases h with
  | run | encrypt | encryptScan | encryptResult | decrypt | decryptPayload | decryptScan | decryptResult | clr => cases hi
  | _ => exact ⟨rfl, rfl⟩

theorem buffersWf (hb : s.buffersWf = true) : t.buffersWf = true := by
  simp only [State.buffersWf, Bool.and_eq_true] at hb ⊢
  cases h with
  | encrypt | encryptScan | encryptResult => simp [encryptBody, encryptFail, hb]
  | decrypt | decryptPayload | decryptScan | decryptResult => simp [decryptBody, decryptFail, hb]
  | clr => simp [clrCommand]
  | _ => simp [hb]

theorem counts_lt (hc : s.j < 2 ^ 64 ∧ s.nblk < 2 ^ 64) : t.j < 2 ^ 64 ∧ t.nblk < 2 ^ 64 := by
  cases h with
  | run | encrypt | decrypt | encryptResult | decryptResult => exact ctrRun_counts_lt c _ _
  | clr => exact ⟨Nat.two_pow_pos 64, Nat.two_pow_pos 64⟩
  | _ => exact hc

end Leaves

/-! ## The obligations on commands -/

/-- Settles O20: CLR, the end without error and the error entry each set ST, ERR and PHASE. -/
theorem everyCommandEnds : Obligations.EveryCommandEnds := by
  intro i s
  refine ⟨_, exec_eq i s, ?_⟩
  obtain ⟨hi, ht⟩ | ⟨hi, u, ht⟩ | ⟨hi, e, u, he, ht⟩ := (effect_leaves Config.actual i s).ends <;> rw [ht]
  · simp [clrCommand, hi]
  · simp [hi]
  · obtain ⟨hno, henc, hill⟩ := e.ofCommand_iff.mp he
    simp [hi, hno, henc, hill]

/-- Settles O21, from what every state on the list keeps and the trace of `Follows`. -/
theorem commandWritesOnlyItsState : Obligations.CommandWritesOnlyItsState := by
  intro i s t ht
  have h := exec_leaves ht
  obtain ⟨hparams, es, hevents, -⟩ := exec_follows ht
  obtain ⟨hopc, hnbits, hfatal, hobs, hpending, hreplies⟩ := h.host_frame
  exact ⟨hopc, hnbits, hfatal, hobs, hparams, hpending, hreplies, h.key_frame, h.nonce_frame, h.nonceRegion_frame, h.cb_frame,
    h.scratch_frame, h.out_frame, h.txt_frame, h.b64_frame, h.pwt_frame, h.ks_eq, h.o_frame, h.counts_frame, h.dbuf_frame,
    h.events_frame, es, hevents⟩

end Sys2Proof.Machine
end

