-- ==== Sys2Proof/Proofs/HostState.lean ====
section
/-! The state between commands (spec/10_state.md R31 to R45): reset, the acceptance of a command word, the host's reads and
register writes, and the invariant that every step keeps. -/

namespace Sys2Proof.Machine

/-! ## Accepting and running a command -/

/-- A word that decodes has RSV 0 (R95). -/
theorem fieldRsv_of_decode {w : Word} {i : Instr} (h : decode w = .ok i) : fieldRsv w = 0 := by
  unfold decode at h
  split at h
  · assumption
  · cases h

/-- What is latched is the word that was written, RSV included (R31, R90). -/
theorem latchedCommand_acceptCommand {w : Word} {i : Instr} (h : decode w = .ok i) (s : State) :
    latchedCommand (acceptCommand i w s) = .ok i := by
  rw [latchedCommand, latchedWord, acceptCommand_opc, acceptCommand_nbits, word_of_fields w (fieldRsv_of_decode h), h]

theorem writeCommand_legal {w : Word} {i : Instr} {s : State} (hf : s.fatal = false) (h : decode w = .ok i) :
    writeCommand w s = acceptCommand i w s := by
  simp [writeCommand, hf, h]

theorem decode_of_decodeTableWord {nbits w : Nat} {i : Instr} (h : decodeTableWord nbits w = some i) :
    decode (tableWord nbits w) = .ok i := by
  unfold decodeTableWord at h
  split at h
  · rename_i hd
    cases h
    exact hd
  · cases h

/-- A step completes the oldest access when its element exists. -/
theorem step_served {s : State} {a : HostAccess} {rest : List HostAccess} (hb : s.st ≠ .busy) (hp : s.pending = a :: rest)
    (he : accessExists s.params a = true) : step s = .next (access Config.actual a { s with pending := rest }) := by
  rw [step_access hb hp, serve, if_pos he]

/-- Settles O6. -/
theorem busyStepRunsCommand : Obligations.BusyStepRunsCommand := fun _ _ => step_busy

/-- Settles O7: the word is accepted, and no STATUS read is left to come first. -/
theorem placedWordRunsNext : Obligations.PlacedWordRunsNext := by
  intro s nbits w i h
  have hd := decode_of_decodeTableWord h
  rw [State.withFetchWord, writeCommand_legal rfl hd]
  refine step_busy rfl (latchedCommand_acceptCommand hd _) fun a ha => ?_
  simpa using (List.mem_filter.mp ha).2

/-- Settles O5. -/
theorem legalWordStartsCommand : Obligations.LegalWordStartsCommand := by
  intro s w i rest hb hf hp hd
  refine ⟨s.draws + 1, ?_⟩
  rw [step_served hb hp rfl]
  exact congrArg Host.Outcome.next (writeCommand_legal hf hd)

/-! ## The host's reads and register writes -/

/-- The value that a read of the host returns (R37, R60); a write returns none. -/
def readValue (c : Config) (s : State) : HostAccess → Word
  | .readReg i => readReg s i
  | .readArr r i => (readArr s r i).setWidth 32
  | .readByte b i => ((byteBuf s b).get c.freeByte i).setWidth 32
  | .readText b i => (textBuf s b).get c.freeText i
  | _ => 0

theorem access_of_isRead (c : Config) {a : HostAccess} (s : State) (h : isRead a = true) :
    access c a s = reply a (readValue c s a) s := by
  cases a with
  | readReg | readArr | readByte | readText => rfl
  | writeReg | writeArr | writeByte | writeText => cases h

theorem setWidth_byte_toNat (b : Byte) : (b.setWidth 32 : Word).toNat = b.toNat := by
  simp only [BitVec.toNat_setWidth]
  omega

/-- Settles O11. -/
theorem hostReadHasNoSideEffect : Obligations.HostReadHasNoSideEffect := by
  intro s a rest hb hp hr he
  refine ⟨readValue Config.actual { s with pending := rest } a, ?_, ?_⟩
  · rw [step_served hb hp he, access_of_isRead _ _ hr]
    rfl
  · cases a with
    | readReg i => rfl
    | readArr r i => cases r <;> exact setWidth_byte_toNat _
    | readByte b i => cases b <;> exact setWidth_byte_toNat _
    | readText b i => cases b <;> rfl
    | writeReg | writeArr | writeByte | writeText => cases hr

theorem readReg_outside (s : State) {i : Nat} (h : i = 0 ∨ 12 ≤ i) : readReg s i = 0 := by
  unfold readReg
  split
  case h_12 => rfl
  all_goals omega

theorem statusWord_toNat (s : State) : (statusWord s).toNat =
    (match s.st with | .idle => 0 | .busy => 1 | .done => 2 | .error => 3) + (if s.fatal then 4 else 0) := by
  unfold statusWord
  cases s.st <;> cases s.fatal <;> rfl

theorem errWord_toNat (s : State) : (errWord s).toNat =
    (match s.err with
      | .noError => 0 | .invalidKeySize => 1 | .encodingUnavailable => 2 | .malformedUtf8 => 3 | .malformedBase64 => 4
      | .malformedPayload => 5 | .illegalCommand => 6 | .operandNotReady => 7 | .capacityExceeded => 8 | .invalidScalar => 9) := by
  unfold errWord
  cases s.err <;> rfl

theorem ctlWord_toNat (s : State) : (ctlWord s).toNat = if s.obsEn then 1 else 0 := by
  unfold ctlWord
  cases s.obsEn <;> rfl

theorem validWord_toNat (s : State) : (validWord s).toNat = (if s.nv then 1 else 0) + (if s.cbv then 2 else 0) := by
  unfold validWord
  cases s.nv <;> cases s.cbv <;> rfl

/-- Settles O12. -/
theorem hostRegisterReadValues : Obligations.HostRegisterReadValues := by
  intro s i rest hb hp
  refine ⟨readReg s i, by rw [step_served hb hp rfl]; rfl, readReg_outside s, ?_, ?_, ?_, ?_, ?_, ?_, ?_, ?_, ?_, ?_, ?_⟩
    <;> rintro rfl
  · exact statusWord_toNat s
  · exact errWord_toNat s
  · exact ctlWord_toNat s
  · exact validWord_toNat s
  · exact setWidth_byte_toNat s.klen
  all_goals rfl

theorem writeReg_ignored (v : Word) (s : State) {i : Nat} (h : i = 1 ∨ i = 2 ∨ 12 ≤ i) : writeReg i v s = s := by
  unfold writeReg
  split
  case h_11 => rfl
  all_goals omega

/-- Settles O13: a register write is `writeReg`, whose row for the index is the stated change. -/
theorem hostRegisterWriteEffects : Obligations.HostRegisterWriteEffects := by
  intro s i v rest hb hp
  have hstep : step s = .next (writeReg i v { s with pending := rest }) := step_served hb hp rfl
  rw [hstep]
  refine ⟨fun h => by rw [writeReg_ignored v _ h], ?_, ?_, ?_, ?_, ?_, ?_, ?_, ?_, ?_⟩ <;> rintro rfl
  · rfl
  · rfl
  · rw [← BitVec.setWidth_eq_extractLsb' (by omega)]
    rfl
  all_goals rfl

/-! ## Reset -/

/-- Settles O15: `State.resetWith` is the table. -/
theorem resetValues : Obligations.ResetValues :=
  ⟨rfl, fun _ => ⟨rfl, rfl, rfl, rfl, rfl, rfl, rfl, rfl, rfl, rfl, rfl, rfl, rfl, rfl, rfl, rfl, rfl, rfl, rfl, rfl, rfl, rfl,
    rfl, rfl, rfl, rfl⟩⟩

/-! ## The invariant -/

theorem resetWith_not_busy (p : Params) : (State.resetWith p).st ≠ .busy := by
  unfold State.resetWith
  cases p.encAvailable <;> simp

theorem resetWith_inv (p : Params) : (State.resetWith p).Inv where
  buffers := rfl
  noSchedule := rfl
  idlePhase _ := rfl
  busyCommand h := absurd h (resetWith_not_busy p)
  errorCode _ := by unfold State.resetWith; cases p.encAvailable <;> simp
  fatalCode := ⟨rfl, by unfold State.resetWith; cases p.encAvailable <;> simp⟩
  counts := ⟨Nat.two_pow_pos 64, Nat.two_pow_pos 64⟩

/-- Settles O57, for whichever parameters the core has. -/
theorem invariantHoldsAtReset : Obligations.InvariantHoldsAtReset := resetWith_inv Config.actual.params

namespace State.Inv

variable {s t : State}

/-- The invariant speaks of no other state than this and the buffers. -/
theorem of_agree (h : s.Inv) (hbuf : t.buffersWf = true)
    (ha : t = { t with
      ks := s.ks, st := s.st, phase := s.phase, fatal := s.fatal, opc := s.opc, nbits := s.nbits, err := s.err
      params := s.params, j := s.j, nblk := s.nblk }) : t.Inv := by
  rw [ha] at hbuf ⊢
  exact ⟨hbuf, h.noSchedule, h.idlePhase, h.busyCommand, h.errorCode, h.fatalCode, h.counts⟩

/-- A command that ends keeps the invariant: it runs on a core that is not fatal and raises no code of the fatal state. -/
theorem of_exec {i : Instr} (h : s.Inv) (hf : s.fatal = false) (ht : exec i s = .next t) : t.Inv := by
  have hl := exec_leaves ht
  obtain ⟨-, -, hfatal, -⟩ := hl.host_frame
  have hparams := (exec_follows ht).params
  obtain ⟨t', ht', hbusy, hphase, herr, -, henc, -⟩ := everyCommandEnds i s
  cases ht.symm.trans ht'
  have hnf : t.fatal = false := hfatal.trans hf
  exact
    { buffers := hl.buffersWf h.buffers
      noSchedule := by rw [hl.ks_eq, h.noSchedule, ite_self]
      idlePhase := fun _ => hphase
      busyCommand := fun hb => absurd hb hbusy
      errorCode := fun _ => herr
      fatalCode := ⟨by rw [hfatal, hparams, h.fatalCode.1], by simp [hnf, henc]⟩
      counts := hl.counts_lt h.counts }

theorem of_raise_illegalCommand (h : s.Inv) (hf : s.fatal = false) : (raise .illegalCommand s).Inv where
  buffers := h.buffers
  noSchedule := rfl
  idlePhase _ := rfl
  busyCommand hb := by cases hb
  errorCode _ := by simp
  fatalCode := ⟨h.fatalCode.1, by simp [hf]⟩
  counts := h.counts

theorem of_acceptCommand {w : Word} {i : Instr} (h : s.Inv) (hf : s.fatal = false) (hd : decode w = .ok i) :
    (acceptCommand i w s).Inv where
  buffers := h.buffers
  noSchedule := h.noSchedule
  idlePhase hb := absurd rfl hb
  busyCommand _ := ⟨hf, i, latchedCommand_acceptCommand hd s, rfl⟩
  errorCode hb := absurd rfl hb
  fatalCode := h.fatalCode
  counts := h.counts

theorem of_writeCommand (h : s.Inv) (w : Word) : (writeCommand w s).Inv := by
  obtain ⟨_, hw⟩ | ⟨hf, i, hd, hw⟩ | ⟨hf, _, _, hw⟩ := writeCommand_cases w s <;> rw [hw]
  · exact h
  · exact h.of_acceptCommand hf hd
  · exact h.of_raise_illegalCommand hf

theorem of_writeReg (h : s.Inv) (i : Nat) (v : Word) : (writeReg i v s).Inv := by
  unfold writeReg
  split
  · exact h.of_writeCommand v
  all_goals exact h.of_agree h.buffers rfl

theorem of_access (h : s.Inv) (c : Config) (a : HostAccess) : (access c a s).Inv := by
  cases a with
  | writeReg i v => exact h.of_writeReg i v
  | writeArr r i v => cases r <;> exact h.of_agree h.buffers rfl
  | writeByte b i v => exact h.of_agree (writeByteBuf_buffersWf b i v h.buffers) (by cases b <;> rfl)
  | writeText b i v => exact h.of_agree (writeTextBuf_buffersWf b i v h.buffers) (by cases b <;> rfl)
  | readReg | readArr | readByte | readText => exact h.of_agree h.buffers rfl

theorem of_runLatched (h : s.Inv) (hb : s.st = .busy) (ht : runLatched s = .next t) : t.Inv := by
  obtain ⟨hf, i, hi, -⟩ := h.busyCommand hb
  rw [runLatched, hi] at ht
  exact h.of_exec hf ht

end State.Inv

/-- Settles O58, by the cases of a step. -/
theorem everyStepKeepsInvariant : Obligations.EveryStepKeepsInvariant := by
  intro s t h ht
  obtain ⟨hb, hs⟩ | ⟨_, rest, _, hs⟩ | ⟨_, _, hs⟩ | ⟨_, a, rest, _, hs⟩ := step_cases s <;> rw [hs] at ht
  · exact h.of_runLatched hb ht
  · cases ht
    exact h.of_agree h.buffers rfl
  · cases ht
    exact h
  · have hwait : State.Inv { s with pending := rest } := h.of_agree h.buffers rfl
    rw [(serve_next ht).2]
    exact hwait.of_access _ a

end Sys2Proof.Machine
end

