-- ==== Sys2Proof/Proofs/Memory.lean ====
section
/-! The address spaces of the core (spec/20_memory.md R60 to R79): which accesses a step holds or completes, what a write of one
element changes, the capacity of an operand, and the two byte orders, big-endian in the counter (R62) and most significant bit
first in Base64 (R65). -/

namespace Sys2Proof.Machine

/-! ## Steps and the host's accesses -/

/-- A running command stops with neither a fault nor a refusal. -/
theorem runLatched_next (s : State) : ∃ t, runLatched s = .next t := by
  unfold runLatched
  split
  · exact ⟨_, exec_eq _ s⟩
  · exact ⟨_, rfl⟩

/-- Settles O10, by the cases of a step: only `serve` can fault, and only when the element is missing. -/
theorem stepStopsOnlyAtMissingElement : Obligations.StepStopsOnlyAtMissingElement := by
  intro s
  obtain ⟨_, hs⟩ | ⟨_, rest, _, hs⟩ | ⟨_, _, hs⟩ | ⟨hb, a, rest, hp, hs⟩ := step_cases s
  · exact .inl (hs ▸ runLatched_next s)
  · exact .inl ⟨_, hs⟩
  · exact .inl ⟨_, hs⟩
  · cases he : accessExists s.params a with
    | true => exact .inl ⟨_, step_served hb hp he⟩
    | false => exact .inr ⟨hb, a, rest, hp, he, by rw [hs, serve, if_neg (by simp [he])]⟩

/-- STATUS of a running core that is not fatal: ST is BUSY and the other bits are 0 (R32). -/
theorem statusWord_of_busy {s : State} (hb : s.st = .busy) (hf : s.fatal = false) : statusWord s = 1 := by
  rw [statusWord, hb, hf]
  rfl

/-- What the host has outstanding when the oldest STATUS read is taken out: one access less, and every held access (R70). -/
theorem takeStatusRead_keeps_held {l rest : List HostAccess} (h : takeStatusRead l = some rest) :
    rest.length + 1 = l.length ∧ rest.filter (· ≠ .readReg 1) = l.filter (· ≠ .readReg 1) := by
  obtain ⟨pre, post, rfl, rfl⟩ := takeStatusRead_some h
  constructor
  · simp only [List.length_append, List.length_cons]
    omega
  · simp

/-- Settles O8: a BUSY step either runs the latched command, which touches no access of the host, or answers a STATUS read. -/
theorem busyHoldsHostAccesses : Obligations.BusyHoldsHostAccesses := by
  intro s hinv hb
  obtain ⟨hf, i, hi, _⟩ := hinv.busyCommand hb
  obtain ⟨_, hs⟩ | ⟨_, rest, hrest, hs⟩ | ⟨hn, _⟩ | ⟨hn, _⟩ := step_cases s
  · obtain ⟨t, ht, hend, _⟩ := everyCommandEnds i s
    obtain ⟨_, _, _, _, hpending, hreplies⟩ := (exec_leaves ht).host_frame
    have hrun : runLatched s = .next t := by simpa only [runLatched, hi] using ht
    exact ⟨t, hs.trans hrun, by rw [heldAccesses, hpending, heldAccesses], .inl ⟨hend, hpending, hreplies, i, hi, ht⟩⟩
  · obtain ⟨hlength, hheld⟩ := takeStatusRead_keeps_held hrest
    refine ⟨_, hs, hheld, .inr ⟨hlength, s.draws + 1, ?_⟩⟩
    rw [answerStatus, statusWord_of_busy hb hf]
    rfl
  · exact absurd hb hn
  · exact absurd hb hn

/-! ## Writes of one element -/

theorem writeByteBuf_frame (b : ByteBuf) (i : Nat) (v : Byte) (s : State) :
    writeByteBuf b i v s =
      { s with
        pw := (writeByteBuf b i v s).pw, inp := (writeByteBuf b i v s).inp
        out := (writeByteBuf b i v s).out, b64 := (writeByteBuf b i v s).b64 } := by
  cases b <;> rfl

theorem writeTextBuf_frame (b : TextBuf) (i : Nat) (v : Word) (s : State) :
    writeTextBuf b i v s = { s with pwt := (writeTextBuf b i v s).pwt, txt := (writeTextBuf b i v s).txt } := by
  cases b <;> rfl

theorem writeArr_frame (r : Arr) (i : Nat) (v : Byte) (s : State) :
    writeArr r i v s =
      { s with key := (writeArr r i v s).key, cb := (writeArr r i v s).cb, nonce := (writeArr r i v s).nonce } := by
  cases r <;> rfl

theorem byteBuf_writeByteBuf (b b' : ByteBuf) (i : Nat) (v : Byte) (s : State) :
    byteBuf (writeByteBuf b i v s) b' = if b' = b then (byteBuf s b').put i v else byteBuf s b' := by
  cases b <;> cases b' <;> rfl

theorem textBuf_writeTextBuf (b b' : TextBuf) (i : Nat) (v : Word) (s : State) :
    textBuf (writeTextBuf b i v s) b' = if b' = b then (textBuf s b').put i v else textBuf s b' := by
  cases b <;> cases b' <;> rfl

/-- Every buffer read back after a write of one element of one of them. -/
theorem get_byteBuf_writeByteBuf (free : Nat → Nat → Byte) (b b' : ByteBuf) (i k : Nat) (v : Byte) (s : State) :
    (byteBuf (writeByteBuf b i v s) b').get free k = if b' = b ∧ k = i then v else (byteBuf s b').get free k := by
  rw [byteBuf_writeByteBuf]
  by_cases hb : b' = b
  · simp [hb, Buffer.get_put]
  · simp [hb]

theorem get_textBuf_writeTextBuf (free : Nat → Nat → Word) (b b' : TextBuf) (i k : Nat) (v : Word) (s : State) :
    (textBuf (writeTextBuf b i v s) b').get free k = if b' = b ∧ k = i then v else (textBuf s b').get free k := by
  rw [textBuf_writeTextBuf]
  by_cases hb : b' = b
  · simp [hb, Buffer.get_put]
  · simp [hb]

theorem byteAt_setByteAt_of_lt {n i : Nat} (v : Vector Byte n) (k : Nat) (x : Byte) (hi : i < n) :
    byteAt (setByteAt v i x) k = if k = i then x else byteAt v k := by
  simp [byteAt_setByteAt, hi]

theorem readArr_writeArr_same (r : Arr) {i : Nat} (k : Nat) (v : Byte) (s : State) (hi : i < arrSize r) :
    readArr (writeArr r i v s) r k = if k = i then v else readArr s r k := by
  cases r <;> exact byteAt_setByteAt_of_lt _ k v hi

theorem readArr_writeArr_other {r r' : Arr} (i k : Nat) (v : Byte) (s : State) (hr : r' ≠ r) :
    readArr (writeArr r i v s) r' k = readArr s r' k := by
  cases r <;> cases r' <;> simp [readArr, writeArr] at hr ⊢

/-- Every register array read back after a write of one byte of one of them. -/
theorem readArr_writeArr (r r' : Arr) {i : Nat} (k : Nat) (v : Byte) (s : State) (hi : i < arrSize r) :
    readArr (writeArr r i v s) r' k = if r' = r ∧ k = i then v else readArr s r' k := by
  by_cases hr : r' = r
  · simp [hr, readArr_writeArr_same r k v s hi]
  · simp [hr, readArr_writeArr_other i k v s hr]

/-- Settles O14, for each kind of element space by its frame and what is read back. -/
theorem hostElementWriteChangesOneElement : Obligations.HostElementWriteChangesOneElement := by
  intro s rest hb
  refine ⟨fun b i v hp hfit => ?_, fun b i v hp hfit => ?_, fun r i v hp hi => ?_⟩
  · exact ⟨_, step_served hb hp hfit, writeByteBuf_frame b i v _, fun b' k => get_byteBuf_writeByteBuf _ b b' i k v _⟩
  · exact ⟨_, step_served hb hp hfit, writeTextBuf_frame b i v _, fun b' k => get_textBuf_writeTextBuf _ b b' i k v _⟩
  · exact ⟨_, step_served hb hp (decide_eq_true hi), writeArr_frame r i v _, fun r' k => readArr_writeArr r r' k v _ hi⟩

/-! ## Capacity -/

theorem fits_eq_false {p : Params} {m n : Nat} (hp : p.maxLen = some m) (h : m < n) : fits p n = false := by
  simp [fits, hp, h]

/-- Two lengths fit together only when each does. -/
theorem fits_and_eq_false {p : Params} {m n k : Nat} (hp : p.maxLen = some m) (h : m < n ∨ m < k) :
    (fits p n && fits p k) = false := by
  rcases h with h | h <;> simp [fits_eq_false hp h]

theorem keySizeOk_of_legal {nb : Nat} (h : legalKeySize nb) : keySizeOk nb = true := by
  rcases h with rfl | rfl | rfl <;> rfl

section
variable (c : Config) {s : State} {nb : Nat}

theorem deriveCommand_capacity (hk : keySizeOk nb = true) (h : fits s.params s.pwLen.toNat = false) :
    deriveCommand c nb s = raise .capacityExceeded s := by simp [deriveCommand, hk, h]

theorem runCommand_capacity (h : fits s.params s.inLen.toNat = false) :
    runCommand c s = raise .capacityExceeded s := by simp [runCommand, h]

theorem utf8EncCommand_capacity (h : fits s.params s.txtLen.toNat = false) :
    utf8EncCommand c s = raise .capacityExceeded s := by simp [utf8EncCommand, h]

theorem utf8DecCommand_capacity (h : fits s.params s.inLen.toNat = false) :
    utf8DecCommand c s = raise .capacityExceeded s := by simp [utf8DecCommand, h]

theorem b64EncCommand_capacity (h : (fits s.params s.inLen.toNat && fits s.params (b64Length s.inLen.toNat)) = false) :
    b64EncCommand c s = raise .capacityExceeded s := by rw [b64EncCommand, h]; rfl

theorem b64DecCommand_capacity (h : fits s.params s.b64Len.toNat = false) :
    b64DecCommand c s = raise .capacityExceeded s := by simp [b64DecCommand, h]

theorem encryptCommand_capacity (hk : keySizeOk nb = true)
    (h : (fits s.params s.txtLen.toNat && fits s.params s.pwtLen.toNat) = false) :
    encryptCommand c nb s = raise .capacityExceeded s := by rw [encryptCommand, hk, h]; rfl

theorem decryptCommand_capacity (hk : keySizeOk nb = true)
    (h : (fits s.params s.b64Len.toNat && fits s.params s.pwtLen.toNat) = false) :
    decryptCommand c nb s = raise .capacityExceeded s := by rw [decryptCommand, hk, h]; rfl

end

/-- A command whose effect is the error entry alone leaves all data state unchanged (R270 a). -/
theorem exec_raised {i : Instr} {s : State} {e : ErrCode} (h : effect Config.actual i s = raise e s) :
    exec i s = .next (s.raised e) := by
  rw [exec_eq, h]
  rfl

/-- Settles O19: after the key size each command checks its operands' lengths, before it touches anything. -/
theorem operandCapacityExceeded : Obligations.OperandCapacityExceeded := by
  intro s m hm
  refine ⟨?_, ?_, ?_, ?_, ?_, ?_, ?_, ?_⟩
  · exact fun nb hk h => exec_raised (deriveCommand_capacity _ (keySizeOk_of_legal hk) (fits_eq_false hm h))
  · exact fun h => exec_raised (runCommand_capacity _ (fits_eq_false hm h))
  · exact fun h => exec_raised (utf8EncCommand_capacity _ (fits_eq_false hm h))
  · exact fun h => exec_raised (utf8DecCommand_capacity _ (fits_eq_false hm h))
  · exact fun h => exec_raised (b64EncCommand_capacity _ (fits_and_eq_false hm h))
  · exact fun h => exec_raised (b64DecCommand_capacity _ (fits_eq_false hm h))
  · exact fun nb hk h => exec_raised (encryptCommand_capacity _ (keySizeOk_of_legal hk) (fits_and_eq_false hm h))
  · exact fun nb hk h => exec_raised (decryptCommand_capacity _ (keySizeOk_of_legal hk) (fits_and_eq_false hm h))

/-! ## The big-endian counter -/

/-- The value of the `n` most significant bytes of the counter field, `CB[8, 8+n)` (R62). -/
def counterHigh (n : Nat) (cb : Block) : Nat := beValue ((cb.toList.drop 8).take n)

/-- The last byte is the least significant (R62). -/
theorem beValue_append_byte (l : List Byte) (b : Byte) : beValue (l ++ [b]) = beValue l * 256 + b.toNat := by
  simp [beValue]

theorem beValue_lt (l : List Byte) : beValue l < 256 ^ l.length := by
  induction l using List.reverseRecOn with
  | nil => simp [beValue]
  | append_singleton l b ih =>
    rw [beValue_append_byte, List.length_append, List.length_singleton, pow_succ]
    omega

theorem counterHigh_eight (cb : Block) : counterHigh 8 cb = counterValue cb := by
  rw [counterHigh, counterValue, List.take_of_length_le (by simp)]

theorem counterHigh_lt {n : Nat} (cb : Block) (hn : n ≤ 8) : counterHigh n cb < 256 ^ n := by
  simpa [counterHigh, hn] using beValue_lt ((cb.toList.drop 8).take n)

theorem counterHigh_succ {n : Nat} (cb : Block) (hn : n < 8) :
    counterHigh (n + 1) cb = counterHigh n cb * 256 + (byteAt cb (8 + n)).toNat := by
  have hlen : n < (cb.toList.drop 8).length := by simp; omega
  rw [counterHigh, List.take_succ_eq_append_getElem hlen, beValue_append_byte, ← counterHigh]
  simp [byteAt, List.getD_eq_getElem?_getD, show 8 + n < 16 by omega]

theorem counterHigh_one (cb : Block) : counterHigh 1 cb = (byteAt cb 8).toNat := by
  rw [counterHigh_succ cb (by omega)]
  simp [counterHigh, beValue]

/-- A byte to the right of the `n` most significant ones is not read by them. -/
theorem counterHigh_setByteAt (n : Nat) (cb : Block) (x : Byte) : counterHigh n (setByteAt cb (8 + n) x) = counterHigh n cb := by
  rw [counterHigh, counterHigh, setByteAt_toList, List.drop_set, if_neg (by omega), List.take_set_of_le (by omega)]

/-- The carry goes to the left only: bytes to the right of where the increment starts are kept. -/
theorem byteAt_ctrIncFrom (k : Nat) (cb : Block) {i : Nat} (hi : 8 + k < i) : byteAt (ctrIncFrom k cb) i = byteAt cb i := by
  induction k generalizing cb with
  | zero => rw [ctrIncFrom, byteAt_setByteAt, if_neg (by omega)]
  | succ k ih =>
    have hset (x : Byte) : byteAt (setByteAt cb (9 + k) x) i = byteAt cb i := by rw [byteAt_setByteAt, if_neg (by omega)]
    simp only [ctrIncFrom]
    split
    · rw [ih _ (by omega), hset]
    · exact hset _

/-- The increment of the leftmost `k + 1` bytes adds 1 and drops the carry out of them. -/
theorem counterHigh_ctrIncFrom {k : Nat} (cb : Block) (hk : k < 8) :
    counterHigh (k + 1) (ctrIncFrom k cb) = (counterHigh (k + 1) cb + 1) % 256 ^ (k + 1) := by
  induction k generalizing cb with
  | zero => simp [counterHigh_one, ctrIncFrom, byteAt_setByteAt, BitVec.toNat_add]
  | succ k ih =>
    have hnine : 8 + (k + 1) = 9 + k := by omega
    have hlt := counterHigh_lt cb (show k + 1 ≤ 8 by omega)
    have hbyte : byteAt (setByteAt cb (9 + k) (byteAt cb (9 + k) + 1)) (9 + k) = byteAt cb (9 + k) + 1 := by
      rw [byteAt_setByteAt, if_pos ⟨rfl, by omega⟩]
    have hhigh : counterHigh (k + 1) (setByteAt cb (9 + k) (byteAt cb (9 + k) + 1)) = counterHigh (k + 1) cb :=
      hnine ▸ counterHigh_setByteAt (k + 1) cb _
    simp only [ctrIncFrom]
    generalize setByteAt cb (9 + k) (byteAt cb (9 + k) + 1) = cb' at hbyte hhigh ⊢
    rw [counterHigh_succ cb hk, hnine]
    split
    case isTrue hcarry =>
      have h255 : (byteAt cb (9 + k)).toNat = 255 := by bv_omega
      calc counterHigh (k + 1 + 1) (ctrIncFrom k cb')
        _ = (counterHigh (k + 1) cb + 1) % 256 ^ (k + 1) * 256 := by
          rw [counterHigh_succ _ hk, hnine, byteAt_ctrIncFrom _ _ (by omega), hcarry, ih _ (by omega), hhigh]
          simp
        _ = (counterHigh (k + 1) cb * 256 + 255 + 1) % 256 ^ (k + 1 + 1) := by
          rw [← Nat.mul_mod_mul_right, ← pow_succ, Nat.add_mul]
        _ = _ := by rw [h255]
    case isFalse hstop =>
      have hnext : (byteAt cb' (9 + k)).toNat = (byteAt cb (9 + k)).toNat + 1 := by bv_omega
      have hfits : counterHigh (k + 1) cb * 256 + (byteAt cb (9 + k)).toNat + 1 < 256 ^ (k + 1 + 1) := by
        rw [pow_succ]
        omega
      rw [counterHigh_succ _ hk, hnine, hhigh, hnext, Nat.mod_eq_of_lt hfits, Nat.add_assoc]

/-- Settles O30: the counter field is its own 8 most significant bytes. -/
theorem counterIncrementLaw : Obligations.CounterIncrementLaw := by
  intro cb
  refine ⟨?_, nonceRegion_ctrIncFrom 7 cb⟩
  rw [← counterHigh_eight, ← counterHigh_eight]
  exact counterHigh_ctrIncFrom cb (by omega)

/-! ## Base64 by groups -/

/-- The elements read from the `i`-th on. -/
theorem Buffer.memRead_drop {w : Nat} (free : Nat → Nat → BitVec w) (b : Buffer w) {n i : Nat} (hi : i < n) :
    (b.memRead free n).drop i = b.get free i :: (b.memRead free n).drop (i + 1) := by
  rw [List.drop_eq_getElem_cons (by simpa using hi)]
  simp [Buffer.memRead]

theorem Buffer.memRead_drop_of_le {w : Nat} (free : Nat → Nat → BitVec w) (b : Buffer w) {n i : Nat} (hi : n ≤ i) :
    (b.memRead free n).drop i = [] :=
  List.drop_eq_nil_of_le (by simpa using hi)

/-- The string of the bytes after `g` full groups stands after the four characters of each (R205). -/
theorem b64String_drop (g : Nat) (l : List Byte) (hg : 3 * g ≤ l.length) :
    (b64String l).drop (4 * g) = b64String (l.drop (3 * g)) := by
  induction g generalizing l with
  | zero => rfl
  | succ g ih =>
    match l with
    | b0 :: b1 :: b2 :: t => simpa [b64String, Nat.mul_succ] using ih t (by simp at hg; omega)
    | [] | [_] | [_, _] => exact absurd hg (by simp only [List.length_cons, List.length_nil]; omega)

theorem b64String_getD (g k : Nat) (l : List Byte) (hg : 3 * g ≤ l.length) :
    (b64String l).getD (4 * g + k) 0 = (b64String (l.drop (3 * g))).getD k 0 := by
  rw [← b64String_drop g l hg]
  simp [List.getD_eq_getElem?_getD]

/-- The four characters of a full group (R205). -/
theorem b64String_group (b0 b1 b2 : Byte) (t : List Byte) {k : Nat} (hk : k < 4) :
    (b64String (b0 :: b1 :: b2 :: t)).getD k 0 = b64Digit (b64Value24 b0 b1 b2) (18 - 6 * k) := by
  rw [← b64CharAt_eq_digit]
  interval_cases k <;> rfl

/-- The two characters of one byte left over; two pads follow. -/
theorem b64String_one (b0 : Byte) {k : Nat} (hk : k < 2) :
    (b64String [b0]).getD k 0 = b64Digit (b64Value24 b0 0 0) (18 - 6 * k) := by
  rw [← b64CharAt_eq_digit]
  interval_cases k <;> rfl

/-- The three characters of two bytes left over; one pad follows. -/
theorem b64String_two (b0 b1 : Byte) {k : Nat} (hk : k < 3) :
    (b64String [b0, b1]).getD k 0 = b64Digit (b64Value24 b0 b1 0) (18 - 6 * k) := by
  rw [← b64CharAt_eq_digit]
  interval_cases k <;> rfl

/-- What B64ENC leaves is in B64: every character, and the length where its register can hold it. -/
theorem resultInB64_putB64 (c : Config) (cs : List Byte) (s : State) : resultInB64 c (finish (putB64 c cs s)) cs := by
  refine ⟨fun k hk => ?_, fun h => ?_⟩
  · rw [finish_b64, putB64_b64, Buffer.get_result]
    simp [List.getD_eq_getElem?_getD, hk]
  · rw [finish_b64Len, putB64_b64Len, lengthReg_toNat _ _ _ h]

/-- Settles O43: past its full groups, the string of the bytes of IN is that of the bytes left over. -/
theorem b64EncResult : Obligations.B64EncResult := by
  intro s hfit hfit4
  have hexec : exec .b64Enc s =
      .next (finish (putB64 Config.actual (b64String (inBytes Config.actual s)) s)) := by
    rw [exec_eq, effect, b64EncCommand, b64Length, hfit, hfit4]
    rfl
  have hlength : (inBytes Config.actual s).length = s.inLen.toNat := Buffer.memRead_length _ _ _
  have hchar (g k : Nat) (hg : 3 * g ≤ s.inLen.toNat) : (b64String (inBytes Config.actual s)).getD (4 * g + k) 0 =
      (b64String ((s.inp.memRead Config.actual.freeByte s.inLen.toNat).drop (3 * g))).getD k 0 :=
    b64String_getD g k _ (hlength.symm ▸ hg)
  refine ⟨_, _, hexec, rfl, resultInB64_putB64 _ _ s, by rw [b64String_length, hlength, b64Length], ?_, ?_, ?_⟩
  · intro g k hg hk
    rw [hchar _ _ (by omega), Buffer.memRead_drop _ _ (by omega), Buffer.memRead_drop _ _ (by omega),
      Buffer.memRead_drop _ _ (by omega), b64String_group _ _ _ _ hk]
  · intro hone
    simp only [hchar _ _ (show 3 * (s.inLen.toNat / 3) ≤ s.inLen.toNat by omega)]
    rw [Buffer.memRead_drop _ _ (by omega), Buffer.memRead_drop_of_le _ _ (by omega)]
    exact ⟨fun k hk => b64String_one _ hk, rfl, rfl⟩
  · intro htwo
    simp only [hchar _ _ (show 3 * (s.inLen.toNat / 3) ≤ s.inLen.toNat by omega)]
    rw [Buffer.memRead_drop _ _ (by omega), Buffer.memRead_drop _ _ (by omega), Buffer.memRead_drop_of_le _ _ (by omega)]
    exact ⟨fun k hk => b64String_two _ _ hk, rfl⟩

end Sys2Proof.Machine
end

