-- ==== Sys2Proof/Proofs/CommandWords.lean ====
section
/-! The command word (spec/30_encoding.md R90 to R96): the opcode map read in both directions, and from it that decoder and encoder
are inverse to each other. -/

namespace Sys2Proof

/-- The operand of a well-formed command fits NB; format N has operand 0 (R90, R92). -/
theorem Instr.wf_iff_operandOf_lt (i : Instr) : i.wf = true ↔ operandOf i < 2 ^ 16 := by
  cases i <;> simp [Instr.wf, nbFits, operandOf]

/-- The three fields of every encoded word (R90). -/
theorem encodedFields (i : Instr) : Laws.EncodedFields.Statement i := Laws.EncodedFields.of_operand i i.wf_iff_operandOf_lt.mp

/-! ## The opcode map -/

theorem formatN_eq_ok_iff {nb : BitVec 16} {i j : Instr} : formatN nb i = .ok j ↔ nb = 0 ∧ i = j := by
  unfold formatN
  split <;> simp_all

/-- The opcode map has the row of every command (R93). -/
theorem decodeOp_opcodeOf {i : Instr} {nb : BitVec 16} (h : nb.toNat = operandOf i) : decodeOp (opcodeOf i) nb = .ok i := by
  cases i with
  | derive n | encrypt n | decrypt n =>
    obtain rfl : nb.toNat = n := h
    rfl
  | _ => exact formatN_eq_ok_iff.mpr ⟨BitVec.eq_of_toNat_eq h, rfl⟩

/-- No two rows of the opcode map share a command (R93). -/
theorem of_decodeOp_eq_ok {op : Byte} {nb : BitVec 16} {i : Instr} (h : decodeOp op nb = .ok i) :
    op = opcodeOf i ∧ nb.toNat = operandOf i := by
  unfold decodeOp at h
  split at h
  case h_12 => cases h
  case h_1 hop | h_9 hop | h_10 hop =>
    cases h
    exact ⟨BitVec.eq_of_toNat_eq hop, rfl⟩
  all_goals
    rename_i hop
    obtain ⟨rfl, rfl⟩ := formatN_eq_ok_iff.mp h
    exact ⟨BitVec.eq_of_toNat_eq hop, rfl⟩

theorem decodeOp_eq_ok_iff {op : Byte} {nb : BitVec 16} {i : Instr} :
    decodeOp op nb = .ok i ↔ op = opcodeOf i ∧ nb.toNat = operandOf i := by
  refine ⟨of_decodeOp_eq_ok, ?_⟩
  rintro ⟨rfl, h⟩
  exact decodeOp_opcodeOf h

/-! ## The decoder -/

/-- A word decodes to a command exactly when its fields are those of that command (R90 to R95). -/
theorem decode_eq_ok_iff {w : Word} {i : Instr} :
    decode w = .ok i ↔ fieldOp w = opcodeOf i ∧ fieldRsv w = 0 ∧ (fieldNb w).toNat = operandOf i := by
  unfold decode
  split <;> simp_all [decodeOp_eq_ok_iff]

/-- Settles O1: the word of a command has the fields of that command. -/
theorem decodeEncodeRoundTrip : Obligations.DecodeEncodeRoundTrip := fun i hi => decode_eq_ok_iff.mpr (encodedFields i hi)

/-- Settles O2: the three fields cover the word. -/
theorem encodeOfDecodedWord : Obligations.EncodeOfDecodedWord := by
  intro w i h
  obtain ⟨hop, hrsv, hnb⟩ := decode_eq_ok_iff.mp h
  refine ⟨?_, i.wf_iff_operandOf_lt.mpr (hnb ▸ (fieldNb w).isLt)⟩
  rw [encode, ← hop, ← hnb, BitVec.ofNat_toNat, BitVec.setWidth_eq, word_of_fields w hrsv]

/-- Settles O3: each legal sample has the fields of its command, and each illegal one has one reason to be refused (R95). -/
theorem sampleWordsDecode : Obligations.SampleWordsDecode := by
  unfold Obligations.SampleWordsDecode
  simp only [decode_eq_ok_iff]
  decide

end Sys2Proof
end

