-- ==== Sys2Proof/Proofs/CtrTransform.lean ====
section
/-! The counter block (spec/30_encoding.md R99) and the CTR transform as one function of it (spec/42_ctr_engine.md R177): what the
loop of a run makes of its input, and which outside calls it makes. -/

namespace Sys2Proof.Machine

/-! ## A fresh counter block -/

theorem byteAt_freshBlock (nonce : Vector Byte 8) {i : Nat} (hi : i < 16) :
    byteAt (freshBlock nonce) i = if i < 8 then byteAt nonce i else 0 := by
  rw [freshBlock, byteAt_packBytes, if_pos hi, List.getD_eq_getElem?_getD]
  split
  case isTrue h => rw [List.getElem?_append_left (by simpa using h), byteAt, List.getD_eq_getElem?_getD]
  case isFalse h =>
    rw [List.getElem?_append_right (by simpa using h), ← List.getD_eq_getElem?_getD]
    exact byteAt_zeros 8 _

/-- Settles O29: with NV set, CBINIT is CB_LOAD and the end of a command. -/
theorem cbInitResult : Obligations.CbInitResult := by
  intro s hnv
  have hexec : exec .cbInit s = .next (finish (loadCounter s)) := by
    rw [exec_eq, effect, cbInitCommand, hnv]
    rfl
  refine ⟨_, hexec, rfl, fun i hi => ?_, fun i h8 hi => ?_⟩
  · exact (byteAt_freshBlock s.nonce (by omega)).trans (if_pos hi)
  · exact (byteAt_freshBlock s.nonce hi).trans (if_neg (by omega))

/-! ## Counter blocks of a run -/

/-- Big-endian bytes of the same number are the same, as many as there are (R12). -/
theorem beValue_inj {l m : List Byte} (hlen : l.length = m.length) (h : beValue l = beValue m) : l = m := by
  induction l using List.reverseRecOn generalizing m with
  | nil => exact (List.length_eq_zero_iff.mp hlen.symm).symm
  | append_singleton l a ih =>
    induction m using List.reverseRecOn with
    | nil => simp at hlen
    | append_singleton m b _ =>
      rw [beValue_append_byte, beValue_append_byte] at h
      obtain rfl : a = b := BitVec.eq_of_toNat_eq (by omega)
      rw [ih (by simpa using hlen) (by omega)]

theorem beValue_be64Bytes {v : Nat} (h : v < 2 ^ 64) : beValue (be64Bytes v) = v := by
  simp only [be64Bytes, List.range, List.range.loop, List.map_cons, List.map_nil, beValue, List.foldl_cons, List.foldl_nil,
    BitVec.toNat_ofNat]
  omega

/-- A counter block is its nonce region and the value of its counter (R23, R62). -/
theorem block_ext {a b : Block} (hn : nonceRegion a = nonceRegion b) (hv : counterValue a = counterValue b) : a = b := by
  have hdrop : a.toList.drop 8 = b.toList.drop 8 := beValue_inj (by simp) hv
  apply Vector.toList_inj.mp
  rw [← List.take_append_drop 8 a.toList, hdrop, ← nonceRegion, hn, nonceRegion, List.take_append_drop]

theorem counterBlockAt_toList (cb : Block) (j : Nat) :
    (counterBlockAt cb j).toList = nonceRegion cb ++ be64Bytes ((counterValue cb + j) % 2 ^ 64) :=
  packBytes_toList_of_length _ _ (by simp [nonceRegion, be64Bytes])

@[simp] theorem nonceRegion_counterBlockAt (cb : Block) (j : Nat) : nonceRegion (counterBlockAt cb j) = nonceRegion cb := by
  rw [nonceRegion, counterBlockAt_toList, List.take_left' (by simp [nonceRegion])]

@[simp] theorem counterValue_counterBlockAt (cb : Block) (j : Nat) :
    counterValue (counterBlockAt cb j) = (counterValue cb + j) % 2 ^ 64 := by
  rw [counterValue, counterBlockAt_toList, List.drop_left' (by simp [nonceRegion]), beValue_be64Bytes (by omega)]

theorem counterValue_lt (cb : Block) : counterValue cb < 2 ^ 64 := by
  simpa [counterHigh_eight] using counterHigh_lt cb (Nat.le_refl 8)

/-- T(0) is the counter block a run starts from (R177). -/
@[simp] theorem counterBlockAt_zero (cb : Block) : counterBlockAt cb 0 = cb :=
  block_ext (nonceRegion_counterBlockAt cb 0) (by simpa using counterValue_lt cb)

/-- The blocks after an increment are those after the first (R166, R177). -/
theorem counterBlockAt_ctrInc (cb : Block) (j : Nat) : counterBlockAt (ctrInc cb) j = counterBlockAt cb (j + 1) := by
  obtain ⟨hvalue, hnonce⟩ := counterIncrementLaw cb
  refine block_ext (by simp [hnonce]) ?_
  simp only [counterValue_counterBlockAt, hvalue]
  omega

/-! ## The keystream -/

section
variable (c : Config) (ks : Schedule) (cb : Block)

theorem keystreamByte_of_lt {k : Nat} (h : k < 16) : keystreamByte c ks cb k = byteAt (c.cipher cb ks) k := by
  rw [keystreamByte, Nat.div_eq_of_lt h, Nat.mod_eq_of_lt h, counterBlockAt_zero]

theorem keystreamByte_ctrInc (k : Nat) : keystreamByte c ks (ctrInc cb) k = keystreamByte c ks cb (k + 16) := by
  rw [keystreamByte, counterBlockAt_ctrInc, keystreamByte, Nat.add_div_right k (by omega), Nat.add_mod_right]

/-- The transform, one block at a time (R164 to R166, R177). -/
theorem ctrTransform_block (x : List Byte) :
    ctrTransform c ks cb x =
      ceXor (x.take 16) (c.cipher cb ks) ++ ctrTransform c ks (ctrInc cb) (x.drop 16) := by
  apply List.ext_getElem?
  intro k
  rw [ctrTransform_getElem?]
  by_cases hk : k < (ceXor (x.take 16) (c.cipher cb ks)).length
  · rw [List.getElem?_append_left hk]
    have hk16 : k < 16 := by simp [ceXor_length] at hk; omega
    have hkx : k < x.length := by simp [ceXor_length] at hk; omega
    simp [ceXor, keystreamByte_of_lt c ks cb hk16, byteAt, hk16, hkx]
  · rw [List.getElem?_append_right (by omega), ctrTransform_getElem?, List.getElem?_drop, keystreamByte_ctrInc]
    by_cases hkx : k < x.length
    · have hlen : (ceXor (x.take 16) (c.cipher cb ks)).length = 16 := by simp [ceXor_length] at hk ⊢; omega
      rw [hlen, show 16 + (k - 16) = k by omega, show k - 16 + 16 = k by omega]
    · rw [List.getElem?_eq_none (by omega), List.getElem?_eq_none (by simp [ceXor_length]; omega)]
      rfl

end

/-! ## The output and the calls of a run -/

section
variable (c : Config)

/-- The loop transforms its input when its blocks cover it (R169, R170, R177). -/
theorem ctrLoop_output {ks : Schedule} (k : Nat) (x : List Byte) (s : State) (hs : s.ks = some ks) (hx : x.length ≤ 16 * k) :
    (ctrLoop c k x s).1 = ctrTransform c ks s.cb x := by
  induction k generalizing x s with
  | zero =>
    obtain rfl : x = [] := List.length_eq_zero_iff.mp (by omega)
    rfl
  | succ k ih =>
    have hrest : (x.drop 16).length ≤ 16 * k := by simp; omega
    rw [ctrLoop_succ c k x hs, ih _ (ctrBlock c ks s) hs hrest, ctrTransform_block c ks s.cb]
    rfl

theorem ctrRun_output (x : List Byte) (s : State) : (ctrRun c x s).1 = ctrTransform c (runSchedule c s) s.cb x :=
  ctrLoop_output c _ x _ rfl (by rw [blockCount]; omega)

theorem callCounts_append (l m : List Event) : callCounts (l ++ m) = callCounts l + callCounts m := by
  simp [callCounts]

/-- The loop calls `cipher` once per block; progress signals are no calls (R164, R314). -/
theorem ctrLoop_calls {ks : Schedule} (k : Nat) (x : List Byte) (s : State) (hs : s.ks = some ks) :
    ∃ es, (ctrLoop c k x s).2.events = s.events ++ es ∧ callCounts es = (0, k, 0, 0) := by
  induction k generalizing x s with
  | zero => exact ⟨[], by simp [ctrLoop], rfl⟩
  | succ k ih =>
    obtain ⟨es, hes, hcount⟩ := ih (x.drop 16) (ctrBlock c ks s) hs
    obtain ⟨sig, hsig, hblock⟩ : ∃ sig, (ctrBlock c ks s).events = s.events ++ sig ∧ callCounts sig = (0, 1, 0, 0) :=
      ⟨_, rfl, by split <;> rfl⟩
    refine ⟨sig ++ es, ?_, ?_⟩
    · rw [ctrLoop_succ c k x hs, hes, hsig, List.append_assoc]
    · rw [callCounts_append, hcount, hblock]
      simp [Nat.add_comm]

/-- A run calls keyExpansion once and `cipher` once per block (R163, R164, R314). -/
theorem ctrRun_calls (x : List Byte) (s : State) :
    ∃ es, (ctrRun c x s).2.events = s.events ++ es ∧ callCounts es = (1, blockCount x.length, 0, 0) := by
  obtain ⟨es, hes, hcount⟩ := ctrLoop_calls c (blockCount x.length) x
    (ceExpand c { s with nblk := blockCount x.length, j := 0 }) rfl
  refine ⟨.keyExpansion (theKey s) :: es, ?_, ?_⟩
  · exact hes.trans (List.append_assoc _ _ _)
  · rw [← List.singleton_append, callCounts_append, hcount]
    simp [callCounts, isExpansion, isCipher, isClock, isRng]

end

end Sys2Proof.Machine
end

