-- ==== Sys2Proof/Proofs/Base64Inverse.lean ====
section
/-! Base64 read back (spec/43_textcodec.md R205 to R209): a string of the encoder is its 6-bit digits and then its padding, so it is
canonical, and its groups give the bytes it was made from. -/

namespace Sys2Proof.Machine

/-! ## The parts of a string -/

/-- The 6-bit digits of a byte sequence, padding left out (R205). -/
def b64Sextets : List Byte → List (BitVec 6)
  | b0 :: b1 :: b2 :: t =>
    let v := b64Group b0 b1 b2
    v.extractLsb' 18 6 :: v.extractLsb' 12 6 :: v.extractLsb' 6 6 :: v.extractLsb' 0 6 :: b64Sextets t
  | [b0, b1] =>
    let v := b64Group b0 b1 0
    [v.extractLsb' 18 6, v.extractLsb' 12 6, v.extractLsb' 6 6]
  | [b0] =>
    let v := b64Group b0 0 0
    [v.extractLsb' 18 6, v.extractLsb' 12 6]
  | [] => []

/-- The number of `=` after the digits of `n` bytes (R205). -/
def b64PadCount (n : Nat) : Nat := (3 - n % 3) % 3

theorem b64PadCount_add_three (n : Nat) : b64PadCount (n + 3) = b64PadCount n := by simp [b64PadCount]

theorem b64String_eq_digits (l : List Byte) :
    b64String l = (b64Sextets l).map b64Char ++ List.replicate (b64PadCount l.length) b64Pad := by
  fun_induction b64String l with
  | case1 b0 b1 b2 t v ih =>
    simp only [b64Sextets, List.map_cons, List.length_cons, Nat.add_assoc, b64PadCount_add_three, List.cons_append, ih]
    rfl
  | case2 | case3 | case4 => rfl

/-- No digit is written as `=`, so the padding that the decoder counts is the padding there is (R206, R207). -/
theorem b64Pads_digits (vs : List (BitVec 6)) {p : Nat} (hp : p ≤ 2) :
    b64Pads (vs.map b64Char ++ List.replicate p b64Pad) = p := by
  rw [b64Pads, List.reverse_append, List.reverse_replicate, ← List.map_reverse]
  obtain rfl | rfl | rfl : p = 0 ∨ p = 1 ∨ p = 2 := by omega
  · match vs.reverse with
    | [] => rfl
    | [v] => simp [b64Char_ne_pad v]
    | v :: _ :: _ => simp [b64Char_ne_pad v]
  · match vs.reverse with
    | [] => rfl
    | v :: _ => simp [List.replicate, b64Char_ne_pad v]
  · rfl

theorem b64Pads_b64String (l : List Byte) : b64Pads (b64String l) = b64PadCount l.length := by
  rw [b64String_eq_digits, b64Pads_digits _ (by rw [b64PadCount]; omega)]

/-- What stands before the padding are the digits. -/
theorem b64String_take_digits (l : List Byte) :
    (b64String l).take ((b64String l).length - b64Pads (b64String l)) = (b64Sextets l).map b64Char := by
  rw [b64Pads_b64String, b64String_eq_digits]
  simp

/-! ## Digits as numbers -/

theorem b64Sextet_toNat (b0 b1 b2 : Byte) (sh : Nat) :
    ((b64Group b0 b1 b2).extractLsb' sh 6).toNat = b64Value24 b0 b1 b2 / 2 ^ sh % 64 := by
  rw [BitVec.extractLsb'_toNat, b64Group_toNat, Nat.shiftRight_eq_div_pow]

/-- With no third byte the low 8 bits of a group are 0, with one byte only the low 16 (R205). -/
theorem b64Value24_two (b0 b1 : Byte) : b64Value24 b0 b1 0 = 2 ^ 8 * (b0.toNat * 2 ^ 8 + b1.toNat) := by
  simp [b64Value24]
  omega

theorem b64Value24_one (b0 : Byte) : b64Value24 b0 0 0 = 2 ^ 16 * b0.toNat := by
  simp [b64Value24]
  omega

/-! ## A string of the encoder is canonical -/

/-- The bits of the last digit that no byte fills are 0 (R205, R208). -/
theorem b64Sextets_spare (l : List Byte) : ∀ v ∈ (b64Sextets l).getLast?,
    (b64PadCount l.length = 1 → v.toNat % 4 = 0) ∧ (b64PadCount l.length = 2 → v.toNat % 16 = 0) := by
  fun_induction b64Sextets l with
  | case1 b0 b1 b2 t u ih =>
    intro v hv
    simp only [List.length_cons, Nat.add_assoc, b64PadCount_add_three]
    cases ht : b64Sextets t with
    | nil =>
      obtain rfl : t = [] := by
        unfold b64Sextets at ht
        split at ht <;> simp_all
      simp [b64PadCount]
    | cons x xs =>
      rw [ht] at hv ih
      exact ih v (by simpa [List.getLast?_cons] using hv)
  | case2 b0 b1 u =>
    rintro v ⟨⟩
    refine ⟨fun _ => ?_, fun h => by simp [b64PadCount] at h⟩
    have hlast := b64Sextet_toNat b0 b1 0 6
    rw [b64Value24_two] at hlast
    exact (congrArg (· % 4) hlast).trans (by omega)
  | case3 b0 u =>
    rintro v ⟨⟩
    refine ⟨fun h => by simp [b64PadCount] at h, fun _ => ?_⟩
    have hlast := b64Sextet_toNat b0 0 0 12
    rw [b64Value24_one] at hlast
    exact (congrArg (· % 16) hlast).trans (by omega)
  | case4 => simp

theorem b64LastIndex_b64String (l : List Byte) :
    b64LastIndex (b64String l) = ((b64Sextets l).getLast?.map BitVec.toNat).getD 0 := by
  rw [b64LastIndex, b64String_take_digits, List.getLast?_map]
  cases (b64Sextets l).getLast? with
  | none => rfl
  | some v => simp [b64Index_b64Char]

/-- The encoder's strings are canonical (R208). -/
theorem b64Canonical_b64String (l : List Byte) : b64Canonical (b64String l) = true := by
  have hspare : (b64PadCount l.length = 1 → b64LastIndex (b64String l) % 4 = 0) ∧
      (b64PadCount l.length = 2 → b64LastIndex (b64String l) % 16 = 0) := by
    rw [b64LastIndex_b64String]
    cases hlast : (b64Sextets l).getLast? with
    | none => simp
    | some v => exact b64Sextets_spare l v hlast
  have hlength : (b64String l).length % 4 = 0 := by rw [b64String_length, b64Length, Nat.mul_mod_right]
  have halphabet : ((b64Sextets l).map b64Char).all (fun ch => (b64Index ch).isSome) = true := by simp [b64Index_b64Char]
  rw [b64Canonical, b64String_take_digits, b64Pads_b64String, hlength, halphabet]
  simpa [← imp_iff_not_or] using hspare

/-! ## The groups of a string -/

theorem b64Value_b64CharAt (v : BitVec 24) (sh : Nat) : b64Value (b64CharAt v sh) = v.extractLsb' sh 6 := by
  simp [b64Value, b64CharAt, b64Index_b64Char]

/-- Four 6-bit digits put together again (R207). -/
theorem joinSextets (v : BitVec 24) :
    ((v.extractLsb' 18 6).setWidth 24 <<< 18) ||| ((v.extractLsb' 12 6).setWidth 24 <<< 12)
      ||| ((v.extractLsb' 6 6).setWidth 24 <<< 6) ||| (v.extractLsb' 0 6).setWidth 24 = v := by
  ext i hi
  interval_cases i <;> simp

/-- Four characters whose indices are the digits of `v` decode to the bytes of `v` (R207). -/
theorem b64Groups_cons (v : BitVec 24) {c0 c1 c2 c3 : Byte} (t : List Byte) (h0 : b64Value c0 = v.extractLsb' 18 6)
    (h1 : b64Value c1 = v.extractLsb' 12 6) (h2 : b64Value c2 = v.extractLsb' 6 6) (h3 : b64Value c3 = v.extractLsb' 0 6) :
    b64Groups (c0 :: c1 :: c2 :: c3 :: t) = v.extractLsb' 16 8 :: v.extractLsb' 8 8 :: v.extractLsb' 0 8 :: b64Groups t := by
  simp only [b64Groups, h0, h1, h2, h3, joinSextets]

/-- The three bytes of a group (R65). -/
theorem b64Group_bytes (b0 b1 b2 : Byte) : (b64Group b0 b1 b2).extractLsb' 16 8 = b0 ∧
    (b64Group b0 b1 b2).extractLsb' 8 8 = b1 ∧ (b64Group b0 b1 b2).extractLsb' 0 8 = b2 := by
  refine ⟨?_, ?_, ?_⟩ <;> apply BitVec.eq_of_toNat_eq <;>
    simp only [BitVec.extractLsb'_toNat, b64Group_toNat, b64Value24, Nat.shiftRight_eq_div_pow] <;> omega

/-- A `=` counts as the digit 0 that it stands for (R207). -/
theorem b64Value_pad {v : BitVec 24} {sh : Nat} (h : (v.extractLsb' sh 6).toNat = 0) : b64Value b64Pad = v.extractLsb' sh 6 :=
  BitVec.eq_of_toNat_eq h.symm

/-- The groups of a string are its bytes, then a zero byte for every `=` (R207). -/
theorem b64Groups_b64String (l : List Byte) : b64Groups (b64String l) = l ++ List.replicate (b64PadCount l.length) 0 := by
  fun_induction b64String l with
  | case1 b0 b1 b2 t v ih =>
    obtain ⟨h0, h1, h2⟩ := b64Group_bytes b0 b1 b2
    rw [b64Groups_cons v _ (b64Value_b64CharAt v _) (b64Value_b64CharAt v _) (b64Value_b64CharAt v _) (b64Value_b64CharAt v _),
      ih, h0, h1, h2]
    simp [Nat.add_assoc, b64PadCount_add_three]
  | case2 b0 b1 v =>
    obtain ⟨h0, h1, h2⟩ := b64Group_bytes b0 b1 0
    have hpad : b64Value b64Pad = v.extractLsb' 0 6 := b64Value_pad (by rw [b64Sextet_toNat, b64Value24_two]; omega)
    rw [b64Groups_cons v _ (b64Value_b64CharAt v _) (b64Value_b64CharAt v _) (b64Value_b64CharAt v _) hpad, h0, h1, h2]
    rfl
  | case3 b0 v =>
    obtain ⟨h0, h1, h2⟩ := b64Group_bytes b0 0 0
    have hpad6 : b64Value b64Pad = v.extractLsb' 6 6 := b64Value_pad (by rw [b64Sextet_toNat, b64Value24_one]; omega)
    have hpad0 : b64Value b64Pad = v.extractLsb' 0 6 := b64Value_pad (by rw [b64Sextet_toNat, b64Value24_one]; omega)
    rw [b64Groups_cons v _ (b64Value_b64CharAt v _) (b64Value_b64CharAt v _) hpad6 hpad0, h0, h1, h2]
    rfl
  | case4 => rfl

/-- What the encoder wrote the decoder reads back (R209). -/
theorem b64Decode_b64String (l : List Byte) : b64Decode (b64String l) = .ok l := by
  have hlength : 3 * ((b64String l).length / 4) - b64Pads (b64String l) = l.length := by
    rw [b64Pads_b64String, b64String_length, b64Length, b64PadCount]
    omega
  rw [b64Decode, if_pos (b64Canonical_b64String l), hlength, b64Groups_b64String, List.take_left]

end Sys2Proof.Machine
end

