-- ==== Sys2Proof/Proofs/EncryptString.lean ====
section
/-! ENCRYPT end to end (spec/30_encoding.md R101, spec/44_composite.md R230, R233, R235, R237): when it ends without error, and the
nonce, the payload and the string it then leaves. -/

namespace Sys2Proof.Machine

/-! ## Lines 5 to 8 -/

section
variable (c : Config) {n : Nat} (hn : n = 16 ∨ n = 24 ∨ n = 32) (plain pw : List Byte) (s : State)
include hn

/-- After a derivation the Key of KEY and KLEN is the derived Key (R125). -/
theorem theKey_deriveKey : theKey (deriveKey c pw n s) = derivedKey c pw n := by
  have hklen : (deriveKey c pw n s).klen.toNat = n := by rcases hn with rfl | rfl | rfl <;> rfl
  have hbyte (i : Nat) : byteAt (deriveKey c pw n s).key i = derivedKeyByte c pw n i := by
    rw [deriveKey_eq c pw n s (by omega) (by omega)]
    exact byteAt_derivedKey c pw n i (by omega) (by omega)
  rw [theKey, hklen, derivedKey]
  apply List.ext_getElem
  · simp
    omega
  · intro i hi _
    have hi32 : i < 32 := by simp at hi; omega
    simp [← hbyte, byteAt, List.getD_eq_getElem?_getD, hi32]

/-- The output of lines 5 to 8: the CTR transform under the derived Key, from a fresh counter block (R145, R177). -/
theorem encryptBody_output : (encryptBody c n plain pw s).1 =
    ctrTransform c (c.keyExpansion (derivedKey c pw n)) (freshBlock (encryptBody c n plain pw s).2.nonce) plain := by
  have hkey : runSchedule c (loadCounter (generate c (deriveKey c pw n s))) = c.keyExpansion (derivedKey c pw n) :=
    congrArg c.keyExpansion (theKey_deriveKey c hn pw s)
  rw [encryptBody, ctrRun_output, hkey, ctrRun_nonce]
  rfl

/-- The calls of lines 5 to 8: the derivation's two, one reading and one draw, which make the nonce, then those of a run (R314). -/
theorem encryptBody_calls : ∃ a r es, (encryptBody c n plain pw s).2.nonce = nonceOf a r ∧
    callCounts es = (1, blockCount plain.length, 0, 0) ∧
    (encryptBody c n plain pw s).2.events = s.events ++ ([.keyExpansion (deriveBuffer pw n),
      .cipher ((deriveBuffer pw n).take 16), .clockRead a, .rngDraw r] ++ es) := by
  obtain ⟨es, hes, hcount⟩ := ctrRun_calls c plain (loadCounter (generate c (deriveKey c pw n s)))
  refine ⟨_, _, es, ctrRun_nonce c plain _, hcount, ?_⟩
  rw [encryptBody, hes, loadCounter_events, generate_events, deriveKey_eq c pw n s (by omega) (by omega)]
  simp

end

/-- A trace without readings and draws has none to be found. -/
theorem filter_of_callCounts {es : List Event} {m k : Nat} (h : callCounts es = (m, k, 0, 0)) :
    es.filter isClock = [] ∧ es.filter isRng = [] := by
  simp only [callCounts, Prod.mk.injEq, List.countP_eq_length_filter, List.length_eq_zero_iff] at h
  exact h.2.2

/-! ## When ENCRYPT ends without error -/

/-- No check of ENCRYPT fails (R74, R94, R200, R205, R230). -/
structure EncryptReady (c : Config) (nb : Nat) (s : State) : Prop where
  keySize : keySizeOk nb = true
  txtFits : fits s.params s.txtLen.toNat = true
  pwtFits : fits s.params s.pwtLen.toNat = true
  plain : scanSucceeds s.params (txtText c s)
  password : scanSucceeds s.params (pwtText c s)
  payloadFits : fits s.params (8 + (utf8All (txtText c s)).length) = true
  stringFits : fits s.params (b64Length (8 + (utf8All (txtText c s)).length)) = true

/-- The output of lines 5 to 8 on the operands of ENCRYPT, and the state after them. -/
def encryptRun (c : Config) (nb : Nat) (s : State) : List Byte × State :=
  encryptBody c (keyBytes nb) (utf8All (txtText c s)) (utf8All (pwtText c s)) s

theorem utf8Encode_eq_ok_iff {p : Params} {text : List Word} {bs : List Byte} (hp : fits p 0 = true) :
    utf8Encode p text = .ok bs ↔ scanSucceeds p text ∧ bs = utf8All text := by
  constructor
  · intro h
    obtain ⟨rfl, hscalar, hfits⟩ := utf8Scan_ok h
    exact ⟨⟨hscalar, by simpa using hfits hp⟩, rfl⟩
  · rintro ⟨⟨hscalar, hfits⟩, rfl⟩
    exact utf8Scan_of hscalar (by simpa using hfits)

theorem b64Encode_eq_ok_iff {p : Params} {b str : List Byte} :
    b64Encode p b = .ok str ↔ fits p b.length = true ∧ fits p (b64Length b.length) = true ∧ str = b64String b := by
  unfold b64Encode
  split
  case isTrue h =>
    obtain ⟨hbytes, hchars⟩ := Bool.and_eq_true_iff.mp h
    simp only [hbytes, hchars, true_and, Except.ok.injEq, eq_comm]
  case isFalse h => simp_all

section
variable {c : Config} {nb : Nat} {s : State}

theorem encryptRun_params : (encryptRun c nb s).2.params = s.params := by simp [encryptRun, encryptBody]

theorem encryptRun_nv : (encryptRun c nb s).2.nv = true := by simp [encryptRun, encryptBody]

/-- What line 9 of ENCRYPT encodes is the payload under the nonce that was drawn (R101). -/
theorem encryptRun_payload (hk : keySizeOk nb = true) :
    (encryptRun c nb s).2.nonce.toList ++ (encryptRun c nb s).1 = payloadOf c nb s (encryptRun c nb s).2.nonce :=
  congrArg _ (encryptBody_output c (keyBytes_of_ok hk) _ _ s)

theorem payloadOf_length (nonce : Vector Byte 8) : (payloadOf c nb s nonce).length = 8 + (utf8All (txtText c s)).length := by
  simp [payloadOf]

/-- What ENCRYPT leaves when no check fails (R230, R233). -/
theorem encryptCommand_of_ready (h : EncryptReady c nb s) : encryptCommand c nb s =
    finish (discard (putB64 c (b64String (payloadOf c nb s (encryptRun c nb s).2.nonce)) (encryptRun c nb s).2)) := by
  have hp : fits s.params 0 = true := fits_mono h.txtFits (Nat.zero_le _)
  have hplain := (utf8Encode_eq_ok_iff hp).mpr ⟨h.plain, rfl⟩
  have hpassword := (utf8Encode_eq_ok_iff hp).mpr ⟨h.password, rfl⟩
  have hstring : b64Encode (encryptRun c nb s).2.params ((encryptRun c nb s).2.nonce.toList ++ (encryptRun c nb s).1) =
      .ok (b64String (payloadOf c nb s (encryptRun c nb s).2.nonce)) := by
    rw [encryptRun_payload h.keySize, encryptRun_params, b64Encode_eq_ok_iff, payloadOf_length]
    exact ⟨h.payloadFits, h.stringFits, rfl⟩
  unfold encryptCommand
  rw [h.keySize, h.txtFits, h.pwtFits, hplain, hpassword]
  simp only [Bool.not_true, Bool.and_self, Bool.false_eq_true, if_false]
  rw [← encryptRun, hstring]

/-- ENCRYPT ends without error only when no check fails. -/
theorem encryptReady_of_done (h : (encryptCommand c nb s).st = .done) : EncryptReady c nb s := by
  unfold encryptCommand at h
  split at h
  · cases h
  rename_i hk
  split at h
  · cases h
  rename_i hfits
  split at h
  · cases h
  rename_i plain hplain
  split at h
  · cases h
  rename_i pw hpw
  dsimp only at h
  split at h
  · cases h
  rename_i str hstr
  replace hk : keySizeOk nb = true := by simpa using hk
  obtain ⟨htxt, hpwt⟩ : fits s.params s.txtLen.toNat = true ∧ fits s.params s.pwtLen.toNat = true := by simpa using hfits
  have hp : fits s.params 0 = true := fits_mono htxt (Nat.zero_le _)
  obtain ⟨hscanT, rfl⟩ := (utf8Encode_eq_ok_iff hp).mp hplain
  obtain ⟨hscanP, rfl⟩ := (utf8Encode_eq_ok_iff hp).mp hpw
  rw [← encryptRun, encryptRun_payload hk, encryptRun_params, b64Encode_eq_ok_iff, payloadOf_length] at hstr
  obtain ⟨hpayload, hstring, _⟩ := hstr
  exact ⟨hk, htxt, hpwt, hscanT, hscanP, hpayload, hstring⟩

end

/-! ## The obligations -/

theorem discarded_discard (s : State) : discarded (discard s) :=
  ⟨rfl, rfl, rfl, rfl, rfl, rfl, rfl, rfl, rfl, rfl, rfl, rfl⟩

/-- No command but CLR writes a register outside `compositeFrame` (R230, R231, R233). -/
theorem compositeFrame_of_exec {i : Instr} (hi : i ≠ .clr) {s t : State} (h : exec i s = .next t) : compositeFrame s t := by
  obtain ⟨hopc, hnbits, hfatal, hobs, hpending, hreplies⟩ := (exec_leaves h).host_frame
  obtain ⟨hpwt, hpwtLen⟩ := (exec_leaves h).pwt_frame hi
  rw [compositeFrame, ← hopc, ← hnbits, ← hfatal, ← hobs, ← hpending, ← hreplies, ← hpwt, ← hpwtLen, ← (exec_follows h).params]

/-- Settles O47: no check fails, so ENCRYPT leaves the string of the payload. -/
theorem encryptResult : Obligations.EncryptResult := by
  intro nb s hk htxt hpwt hplain hpassword hpwFits hpayload hstring
  have hready : EncryptReady Config.actual nb s :=
    { keySize := keySizeOk_of_legal hk, txtFits := htxt, pwtFits := hpwt
      plain := ⟨hplain, fits_mono hpayload (by omega)⟩, password := ⟨hpassword, hpwFits⟩, payloadFits := hpayload
      stringFits := by rwa [b64Length, Nat.add_right_comm] }
  obtain ⟨a, r, es, hnonce, hcount, hevents⟩ := encryptBody_calls Config.actual (keyBytes_of_ok hready.keySize)
    (utf8All (txtText Config.actual s)) (utf8All (pwtText Config.actual s)) s
  obtain ⟨hclock, hrng⟩ := filter_of_callCounts hcount
  have hexec := exec_eq (.encrypt nb) s
  obtain ⟨htxtKept, htxtLenKept⟩ := (exec_leaves hexec).txt_frame rfl
  have hframe := compositeFrame_of_exec (by simp) hexec
  rw [effect, encryptCommand_of_ready hready] at hexec htxtKept htxtLenKept hframe
  refine ⟨_, a, r, _, hexec, rfl, rfl, rfl, hframe, ?_, htxtKept, htxtLenKept, hnonce, encryptRun_nv, ?_, hevents, ?_, ?_⟩
  · exact discarded_discard _
  · exact resultInB64_putB64 Config.actual _ _
  · rw [List.filter_append, hclock]
    rfl
  · rw [List.filter_append, hrng]
    rfl

/-- Settles O52: the string decodes to the payload it was made from, the nonce and as many bytes as the plaintext has. -/
theorem encryptLengths : Obligations.EncryptLengths := by
  intro nb s t hexec hdone hbound
  have ht := exec_next hexec
  have hready := encryptReady_of_done (ht ▸ hdone)
  rw [effect, encryptCommand_of_ready hready] at ht
  subst ht
  set payload := payloadOf Config.actual nb s (encryptRun Config.actual nb s).2.nonce with hpayload
  have hlength : payload.length = 8 + (utf8All (txtText Config.actual s)).length := payloadOf_length _
  have hstring : (b64String payload).length = 4 * ((10 + (utf8All (txtText Config.actual s)).length) / 3) := by
    rw [b64String_length, hlength, b64Length, Nat.add_right_comm]
  have hchars := b64Chars_putB64 Config.actual (b64String payload) (encryptRun Config.actual nb s).2 (hstring ▸ hbound)
  have hb64Len := lengthReg_toNat Config.actual (encryptRun Config.actual nb s).2.draws _ (hstring ▸ hbound)
  refine ⟨hb64Len.trans hstring, payload, ?_, by rw [hlength, Nat.add_comm], ?_, ?_⟩
  · exact (congrArg b64Decode hchars).trans (b64Decode_b64String payload)
  · exact List.take_left' (by simp)
  · intro hzero
    have hempty : txtText Config.actual s = [] := by rw [txtText, hzero]; rfl
    refine ⟨?_, BitVec.eq_of_toNat_eq (hb64Len.trans ?_)⟩
    · rw [hpayload, payloadOf, hempty]
      exact List.append_nil _
    · rw [hstring, hempty]
      rfl

end Sys2Proof.Machine
end

