-- ==== Sys2Proof/Proofs/DerivedKey.lean ====
section
/-! DERIVE (spec/40_keyderiver.md R120 to R125): what it leaves for a legal key size and an operand that fits, and that only the
first nBytes bytes of the password count. -/

namespace Sys2Proof.Machine

/-! ## The password, cut at nBytes -/

theorem Buffer.memRead_take {w : Nat} (free : Nat → Nat → BitVec w) (b : Buffer w) (m n : Nat) :
    (b.memRead free m).take n = b.memRead free (min m n) := by
  rw [Buffer.memRead, ← List.map_take, List.take_range, Nat.min_comm, Buffer.memRead]

/-- Buffers that agree in their first `n` elements read the same there. -/
theorem Buffer.memRead_congr {w : Nat} {free : Nat → Nat → BitVec w} {b b' : Buffer w} {n : Nat}
    (h : ∀ i, i < n → b.get free i = b'.get free i) : b.memRead free n = b'.memRead free n :=
  List.map_congr_left fun i hi => h i (List.mem_range.mp hi)

section
variable (c : Config) (n : Nat) (s : State)

/-- DERIVE reads the password up to nBytes only (R122). -/
theorem pwBytes_eq_take : pwBytes c n s = (password c s).take n := (Buffer.memRead_take _ _ _ _).symm

/-- The derive buffer is that of the whole password (R121). -/
theorem deriveBuffer_pwBytes : deriveBuffer (pwBytes c n s) n = deriveBuffer (password c s) n := by
  rw [pwBytes_eq_take, deriveBuffer_take]

/-- The Key is that of the whole password: it depends on the derive buffer alone. -/
theorem derivedKeyByte_pwBytes (i : Nat) : derivedKeyByte c (pwBytes c n s) n i = derivedKeyByte c (password c s) n i := by
  simp only [derivedKeyByte, deriveBlock, deriveBuffer_pwBytes]

end

/-! ## When DERIVE ends without error -/

section
variable {c : Config} {nb : Nat} {s : State}

/-- No check of DERIVE fails (R74, R123). -/
theorem deriveCommand_of_ok (hk : keySizeOk nb = true) (hfit : fits s.params s.pwLen.toNat = true) :
    deriveCommand c nb s = finish (deriveKey c (pwBytes c (keyBytes nb) s) (keyBytes nb) s) := by
  simp [deriveCommand, hk, hfit]

/-- DERIVE ends without error only when no check fails. -/
theorem ok_of_deriveCommand_done (h : (deriveCommand c nb s).st = .done) :
    keySizeOk nb = true ∧ fits s.params s.pwLen.toNat = true := by
  unfold deriveCommand at h
  split at h
  · cases h
  rename_i hk
  split at h
  · cases h
  rename_i hfit
  exact ⟨by simpa using hk, by simpa using hfit⟩

end

/-! ## The obligations -/

/-- Settles O25: no check fails, so DERIVE leaves what a derivation from the cut password leaves. -/
theorem deriveResult : Obligations.DeriveResult := by
  intro nb s hlegal hfit
  have hk := keySizeOk_of_legal hlegal
  have hn := keyBytes_of_ok hk
  have h16 : 16 ≤ keyBytes nb := by omega
  have h32 : keyBytes nb ≤ 32 := by omega
  have hexec := exec_eq (.derive nb) s
  rw [effect, deriveCommand_of_ok hk hfit, deriveKey_eq _ _ _ _ h16 h32, deriveBuffer_pwBytes] at hexec
  refine ⟨_, hexec, rfl, fun i _ => ?_⟩
  exact (byteAt_derivedKey _ _ _ i h16 h32).trans (derivedKeyByte_pwBytes _ _ _ i)

/-- Settles O26: DERIVE reads the same bytes of both passwords, and the Key is a function of the bytes read. -/
theorem longPasswordIsCut : Obligations.LongPasswordIsCut := by
  intro nb s s' t t' hexec hexec' hdone hdone' hlen hlen' hagree
  have ht := exec_next hexec
  have ht' := exec_next hexec'
  obtain ⟨hk, hfit⟩ := ok_of_deriveCommand_done (ht ▸ hdone)
  obtain ⟨_, hfit'⟩ := ok_of_deriveCommand_done (ht' ▸ hdone')
  have hn := keyBytes_of_ok hk
  have hread : pwBytes Config.actual (keyBytes nb) s = pwBytes Config.actual (keyBytes nb) s' := by
    rw [pwBytes, pwBytes, keyBytes, Nat.min_eq_right hlen, Nat.min_eq_right hlen']
    exact Buffer.memRead_congr hagree
  rw [effect, deriveCommand_of_ok hk hfit, deriveKey_eq _ _ _ _ (by omega) (by omega)] at ht
  rw [effect, deriveCommand_of_ok hk hfit', deriveKey_eq _ _ _ _ (by omega) (by omega), ← hread] at ht'
  rw [ht, ht']
  exact ⟨rfl, rfl⟩

end Sys2Proof.Machine
end

