-- ==== Sys2Proof/Proofs/NonceFields.lean ====
section
/-! The nonce (spec/41_nonce.md R140 to R143): its bytes are three little-endian fields, from which the clock reading's
milliseconds, the draw and the seconds modulo 2^32 are read back. -/

namespace Sys2Proof.Machine

/-! ## Little-endian fields -/

/-- The `n` lowest bytes of a value, lowest first (R12). -/
def leBytes : Nat → Nat → List Byte
  | 0, _ => []
  | n + 1, v => BitVec.ofNat 8 v :: leBytes n (v / 256)

@[simp] theorem leBytes_length (n v : Nat) : (leBytes n v).length = n := by
  induction n generalizing v with
  | zero => rfl
  | succ n ih => rw [leBytes, List.length_cons, ih]

@[simp] theorem leValue_cons (b : Byte) (l : List Byte) : leValue (b :: l) = b.toNat + 256 * leValue l := rfl

/-- `leValue` reads back what `leBytes` keeps of a value. -/
theorem leValue_leBytes (n v : Nat) : leValue (leBytes n v) = v % 256 ^ n := by
  induction n generalizing v with
  | zero => exact (Nat.mod_one v).symm
  | succ n ih => rw [leBytes, leValue_cons, ih, BitVec.toNat_ofNat, pow_succ' 256 n, Nat.mod_mul]

/-! ## The fields of a nonce -/

section
variable (a : Nat) (r : BitVec 16)

/-- The nonce is the milliseconds, the draw and the seconds, each of them little-endian (R143). -/
theorem nonceOf_toList : (nonceOf a r).toList = leBytes 2 (a % 1000) ++ leBytes 2 r.toNat ++ leBytes 4 (a / 1000) := by
  have hdrawLow : r.extractLsb' 0 8 = BitVec.ofNat 8 r.toNat := by
    apply BitVec.eq_of_toNat_eq
    simp
  have hdrawHigh : r.extractLsb' 8 8 = BitVec.ofNat 8 (r.toNat / 256) := by
    apply BitVec.eq_of_toNat_eq
    simp [Nat.shiftRight_eq_div_pow]
  simp only [nonceOf, packBytes_toList, padTo, hdrawLow, hdrawHigh, leBytes, List.cons_append, List.nil_append,
    List.cons.injEq, ← BitVec.toNat_inj, BitVec.toNat_ofNat, and_true, true_and]
  omega

theorem leValue_nonceOf_milliseconds : leValue ((nonceOf a r).toList.take 2) = a % 1000 := by
  rw [nonceOf_toList, List.append_assoc, List.take_left' (leBytes_length _ _), leValue_leBytes]
  omega

theorem leValue_nonceOf_draw : leValue (((nonceOf a r).toList.drop 2).take 2) = r.toNat := by
  rw [nonceOf_toList, List.append_assoc, List.drop_left' (leBytes_length _ _), List.take_left' (leBytes_length _ _),
    leValue_leBytes]
  exact Nat.mod_eq_of_lt r.isLt

theorem leValue_nonceOf_seconds : leValue ((nonceOf a r).toList.drop 4) = a / 1000 % 2 ^ 32 := by
  rw [nonceOf_toList, List.drop_left' (by simp), leValue_leBytes]
  omega

end

/-! ## The obligations -/

/-- Settles O27: NONCEGEN raises no error, so it leaves what `generate` sampled, and the three fields read it back. -/
theorem nonceGenResult : Obligations.NonceGenResult := by
  intro s
  refine ⟨_, Config.actual.clockRead s.params.epoch s.draws, Config.actual.rngDraw s.draws,
    exec_eq .nonceGen s, rfl, ?_, ?_, ?_⟩
  · exact leValue_nonceOf_milliseconds _ _
  · exact leValue_nonceOf_draw _ _
  · exact leValue_nonceOf_seconds _ _

/-- Settles O28: the fields are read back from the nonce, and the nonce is a function of the fields. -/
theorem noncesEqualIffFieldsEqual : Obligations.NoncesEqualIffFieldsEqual := by
  intro a a' r r'
  constructor
  · intro h
    refine ⟨?_, ?_, BitVec.eq_of_toNat_eq ?_⟩
    · rw [← leValue_nonceOf_milliseconds a r, h, leValue_nonceOf_milliseconds]
    · rw [← leValue_nonceOf_seconds a r, h, leValue_nonceOf_seconds]
    · rw [← leValue_nonceOf_draw a r, h, leValue_nonceOf_draw]
  · rintro ⟨hmilliseconds, hseconds, rfl⟩
    rw [nonceOf, nonceOf, hmilliseconds, hseconds]

end Sys2Proof.Machine
end

