-- ==== Sys2Proof/Proofs/RunResult.lean ====
section
/-! RUN as the host sees it (spec/42_ctr_engine.md R160 to R179): when it ends without error, and then its output, its final counter
block and its events in closed form. The statements on two and three RUNs compare closed forms. -/

namespace Sys2Proof.Machine

/-! ## Counter blocks and keystream from a later block on -/

/-- Advancing a counter block twice advances it by the sum (R167, R177). -/
theorem counterBlockAt_counterBlockAt (cb : Block) (m j : Nat) :
    counterBlockAt (counterBlockAt cb m) j = counterBlockAt cb (m + j) := by
  refine block_ext (by simp) ?_
  simp only [counterValue_counterBlockAt]
  omega

/-- The keystream from T(m) is the keystream from T(0) without its first `m` blocks (R174, R177). -/
theorem keystreamByte_counterBlockAt (c : Config) (ks : Schedule) (cb : Block) (m k : Nat) :
    keystreamByte c ks (counterBlockAt cb m) k = keystreamByte c ks cb (16 * m + k) := by
  have hblock : (16 * m + k) / 16 = m + k / 16 := by omega
  have hbyte : (16 * m + k) % 16 = k % 16 := by omega
  rw [keystreamByte, keystreamByte, counterBlockAt_counterBlockAt, hblock, hbyte]

section
variable (c : Config)

/-- The counter block after `k` blocks is T(k) (R167, R177). -/
theorem ctrLoop_cb {ks : Schedule} (k : Nat) (x : List Byte) (s : State) (hs : s.ks = some ks) :
    (ctrLoop c k x s).2.cb = counterBlockAt s.cb k := by
  induction k generalizing x s with
  | zero => exact (counterBlockAt_zero s.cb).symm
  | succ k ih =>
    rw [ctrLoop_succ c k x hs, ih _ (ctrBlock c ks s) hs]
    exact counterBlockAt_ctrInc s.cb k

theorem ctrRun_cb (x : List Byte) (s : State) : (ctrRun c x s).2.cb = counterBlockAt s.cb (blockCount x.length) :=
  ctrLoop_cb c _ x _ rfl

end

/-! ## The events of a run, block by block -/

/-- The progress signal after block `i` of a loop that starts in `s`, if it is due and appears (R172). -/
def signalAfter (c : Config) (s : State) (i : Nat) : List Event :=
  if progressDue s (s.j + i + 1) && c.progressShown (s.draws + i) then [.progress (s.j + i + 1) s.nblk] else []

/-- The events of block `i` of a loop that starts in `s`: the call with T(i), then the signal (R164, R172, R177). -/
def blockEvents (c : Config) (s : State) (i : Nat) : List Event :=
  .cipher (counterBlockAt s.cb i).toList :: signalAfter c s i

section
variable (c : Config)

theorem blockEvents_ctrBlock (ks : Schedule) (s : State) (i : Nat) :
    blockEvents c (ctrBlock c ks s) i = blockEvents c s (i + 1) := by
  have hcb : counterBlockAt (ctrBlock c ks s).cb i = counterBlockAt s.cb (i + 1) := counterBlockAt_ctrInc s.cb i
  have hj : (ctrBlock c ks s).j + i + 1 = s.j + (i + 1) + 1 := congrArg (· + 1) (Nat.add_right_comm _ _ _)
  have hdraws : (ctrBlock c ks s).draws + i = s.draws + (i + 1) := Nat.add_right_comm _ _ _
  rw [blockEvents, signalAfter, hcb, hj, hdraws]
  rfl

theorem ctrLoop_events {ks : Schedule} (k : Nat) (x : List Byte) (s : State) (hs : s.ks = some ks) :
    (ctrLoop c k x s).2.events = s.events ++ (List.range k).flatMap (blockEvents c s) := by
  induction k generalizing x s with
  | zero => exact (List.append_nil _).symm
  | succ k ih =>
    have hfirst : (ctrBlock c ks s).events = s.events ++ blockEvents c s 0 := by
      rw [blockEvents, counterBlockAt_zero]
      rfl
    have hrest : blockEvents c (ctrBlock c ks s) = fun i => blockEvents c s (i + 1) :=
      funext (blockEvents_ctrBlock c ks s)
    rw [ctrLoop_succ c k x hs, ih _ (ctrBlock c ks s) hs, hfirst, hrest, List.range_succ_eq_map, List.flatMap_cons,
      List.flatMap_map, List.append_assoc]

/-- The state in which the loop of a run of `n` blocks starts (R162, R163). -/
def loopStart (c : Config) (n : Nat) (s : State) : State := ceExpand c { s with nblk := n, j := 0 }

/-- The events of a run: one keyExpansion of the Key, then those of each block (R163, R169). -/
theorem ctrRun_events (x : List Byte) (s : State) :
    (ctrRun c x s).2.events = s.events ++ .keyExpansion (theKey s) :: (List.range (blockCount x.length)).flatMap
      (blockEvents c (loopStart c (blockCount x.length) s)) :=
  (ctrLoop_events c _ x _ rfl).trans (List.append_assoc _ _ _)

/-- Without an observer no signal is due, so a block's one event is its call (R172). -/
theorem blockEvents_unobserved {s : State} (h : s.obsEn = false) (i : Nat) :
    blockEvents c s i = [.cipher (counterBlockAt s.cb i).toList] := by
  simp [blockEvents, signalAfter, progressDue, h]

/-- Without an observer the events of a run are its calls (R179). -/
theorem ctrRun_events_unobserved (x : List Byte) {s : State} (h : s.obsEn = false) :
    (ctrRun c x s).2.events = s.events ++ .keyExpansion (theKey s) ::
      (List.range (blockCount x.length)).map fun j => .cipher (counterBlockAt s.cb j).toList := by
  rw [ctrRun_events, funext (blockEvents_unobserved c (s := loopStart c _ s) h), ← List.map_eq_flatMap]
  rfl

end

/-! ## When RUN ends without error, and what it then leaves -/

theorem keyLenOk_iff (k : BitVec 8) : keyLenOk k = true ↔ k = 16 ∨ k = 24 ∨ k = 32 := by
  simp [keyLenOk, or_assoc]

section
variable {c : Config} {s : State}

/-- No check of RUN fails (R74, R161). -/
theorem runCommand_of_ready (hready : runReady s) (hfit : fits s.params s.inLen.toNat = true) :
    runCommand c s = finish (putOut c (ctrRun c (inBytes c s) s).1 (ctrRun c (inBytes c s) s).2) := by
  obtain ⟨hkey, hcbv⟩ := hready
  simp [runCommand, hfit, (keyLenOk_iff _).mpr hkey, hcbv]

/-- RUN ends without error only when no check fails. -/
theorem ready_of_runCommand_done (h : (runCommand c s).st = .done) :
    runReady s ∧ fits s.params s.inLen.toNat = true := by
  unfold runCommand at h
  split at h
  · cases h
  rename_i hfit
  split at h
  · cases h
  rename_i hkey
  split at h
  · cases h
  rename_i hcbv
  exact ⟨⟨(keyLenOk_iff _).mp (by simpa using hkey), by simpa using hcbv⟩, by simpa using hfit⟩

theorem fits_zero (p : Params) : fits p 0 = true := by
  unfold fits
  split
  · rfl
  · exact decide_eq_true (Nat.zero_le _)

theorem inBytes_length : (inBytes c s).length = s.inLen.toNat := Buffer.memRead_length _ _ _

/-- `t` is what a RUN from `s` that ends without error leaves, in closed form (R170, R177); the events and the internal registers
are taken from `t`. -/
structure RunDone (c : Config) (s t : State) : Prop where
  frame : t = State.ended { s with
    cb := counterBlockAt s.cb ((s.inLen.toNat + 15) / 16), out := t.out, outLen := s.inLen
    ks := none, o := t.o, j := t.j, nblk := t.nblk, events := t.events, draws := t.draws }
  output : ∀ k, k < s.inLen.toNat →
    t.out.get c.freeByte k = s.inp.get c.freeByte k ^^^ keystreamByte c (runSchedule c s) s.cb k

theorem runDone_of_ready (hready : runReady s) (hfit : fits s.params s.inLen.toNat = true) :
    RunDone c s (runCommand c s) := by
  rw [runCommand_of_ready hready hfit]
  have hlen (n : Nat) : lengthReg c n (ctrRun c (inBytes c s) s).1.length = s.inLen := by
    apply BitVec.eq_of_toNat_eq
    rw [ctrRun_output, ctrTransform_length, inBytes_length]
    exact lengthReg_toNat c n _ s.inLen.isLt
  constructor
  case frame =>
    simp [finish, putOut, State.ended, ctrRun_cb, inBytes_length, blockCount, hlen]
  case output =>
    intro k hk
    have hget : (inBytes c s)[k]? = some (s.inp.get c.freeByte k) := by
      rw [inBytes, Buffer.memRead_getElem?, if_pos hk]
    rw [finish_out, putOut_out, Buffer.get_result, ctrRun_output, List.getD_eq_getElem?_getD, ctrTransform_getElem?, hget]
    rfl

end

namespace RunDone

variable {c : Config} {s t : State} (h : RunDone c s t)
include h

theorem st : t.st = .done := by rw [h.frame]; rfl

theorem err : t.err = .noError := by rw [h.frame]; rfl

theorem outLen : t.outLen = s.inLen := by rw [h.frame]; rfl

theorem cb : t.cb = counterBlockAt s.cb ((s.inLen.toNat + 15) / 16) := by rw [h.frame]; rfl

end RunDone

/-! ## Several RUNs -/

/-- The schedule of a RUN depends on the Key alone (R163). -/
theorem runSchedule_congr {c : Config} {s s' : State} (hkey : s'.key = s.key) (hklen : s'.klen = s.klen) :
    runSchedule c s' = runSchedule c s := by
  rw [runSchedule, theKey, hkey, hklen, runSchedule, theKey]

/-- A RUN that ends without error had no check fail and left its closed form. -/
theorem runDone_of_exec {s t : State} (h : exec .run s = .next t) (hdone : t.st = .done) :
    runReady s ∧ fits s.params s.inLen.toNat = true ∧ RunDone Config.actual s t := by
  have ht := exec_next h
  rw [effect] at ht
  obtain ⟨hready, hfit⟩ := ready_of_runCommand_done (ht ▸ hdone)
  exact ⟨hready, hfit, ht ▸ runDone_of_ready hready hfit⟩

/-- What RUN checks is in KLEN, CBV, INLEN and the parameters: where one RUN ends without error, so does another with equal ones
(R74, R161). -/
theorem runDone_of_equal_checks {s t s' t' : State} (h : exec .run s = .next t) (hdone : t.st = .done)
    (h' : exec .run s' = .next t') (hparams : s'.params = s.params) (hklen : s'.klen = s.klen) (hcbv : s'.cbv = s.cbv)
    (hlen : s'.inLen = s.inLen) : RunDone Config.actual s t ∧ RunDone Config.actual s' t' := by
  obtain ⟨hready, hfit, hrun⟩ := runDone_of_exec h hdone
  refine ⟨hrun, ?_⟩
  rw [exec_next h', effect]
  refine runDone_of_ready ?_ (by rwa [hparams, hlen])
  rwa [runReady, hklen, hcbv]

/-! ## The obligations -/

/-- Settles O31: no check fails, so RUN leaves its closed form; without an observer its events are the calls. -/
theorem runClosedForm : Obligations.RunClosedForm := by
  intro s hready hfit
  obtain ⟨hframe, houtput⟩ := runDone_of_ready (c := Config.actual) hready hfit
  refine ⟨_, exec_eq .run s, hframe, houtput, fun hobs => ?_⟩
  rw [effect, runCommand_of_ready hready hfit, finish_events, putOut_events, ctrRun_events_unobserved _ _ hobs, inBytes_length]
  rfl

/-- Settles O32: both outputs are an exclusive or with the same keystream byte, which cancels. -/
theorem runTwiceGivesInputBack : Obligations.RunTwiceGivesInputBack := by
  intro s t s' t' h hdone h' hparams hkey hklen hcb hcbv hlen hinput
  obtain ⟨hrun, hrun'⟩ := runDone_of_equal_checks h hdone h' hparams hklen hcbv hlen
  refine ⟨hrun'.st, hrun'.outLen.trans hlen, fun k hk => ?_⟩
  rw [hrun'.output k (hlen ▸ hk), hinput k hk, hrun.output k hk, runSchedule_congr hkey hklen, hcb, BitVec.xor_assoc,
    BitVec.xor_self, BitVec.xor_zero]

/-- Settles O33: the keystream byte is the same in both runs and cancels from the difference of the outputs. -/
theorem runPropagatesNoError : Obligations.RunPropagatesNoError := by
  intro s t s' t' h hdone h' hparams hkey hklen hcb hcbv hlen
  obtain ⟨hrun, hrun'⟩ := runDone_of_equal_checks h hdone h' hparams hklen hcbv hlen
  refine ⟨hrun'.st, hrun'.err, fun k hk => ?_⟩
  rw [hrun'.output k (hlen ▸ hk), hrun.output k hk, runSchedule_congr hkey hklen, hcb]
  generalize keystreamByte _ _ _ k = o
  rw [BitVec.xor_comm (s'.inp.get _ k) o, BitVec.xor_assoc, ← BitVec.xor_assoc o, BitVec.xor_self, BitVec.zero_xor]

/-- Settles O34: an empty input has no block, so the run is the schedule and the end of a RUN. -/
theorem runOnEmptyInput : Obligations.RunOnEmptyInput := by
  intro s hready hlen
  have hfit : fits s.params s.inLen.toNat = true := by
    rw [hlen]
    exact fits_zero s.params
  have hrun := runDone_of_ready (c := Config.actual) hready hfit
  have hevents : (runCommand Config.actual s).events = s.events ++ [.keyExpansion (theKey s)] := by
    rw [runCommand_of_ready hready hfit, finish_events, putOut_events, ctrRun_events, inBytes_length, hlen]
    rfl
  have hcb : counterBlockAt s.cb ((s.inLen.toNat + 15) / 16) = s.cb := by
    rw [hlen]
    exact counterBlockAt_zero s.cb
  have hframe := hrun.frame
  rw [hevents, hcb] at hframe
  refine ⟨_, exec_eq .run s, ?_⟩
  rw [← hlen]
  exact hframe

/-- Settles O35: the first run ends at T(m), m its number of blocks, and the keystream goes on from there. -/
theorem runSplitAtBlockBoundary : Obligations.RunSplitAtBlockBoundary := by
  intro s1 t1 s2 t2 s t h1 h2 h hdone1 hdone2 hdone hkey1 hklen1 hcb1 hkey2 hklen2 hcb2 hmul hlen hinput1 hinput2
  obtain ⟨-, -, hrun1⟩ := runDone_of_exec h1 hdone1
  obtain ⟨-, -, hrun2⟩ := runDone_of_exec h2 hdone2
  obtain ⟨-, -, hrun⟩ := runDone_of_exec h hdone
  obtain ⟨m, hm⟩ : ∃ m, s1.inLen.toNat = 16 * m := ⟨s1.inLen.toNat / 16, by omega⟩
  have hstart : s2.cb = counterBlockAt s.cb m := by
    rw [hcb2, hrun1.cb, hcb1, show (s1.inLen.toNat + 15) / 16 = m by omega]
  refine ⟨?_, fun k hk => ?_, fun k hk => ?_⟩
  · have hblocks : m + (s2.inLen.toNat + 15) / 16 = (s.inLen.toNat + 15) / 16 := by omega
    rw [hrun2.cb, hrun.cb, hstart, counterBlockAt_counterBlockAt, hblocks]
  · rw [hrun1.output k hk, hrun.output k (by omega), hinput1 k hk, runSchedule_congr hkey1 hklen1, hcb1]
  · rw [hrun2.output k hk, hrun.output _ (by omega), hinput2 k hk, runSchedule_congr hkey2 hklen2, hstart,
      keystreamByte_counterBlockAt, hm]

end Sys2Proof.Machine
end

