-- ==== Sys2Proof/Proofs/ProgressSignals.lean ====
section
/-! Progress signals (spec/42_ctr_engine.md R172): the ones in the events of a run are among the due ones, and a command sends none
but those of its run (spec/44_composite.md R230, R231). -/

namespace Sys2Proof.Machine

/-! ## The signals of a run -/

/-- The signals that a run of `n` bytes from `s` may send (R172). -/
def allowedSignals (s : State) (n : Nat) : List Event := if s.obsEn then dueSignals s.params ((n + 15) / 16) else []

/-- A block's events hold its signal and no other. -/
theorem filter_blockEvents (c : Config) (s : State) (i : Nat) : (blockEvents c s i).filter isProgress = signalAfter c s i := by
  rw [blockEvents, List.filter_cons_of_neg (by simp [isProgress]), signalAfter]
  split <;> rfl

theorem flatMap_if_singleton {α β : Type} (p : α → Bool) (f : α → β) (l : List α) :
    (l.flatMap fun a => if p a then [f a] else []) = (l.filter p).map f := by
  induction l with
  | nil => rfl
  | cons a l ih =>
    rw [List.flatMap_cons, ih, List.filter_cons]
    split <;> rfl

/-- The signals of a run of `n` blocks are some of the due ones, in order, and none while CTL.OBS_EN is 0 (R172). -/
theorem signals_sublist (c : Config) (s : State) (n : Nat) :
    ((List.range n).flatMap (signalAfter c (loopStart c n s))).Sublist (if s.obsEn then dueSignals s.params n else []) := by
  have hsignal : signalAfter c (loopStart c n s) = fun i =>
      if s.obsEn && (i + 1) % progressInterval s.params == 0 && c.progressShown (s.draws + i) then [.progress (i + 1) n]
      else [] := by
    funext i
    simp [signalAfter, progressDue, loopStart, ceExpand]
  rw [hsignal, flatMap_if_singleton]
  cases s.obsEn with
  | false => simp
  | true => exact (List.monotone_filter_right _ fun j hj => (Bool.and_eq_true_iff.mp hj).1).map _

/-! ## The signals between two states -/

/-- `t` comes from `s` with no progress signals but some of `due`, in order. -/
def Signals (s t : State) (due : List Event) : Prop :=
  ∃ es, t.events = s.events ++ es ∧ (es.filter isProgress).Sublist due

namespace Signals

variable {s t u : State} {due : List Event}

theorem of_events_eq (h : t.events = s.events) : Signals s t due := ⟨[], by simp [h], by simp⟩

/-- A part of a command that sends no signal, and a part that follows it. -/
theorem trans (h : Signals s t []) (h' : Signals t u due) : Signals s u due := by
  obtain ⟨es, he, hes⟩ := h
  obtain ⟨es', he', hes'⟩ := h'
  refine ⟨es ++ es', by rw [he', he, List.append_assoc], ?_⟩
  rwa [List.filter_append, List.sublist_nil.mp hes, List.nil_append]

/-- An update that appends no event. -/
theorem silent (h : Signals s t due) (he : u.events = t.events) : Signals s u due := by
  rwa [Signals, he]

theorem filter_eq_nil (h : Signals s t []) : ∃ es, t.events = s.events ++ es ∧ es.filter isProgress = [] := by
  simpa only [Signals, List.sublist_nil] using h

end Signals

section
variable (c : Config) (n : Nat) (pw : List Byte) (s : State)

theorem signals_ctrRun (x : List Byte) : Signals s (ctrRun c x s).2 (allowedSignals s x.length) := by
  refine ⟨_, ctrRun_events c x s, ?_⟩
  rw [List.filter_cons_of_neg (by simp [isProgress]), List.filter_flatMap, funext (filter_blockEvents c _)]
  exact signals_sublist c s (blockCount x.length)

theorem signals_deriveKey : Signals s (deriveKey c pw n s) [] :=
  ⟨_, List.append_assoc s.events [_] [_], by simp [isProgress]⟩

theorem signals_generate : Signals s (generate c s) [] := ⟨_, generate_events c s, by simp [isProgress]⟩

/-- In lines 5 to 8 of ENCRYPT the run over the plaintext alone sends signals (R230). -/
theorem signals_encryptBody (plain : List Byte) :
    Signals s (encryptBody c n plain pw s).2 (allowedSignals s plain.length) :=
  have hload : Signals s (loadCounter (generate c (deriveKey c pw n s))) [] :=
    ((signals_deriveKey c n pw s).trans (signals_generate c _)).silent rfl
  hload.trans (signals_ctrRun c _ plain)

/-- In lines 7 to 9 of DECRYPT the run over the body alone sends signals (R231). -/
theorem signals_decryptBody (body : List Byte) :
    Signals s (decryptBody c n body pw s).2 (allowedSignals s body.length) :=
  have hload : Signals s (loadCounter (deriveKey c pw n s)) [] := (signals_deriveKey c n pw s).silent rfl
  hload.trans (signals_ctrRun c _ body)

end

/-! ## The signals of a command -/

section
variable (c : Config) (nb : Nat) (s : State)

theorem signals_runCommand : Signals s (runCommand c s) (allowedSignals s s.inLen.toNat) := by
  unfold runCommand
  split
  · exact .of_events_eq rfl
  split
  · exact .of_events_eq rfl
  split
  · exact .of_events_eq rfl
  have hrun := signals_ctrRun c s (inBytes c s)
  rw [inBytes_length] at hrun
  exact hrun.silent rfl

/-- The errors before line 5 send no signal; the plaintext is that of the text in TXT. -/
theorem signals_encryptCommand :
    Signals s (encryptCommand c nb s) (allowedSignals s (utf8All (txtText c s)).length) := by
  unfold encryptCommand
  split
  · exact .of_events_eq rfl
  split
  · exact .of_events_eq rfl
  split
  · exact .of_events_eq rfl
  rename_i plain hplain
  obtain ⟨rfl, -⟩ := utf8Scan_ok hplain
  split
  · exact .of_events_eq rfl
  rename_i pw _
  have hbody := signals_encryptBody c (keyBytes nb) pw s (utf8All (txtText c s))
  dsimp only
  split <;> exact hbody.silent rfl

/-- The errors before line 7 send no signal. -/
theorem signals_decryptCommand_of_ok {payload : List Byte} (h : b64Decode (b64Chars c s) = .ok payload) :
    Signals s (decryptCommand c nb s) (allowedSignals s (payload.length - 8)) := by
  unfold decryptCommand
  rw [h]
  split
  · exact .of_events_eq rfl
  split
  · exact .of_events_eq rfl
  dsimp only
  split
  · exact .of_events_eq rfl
  split
  · exact .of_events_eq rfl
  rename_i pw _
  have hsplit : Signals s (splitNonce payload s) [] := .of_events_eq rfl
  have hbody := hsplit.trans (signals_decryptBody c (keyBytes nb) pw (splitNonce payload s) (payload.drop 8))
  rw [List.length_drop] at hbody
  split <;> exact hbody.silent rfl

/-- Without a payload DECRYPT ends before its run. -/
theorem events_decryptCommand_of_error {e : ErrCode} (h : b64Decode (b64Chars c s) = .error e) :
    (decryptCommand c nb s).events = s.events := by
  unfold decryptCommand
  rw [h]
  split
  · rfl
  split <;> rfl

theorem signals_deriveCommand : Signals s (deriveCommand c nb s) [] := by
  unfold deriveCommand
  split
  · exact .of_events_eq rfl
  split
  · exact .of_events_eq rfl
  · exact (signals_deriveKey c _ _ s).silent rfl

end

/-! ## The obligation -/

/-- Settles O36: the signals of RUN, ENCRYPT and DECRYPT are those of their run; no other command sends one. -/
theorem progressSignalsAreDue : Obligations.ProgressSignalsAreDue := by
  intro i s t h
  obtain rfl := exec_next h
  cases i with
  | run => exact signals_runCommand Config.actual s
  | encrypt nb => exact signals_encryptCommand Config.actual nb s
  | decrypt nb =>
    cases hpayload : b64Decode (b64Chars Config.actual s) with
    | ok payload =>
      obtain ⟨es, hes, hsub⟩ := signals_decryptCommand_of_ok Config.actual nb s hpayload
      refine ⟨es, hes, fun payload' hpayload' => ?_, fun hnone => absurd rfl (hnone payload)⟩
      obtain rfl : payload = payload' := by simpa using hpayload'
      exact hsub
    | error e =>
      have hevents := events_decryptCommand_of_error Config.actual nb s hpayload
      exact ⟨[], hevents.trans (List.append_nil _).symm, nofun, fun _ => rfl⟩
  | derive nb => exact (signals_deriveCommand Config.actual nb s).filter_eq_nil
  | nonceGen => exact (signals_generate Config.actual s).filter_eq_nil
  | cbInit | utf8Enc | utf8Dec | b64Enc | b64Dec | clr =>
    exact ⟨[], by rw [(exec_leaves h).events_frame rfl (by simp), List.append_nil], rfl⟩

end Sys2Proof.Machine
end

