-- ==== Sys2Proof/Proofs/Observer.lean ====
section
/-! The observer (spec/42_ctr_engine.md R172): every part of a command, and so every command, leaves the same state whatever
CTL.OBS_EN is, but for OBS_EN itself and the event trace. -/

namespace Sys2Proof.Machine

/-! ## States under another observer -/

/-- The state with CTL.OBS_EN at `b` and the event trace `es`. -/
def State.observed (s : State) (b : Bool) (es : List Event) : State := { s with obsEn := b, events := es }

/-- An update that treats a state under another observer as it treats the state itself. -/
def ObserverBlind (f : State → State) : Prop :=
  ∀ (s : State) (b : Bool) (es : List Event), ∃ es', f (s.observed b es) = (f s).observed b es'

theorem ObserverBlind.comp {f g : State → State} (hg : ObserverBlind g) (hf : ObserverBlind f) :
    ObserverBlind fun s => g (f s) := by
  intro s b es
  obtain ⟨es', hf'⟩ := hf s b es
  simpa only [hf'] using hg (f s) b es'

/-- A check that the observer does not decide, and two updates blind to it. -/
theorem ObserverBlind.ite {p : State → Prop} [∀ s, Decidable (p s)] {f g : State → State}
    (hp : ∀ (s : State) (b : Bool) (es : List Event), p (s.observed b es) ↔ p s) (hf : ObserverBlind f)
    (hg : ObserverBlind g) : ObserverBlind fun s => if p s then f s else g s := by
  intro s b es
  by_cases h : p s
  · simpa only [if_pos h, if_pos ((hp s b es).mpr h)] using hf s b es
  · simpa only [if_neg h, if_neg (mt (hp s b es).mp h)] using hg s b es

section
variable (s : State) (b : Bool) (es : List Event)
@[simp] theorem observed_nonce : (s.observed b es).nonce = s.nonce := rfl
@[simp] theorem observed_params : (s.observed b es).params = s.params := rfl
@[simp] theorem pwtText_observed (c : Config) : pwtText c (s.observed b es) = pwtText c s := rfl
@[simp] theorem txtText_observed (c : Config) : txtText c (s.observed b es) = txtText c s := rfl
@[simp] theorem inBytes_observed (c : Config) : inBytes c (s.observed b es) = inBytes c s := rfl
@[simp] theorem b64Chars_observed (c : Config) : b64Chars c (s.observed b es) = b64Chars c s := rfl
@[simp] theorem splitNonce_observed (payload : List Byte) :
    splitNonce payload (s.observed b es) = (splitNonce payload s).observed b es := rfl
end

/-! ## The parts of the commands -/

section
variable (c : Config)

theorem raise_blind (e : ErrCode) : ObserverBlind (raise e) := fun _ _ es => ⟨es, rfl⟩

theorem deriveKey_blind (pw : List Byte) (n : Nat) : ObserverBlind (deriveKey c pw n) := fun _ _ _ => ⟨_, rfl⟩

theorem generate_blind : ObserverBlind (generate c) := fun _ _ _ => ⟨_, rfl⟩

theorem loadCounter_blind : ObserverBlind loadCounter := fun _ _ es => ⟨es, rfl⟩

/-- The observer decides on the signal of a block only; the choice whether a due one appears is drawn either way (R172). -/
theorem ctrBlock_blind (ks : Schedule) : ObserverBlind (ctrBlock c ks) := fun _ _ _ => ⟨_, rfl⟩

theorem ctrLoop_observed {ks : Schedule} (k : Nat) (x : List Byte) (s : State) (hs : s.ks = some ks) (b : Bool)
    (es : List Event) :
    ∃ es', ctrLoop c k x (s.observed b es) = ((ctrLoop c k x s).1, (ctrLoop c k x s).2.observed b es') := by
  induction k generalizing x s es with
  | zero => exact ⟨es, rfl⟩
  | succ k ih =>
    obtain ⟨es', hblock⟩ := ctrBlock_blind c ks s b es
    obtain ⟨es'', hrest⟩ := ih (x.drop 16) (ctrBlock c ks s) hs es'
    refine ⟨es'', ?_⟩
    rw [ctrLoop_succ c k x (s := s.observed b es) hs, ctrLoop_succ c k x hs, hblock, hrest]
    rfl

variable (x pw : List Byte) (n : Nat) (s : State) (b : Bool) (es : List Event)

theorem ctrRun_observed :
    ∃ es', ctrRun c x (s.observed b es) = ((ctrRun c x s).1, (ctrRun c x s).2.observed b es') := by
  obtain ⟨es', hloop⟩ := ctrLoop_observed c (blockCount x.length) x (loopStart c (blockCount x.length) s) rfl b
    (es ++ [.keyExpansion (theKey s)])
  exact ⟨es', congrArg (fun r => (r.1, ceEnd c r.2)) hloop⟩

theorem encryptBody_observed :
    ∃ es', encryptBody c n x pw (s.observed b es) = ((encryptBody c n x pw s).1, (encryptBody c n x pw s).2.observed b es') := by
  obtain ⟨es', hload⟩ := (loadCounter_blind.comp ((generate_blind c).comp (deriveKey_blind c pw n))) s b es
  dsimp only at hload
  rw [encryptBody, hload]
  exact ctrRun_observed c x _ b es'

theorem decryptBody_observed :
    ∃ es', decryptBody c n x pw (s.observed b es) = ((decryptBody c n x pw s).1, (decryptBody c n x pw s).2.observed b es') := by
  obtain ⟨es', hload⟩ := (loadCounter_blind.comp (deriveKey_blind c pw n)) s b es
  dsimp only at hload
  rw [decryptBody, hload]
  exact ctrRun_observed c x _ b es'

end

/-! ## The commands -/

section
variable (c : Config) (nb : Nat)

theorem deriveCommand_blind : ObserverBlind (deriveCommand c nb) := by
  unfold deriveCommand
  refine .ite (fun _ _ _ => Iff.rfl) (raise_blind _) ?_
  refine .ite (fun _ _ _ => Iff.rfl) (raise_blind _) ?_
  exact fun _ _ _ => ⟨_, rfl⟩

theorem cbInitCommand_blind : ObserverBlind cbInitCommand := by
  unfold cbInitCommand
  exact .ite (fun _ _ _ => Iff.rfl) (raise_blind _) fun _ _ es => ⟨es, rfl⟩

theorem runCommand_blind : ObserverBlind (runCommand c) := by
  unfold runCommand
  refine .ite (fun _ _ _ => Iff.rfl) (raise_blind _) ?_
  refine .ite (fun _ _ _ => Iff.rfl) (raise_blind _) ?_
  refine .ite (fun _ _ _ => Iff.rfl) (raise_blind _) ?_
  intro s b es
  obtain ⟨es', hrun⟩ := ctrRun_observed c (inBytes c s) s b es
  dsimp only [inBytes_observed]
  rw [hrun]
  exact ⟨es', rfl⟩

theorem utf8EncCommand_blind : ObserverBlind (utf8EncCommand c) := by
  unfold utf8EncCommand
  refine .ite (fun _ _ _ => Iff.rfl) (raise_blind _) ?_
  intro s b es
  dsimp only [observed_params, txtText_observed]
  cases utf8Encode s.params (txtText c s) <;> exact ⟨es, rfl⟩

theorem utf8DecCommand_blind : ObserverBlind (utf8DecCommand c) := by
  unfold utf8DecCommand
  refine .ite (fun _ _ _ => Iff.rfl) (raise_blind _) ?_
  intro s b es
  dsimp only [observed_params, inBytes_observed]
  cases utf8Decode c s.params (inBytes c s) <;> exact ⟨es, rfl⟩

theorem b64EncCommand_blind : ObserverBlind (b64EncCommand c) := by
  unfold b64EncCommand
  exact .ite (fun _ _ _ => Iff.rfl) (raise_blind _) fun _ _ es => ⟨es, rfl⟩

theorem b64DecCommand_blind : ObserverBlind (b64DecCommand c) := by
  unfold b64DecCommand
  refine .ite (fun _ _ _ => Iff.rfl) (raise_blind _) ?_
  intro s b es
  dsimp only [b64Chars_observed]
  cases b64Decode (b64Chars c s) <;> exact ⟨es, rfl⟩

theorem encryptCommand_blind : ObserverBlind (encryptCommand c nb) := by
  unfold encryptCommand
  refine .ite (fun _ _ _ => Iff.rfl) (raise_blind _) ?_
  refine .ite (fun _ _ _ => Iff.rfl) (raise_blind _) ?_
  intro s b es
  dsimp only [observed_params, txtText_observed, pwtText_observed]
  cases utf8Encode s.params (txtText c s) with
  | error e => exact ⟨es, rfl⟩
  | ok plain =>
    cases utf8Encode s.params (pwtText c s) with
    | error e => exact ⟨es, rfl⟩
    | ok pw =>
      obtain ⟨es', hbody⟩ := encryptBody_observed c plain pw (keyBytes nb) s b es
      dsimp only
      rw [hbody, observed_params, observed_nonce]
      generalize encryptBody c (keyBytes nb) plain pw s = r
      cases b64Encode r.2.params (r.2.nonce.toList ++ r.1) <;> exact ⟨es', rfl⟩

theorem decryptCommand_blind : ObserverBlind (decryptCommand c nb) := by
  unfold decryptCommand
  refine .ite (fun _ _ _ => Iff.rfl) (raise_blind _) ?_
  refine .ite (fun _ _ _ => Iff.rfl) (raise_blind _) ?_
  intro s b es
  dsimp only [b64Chars_observed]
  cases b64Decode (b64Chars c s) with
  | error e => exact ⟨es, rfl⟩
  | ok payload =>
    dsimp only
    split
    · exact ⟨es, rfl⟩
    rw [splitNonce_observed, observed_params, pwtText_observed]
    cases utf8Encode (splitNonce payload s).params (pwtText c (splitNonce payload s)) with
    | error e => exact ⟨es, rfl⟩
    | ok pw =>
      obtain ⟨es', hbody⟩ := decryptBody_observed c (payload.drop 8) pw (keyBytes nb) (splitNonce payload s) b es
      dsimp only
      rw [hbody, observed_params]
      generalize decryptBody c (keyBytes nb) (payload.drop 8) pw (splitNonce payload s) = r
      cases utf8Decode c r.2.params r.1 <;> exact ⟨es', rfl⟩

end

theorem effect_blind (c : Config) (i : Instr) : ObserverBlind (effect c i) := by
  cases i with
  | derive nb => exact deriveCommand_blind c nb
  | nonceGen => exact fun _ _ _ => ⟨_, rfl⟩
  | cbInit => exact cbInitCommand_blind
  | run => exact runCommand_blind c
  | utf8Enc => exact utf8EncCommand_blind c
  | utf8Dec => exact utf8DecCommand_blind c
  | b64Enc => exact b64EncCommand_blind c
  | b64Dec => exact b64DecCommand_blind c
  | encrypt nb => exact encryptCommand_blind c nb
  | decrypt nb => exact decryptCommand_blind c nb
  | clr => exact fun _ _ es => ⟨es, rfl⟩

/-! ## The obligation -/

/-- Settles O22: the effect of every command is blind to the observer. -/
theorem observerHasNoEffect : Obligations.ObserverHasNoEffect := by
  intro i s t b h
  obtain rfl := exec_next h
  obtain ⟨es, heffect⟩ := effect_blind Config.actual i s b s.events
  exact ⟨es, (exec_eq i _).trans (congrArg Host.Outcome.next heffect)⟩

end Sys2Proof.Machine
end

