-- ==== Sys2Proof/Proofs/Utf8Inverse.lean ====
section
/-! UTF-8 in both directions (spec/43_textcodec.md R200 to R203): the bytes of a scalar value as numbers, and that the rows of the
decoder's table are those bytes and nothing else, so that the strict decoder is the encoder's inverse. -/

namespace Sys2Proof.Machine

theorem isScalarValue_iff (e : Word) :
    isScalarValue e = true ↔ e.toNat ≤ 0xD7FF ∨ (0xE000 ≤ e.toNat ∧ e.toNat ≤ 0x10FFFF) := by
  simp [isScalarValue]

theorem scalarText_cons (e : Word) (text : List Word) :
    scalarText (e :: text) = true ↔ isScalarValue e = true ∧ scalarText text = true := by
  simp [scalarText]

theorem utf8All_cons (e : Word) (text : List Word) : utf8All (e :: text) = utf8Bytes e ++ utf8All text := rfl

/-! ## The encoder's bytes as numbers -/

/-- The bytes of a scalar value are those of R201's table. -/
theorem utf8Bytes_toNat {e : Word} (he : isScalarValue e = true) : (utf8Bytes e).map BitVec.toNat = utf8Pattern e.toNat := by
  have hmax := (isScalarValue_iff e).mp he
  unfold utf8Bytes utf8Pattern
  split
  case isTrue h1 =>
    simp only [List.map_cons, List.map_nil, BitVec.toNat_setWidth]
    rw [Nat.mod_eq_of_lt (by omega)]
  split
  case isTrue h2 =>
    have hlead : (leadByte 0xC0 e 6).toNat = 0xC0 + e.toNat / 2 ^ 6 := leadByte_toNat 6 5 e 6 (by omega) (by omega)
    simp only [List.map_cons, List.map_nil, hlead, contByte_toNat, pow_zero, Nat.div_one]
  split
  case isTrue h3 =>
    have hlead : (leadByte 0xE0 e 12).toNat = 0xE0 + e.toNat / 2 ^ 12 := leadByte_toNat 14 4 e 12 (by omega) (by omega)
    simp only [List.map_cons, List.map_nil, hlead, contByte_toNat, pow_zero, Nat.div_one]
  case isFalse h3 =>
    have hlead : (leadByte 0xF0 e 18).toNat = 0xF0 + e.toNat / 2 ^ 18 := leadByte_toNat 30 3 e 18 (by omega) (by omega)
    simp only [List.map_cons, List.map_nil, hlead, contByte_toNat, pow_zero, Nat.div_one]

/-- A byte sequence is that of a scalar value exactly when its numbers are those of the table (R201). -/
theorem utf8Bytes_eq_iff {e : Word} (he : isScalarValue e = true) (bs : List Byte) :
    utf8Bytes e = bs ↔ bs.map BitVec.toNat = utf8Pattern e.toNat := by
  rw [← utf8Bytes_toNat he, (List.map_injective_iff.mpr fun _ _ => BitVec.eq_of_toNat_eq).eq_iff, eq_comm]

theorem utf8Pattern_length (v : Nat) :
    (utf8Pattern v).length = if v < 0x80 then 1 else if v < 0x800 then 2 else if v < 0x10000 then 3 else 4 := by
  simp only [utf8Pattern, ← Nat.lt_succ_iff]
  split
  · rfl
  split
  · rfl
  split <;> rfl

theorem utf8Bytes_length {e : Word} (he : isScalarValue e = true) : (utf8Bytes e).length =
    if e.toNat < 0x80 then 1 else if e.toNat < 0x800 then 2 else if e.toNat < 0x10000 then 3 else 4 := by
  rw [← utf8Pattern_length, ← utf8Bytes_toNat he, List.length_map]

theorem utf8Bytes_ne_nil {e : Word} (he : isScalarValue e = true) : utf8Bytes e ≠ [] := by
  rw [← List.length_pos_iff, utf8Bytes_length he]
  split_ifs <;> omega

/-- A character below 0x80 is its own byte (R200). -/
theorem utf8Bytes_ascii {e : Word} (he : e.toNat < 0x80) : utf8Bytes e = [e.extractLsb' 0 8] := by
  rw [utf8Bytes, if_pos (by omega), BitVec.setWidth_eq_extractLsb' (by omega)]

theorem utf8All_ascii (text : List Word) (h : ∀ e ∈ text, e.toNat < 0x80) :
    utf8All text = text.map fun e => e.extractLsb' 0 8 := by
  induction text with
  | nil => rfl
  | cons e text ih =>
    obtain ⟨he, htext⟩ := List.forall_mem_cons.mp h
    rw [utf8All_cons, utf8Bytes_ascii he, ih htext]
    rfl

/-- Settles O38, from the table of R201. -/
theorem utf8LengthsAndAscii : Obligations.Utf8LengthsAndAscii :=
  ⟨utf8All_ascii, fun _ => utf8Bytes_toNat, fun _ => utf8Bytes_length, rfl, utf8All_cons⟩

/-! ## The decoder's values as numbers -/

/-- The low `k` bits of a byte, moved up by `sh`. -/
theorem fieldBits_toNat (k : Nat) (b : Byte) (sh : Nat) (hk : k ≤ 8) (hsh : k + sh ≤ 32) :
    (fieldBits (BitVec.ofNat 8 (2 ^ k - 1)) b sh).toNat = b.toNat % 2 ^ k * 2 ^ sh := by
  have hpow : 2 ^ k ≤ 2 ^ 8 := Nat.pow_le_pow_right (by omega) hk
  have hpos := Nat.two_pow_pos k
  have hfield : b.toNat % 2 ^ k * 2 ^ sh < 2 ^ 32 :=
    calc b.toNat % 2 ^ k * 2 ^ sh
      _ < 2 ^ k * 2 ^ sh := Nat.mul_lt_mul_of_pos_right (Nat.mod_lt _ hpos) (Nat.two_pow_pos sh)
      _ = 2 ^ (k + sh) := (pow_add 2 k sh).symm
      _ ≤ 2 ^ 32 := Nat.pow_le_pow_right (by omega) hsh
  have hbyte : b.toNat % 2 ^ k < 2 ^ 32 := by have := Nat.mod_lt b.toNat hpos; omega
  simp only [fieldBits, BitVec.toNat_shiftLeft, BitVec.toNat_setWidth, BitVec.toNat_and, BitVec.toNat_ofNat, Nat.shiftLeft_eq]
  rw [Nat.mod_eq_of_lt (show 2 ^ k - 1 < 2 ^ 8 by omega), Nat.and_two_pow_sub_one_eq_mod, Nat.mod_eq_of_lt hbyte,
    Nat.mod_eq_of_lt hfield]

/-- A field or-ed below another adds to it. -/
theorem toNat_or_of_dvd {n : Nat} (x y : Word) (hx : 2 ^ n ∣ x.toNat) (hy : y.toNat < 2 ^ n) :
    (x ||| y).toNat = x.toNat + y.toNat := by
  obtain ⟨a, ha⟩ := hx
  rw [BitVec.toNat_or, ha, Nat.two_pow_add_eq_or_of_lt hy]

section
variable (b0 b1 b2 b3 : Byte)

theorem utf8Value_two : (fieldBits 0x1F b0 6 ||| fieldBits 0x3F b1 0).toNat = b0.toNat % 32 * 64 + b1.toNat % 64 := by
  have h0 : (fieldBits 0x1F b0 6).toNat = b0.toNat % 32 * 64 := fieldBits_toNat 5 b0 6 (by omega) (by omega)
  have h1 : (fieldBits 0x3F b1 0).toNat = b1.toNat % 64 * 1 := fieldBits_toNat 6 b1 0 (by omega) (by omega)
  rw [toNat_or_of_dvd (n := 6) _ _ (by omega) (by omega), h0, h1, Nat.mul_one]

theorem utf8Value_three : (fieldBits 0x0F b0 12 ||| fieldBits 0x3F b1 6 ||| fieldBits 0x3F b2 0).toNat =
    b0.toNat % 16 * 4096 + b1.toNat % 64 * 64 + b2.toNat % 64 := by
  have h0 : (fieldBits 0x0F b0 12).toNat = b0.toNat % 16 * 4096 := fieldBits_toNat 4 b0 12 (by omega) (by omega)
  have h1 : (fieldBits 0x3F b1 6).toNat = b1.toNat % 64 * 64 := fieldBits_toNat 6 b1 6 (by omega) (by omega)
  have h2 : (fieldBits 0x3F b2 0).toNat = b2.toNat % 64 * 1 := fieldBits_toNat 6 b2 0 (by omega) (by omega)
  have h01 := toNat_or_of_dvd (n := 12) (fieldBits 0x0F b0 12) (fieldBits 0x3F b1 6) (by omega) (by omega)
  rw [toNat_or_of_dvd (n := 6) _ _ (by omega) (by omega), h01, h0, h1, h2, Nat.mul_one]

theorem utf8Value_four :
    (fieldBits 0x07 b0 18 ||| fieldBits 0x3F b1 12 ||| fieldBits 0x3F b2 6 ||| fieldBits 0x3F b3 0).toNat =
      b0.toNat % 8 * 262144 + b1.toNat % 64 * 4096 + b2.toNat % 64 * 64 + b3.toNat % 64 := by
  have h0 : (fieldBits 0x07 b0 18).toNat = b0.toNat % 8 * 262144 := fieldBits_toNat 3 b0 18 (by omega) (by omega)
  have h1 : (fieldBits 0x3F b1 12).toNat = b1.toNat % 64 * 4096 := fieldBits_toNat 6 b1 12 (by omega) (by omega)
  have h2 : (fieldBits 0x3F b2 6).toNat = b2.toNat % 64 * 64 := fieldBits_toNat 6 b2 6 (by omega) (by omega)
  have h3 : (fieldBits 0x3F b3 0).toNat = b3.toNat % 64 * 1 := fieldBits_toNat 6 b3 0 (by omega) (by omega)
  have h01 := toNat_or_of_dvd (n := 18) (fieldBits 0x07 b0 18) (fieldBits 0x3F b1 12) (by omega) (by omega)
  have h012 := toNat_or_of_dvd (n := 12) (fieldBits 0x07 b0 18 ||| fieldBits 0x3F b1 12) (fieldBits 0x3F b2 6)
    (by omega) (by omega)
  rw [toNat_or_of_dvd (n := 6) _ _ (by omega) (by omega), h012, h01, h0, h1, h2, h3, Nat.mul_one]

end

/-! ## The rows of the decoder -/

/-- The table of R203, rows of one length taken together. -/
theorem utf8Row_eq_some_iff (b0 : Byte) (n lo hi : Nat) : utf8Row b0 = some (n, lo, hi) ↔
    (b0.toNat ≤ 0x7F ∧ n = 0 ∧ lo = 0 ∧ hi = 0) ∨
    (0xC2 ≤ b0.toNat ∧ b0.toNat ≤ 0xDF ∧ n = 1 ∧ lo = 0x80 ∧ hi = 0xBF) ∨
    (0xE0 ≤ b0.toNat ∧ b0.toNat ≤ 0xEF ∧ n = 2 ∧
      lo = (if b0.toNat = 0xE0 then 0xA0 else 0x80) ∧ hi = if b0.toNat = 0xED then 0x9F else 0xBF) ∨
    (0xF0 ≤ b0.toNat ∧ b0.toNat ≤ 0xF4 ∧ n = 3 ∧
      lo = (if b0.toNat = 0xF0 then 0x90 else 0x80) ∧ hi = if b0.toNat = 0xF4 then 0x8F else 0xBF) := by
  simp only [utf8Row]
  generalize b0.toNat = b
  split_ifs <;> simp <;> omega

theorem inRange_iff (lo hi : Nat) (b : Byte) : inRange lo hi b = true ↔ lo ≤ b.toNat ∧ b.toNat ≤ hi := by
  simp [inRange]

/-! ## The rows of R203 are the bytes of R201

The ranges of the second byte leave out the values that have a shorter form, the surrogates and the values above 0x10FFFF. -/

theorem utf8Pattern_one_iff (v x0 : Nat) : [x0] = utf8Pattern v ↔ x0 ≤ 0x7F ∧ v = x0 := by
  unfold utf8Pattern
  split_ifs <;> simp <;> omega

theorem utf8Pattern_two_iff (v x0 x1 : Nat) : [x0, x1] = utf8Pattern v ↔
    (0xC2 ≤ x0 ∧ x0 ≤ 0xDF) ∧ (0x80 ≤ x1 ∧ x1 ≤ 0xBF) ∧ v = x0 % 32 * 64 + x1 % 64 := by
  unfold utf8Pattern
  split_ifs <;> simp <;> omega

theorem utf8Pattern_three_iff (v x0 x1 x2 : Nat) :
    [x0, x1, x2] = utf8Pattern v ∧ (v ≤ 0xD7FF ∨ (0xE000 ≤ v ∧ v ≤ 0x10FFFF)) ↔
    (0xE0 ≤ x0 ∧ x0 ≤ 0xEF) ∧ ((if x0 = 0xE0 then 0xA0 else 0x80) ≤ x1 ∧ x1 ≤ if x0 = 0xED then 0x9F else 0xBF) ∧
      (0x80 ≤ x2 ∧ x2 ≤ 0xBF) ∧ v = x0 % 16 * 4096 + x1 % 64 * 64 + x2 % 64 := by
  unfold utf8Pattern
  split_ifs <;> simp <;> omega

theorem utf8Pattern_four_iff (v x0 x1 x2 x3 : Nat) :
    [x0, x1, x2, x3] = utf8Pattern v ∧ (v ≤ 0xD7FF ∨ (0xE000 ≤ v ∧ v ≤ 0x10FFFF)) ↔
    (0xF0 ≤ x0 ∧ x0 ≤ 0xF4) ∧ ((if x0 = 0xF0 then 0x90 else 0x80) ≤ x1 ∧ x1 ≤ if x0 = 0xF4 then 0x8F else 0xBF) ∧
      (0x80 ≤ x2 ∧ x2 ≤ 0xBF) ∧ (0x80 ≤ x3 ∧ x3 ≤ 0xBF) ∧
      v = x0 % 8 * 262144 + x1 % 64 * 4096 + x2 % 64 * 64 + x3 % 64 := by
  unfold utf8Pattern
  split_ifs <;> simp <;> omega

/-! ## The first scalar value of a byte sequence -/

theorem startsWith_of_pattern {e : Word} {bs : List Byte} (hpattern : bs.map BitVec.toNat = utf8Pattern e.toNat)
    (hvalue : e.toNat ≤ 0xD7FF ∨ (0xE000 ≤ e.toNat ∧ e.toNat ≤ 0x10FFFF)) (rest : List Byte) :
    isScalarValue e = true ∧ bs ++ rest = utf8Bytes e ++ rest := by
  have he := (isScalarValue_iff e).mpr hvalue
  exact ⟨he, by rw [(utf8Bytes_eq_iff he bs).mpr hpattern]⟩

/-- What the decoder reads first is a scalar value, and the bytes that it took are the encoder's (R203). -/
theorem of_utf8First_eq_some {l rest : List Byte} {e : Word} (h : utf8First l = some (e, rest)) :
    isScalarValue e = true ∧ l = utf8Bytes e ++ rest := by
  unfold utf8First at h
  split at h
  case h_1 => cases h
  rename_i b0 t
  split at h
  case h_1 hrow =>
    cases h
    have hb0 := (utf8Row_eq_some_iff ..).mp hrow
    have hvalue : (b0.setWidth 32).toNat = b0.toNat := by simp; omega
    have hpattern := (utf8Pattern_one_iff _ b0.toNat).mpr ⟨by omega, hvalue⟩
    exact startsWith_of_pattern (bs := [b0]) hpattern (by omega) _
  case h_2 lo hi b1 t hrow =>
    split at h
    case isFalse => cases h
    rename_i hb1
    cases h
    rw [inRange_iff] at hb1
    have hb0 := (utf8Row_eq_some_iff ..).mp hrow
    have hvalue := utf8Value_two b0 b1
    have hpattern := (utf8Pattern_two_iff _ b0.toNat b1.toNat).mpr ⟨by omega, by omega, hvalue⟩
    exact startsWith_of_pattern (bs := [b0, b1]) hpattern (by omega) _
  case h_3 lo hi b1 b2 t hrow =>
    split at h
    case isFalse => cases h
    rename_i hrange
    cases h
    simp only [Bool.and_eq_true, inRange_iff] at hrange
    have hb0 := (utf8Row_eq_some_iff ..).mp hrow
    obtain ⟨hpattern, hvalue⟩ := (utf8Pattern_three_iff _ b0.toNat b1.toNat b2.toNat).mpr
      ⟨by omega, by omega, by omega, utf8Value_three b0 b1 b2⟩
    exact startsWith_of_pattern (bs := [b0, b1, b2]) hpattern hvalue _
  case h_4 lo hi b1 b2 b3 t hrow =>
    split at h
    case isFalse => cases h
    rename_i hrange
    cases h
    simp only [Bool.and_eq_true, inRange_iff] at hrange
    have hb0 := (utf8Row_eq_some_iff ..).mp hrow
    obtain ⟨hpattern, hvalue⟩ := (utf8Pattern_four_iff _ b0.toNat b1.toNat b2.toNat b3.toNat).mpr
      ⟨by omega, by omega, by omega, by omega, utf8Value_four b0 b1 b2 b3⟩
    exact startsWith_of_pattern (bs := [b0, b1, b2, b3]) hpattern hvalue _
  case h_5 => cases h

/-- The bytes of a scalar value are read back first, whatever follows (R203). -/
theorem utf8First_utf8Bytes {e : Word} (he : isScalarValue e = true) (rest : List Byte) :
    utf8First (utf8Bytes e ++ rest) = some (e, rest) := by
  have hpattern := utf8Bytes_toNat he
  have hvalue := (isScalarValue_iff e).mp he
  have hlength := utf8Bytes_length he
  match hbytes : utf8Bytes e with
  | [] => exact absurd hbytes (utf8Bytes_ne_nil he)
  | [b0] =>
    rw [hbytes] at hpattern
    obtain ⟨h0, hv⟩ := (utf8Pattern_one_iff ..).mp hpattern
    have hrow := (utf8Row_eq_some_iff b0 0 0 0).mpr (by omega)
    have heq : b0.setWidth 32 = e := BitVec.eq_of_toNat_eq (by simp; omega)
    simp [utf8First, hrow, heq]
  | [b0, b1] =>
    rw [hbytes] at hpattern
    obtain ⟨h0, h1, hv⟩ := (utf8Pattern_two_iff ..).mp hpattern
    have hrow := (utf8Row_eq_some_iff b0 1 0x80 0xBF).mpr (by omega)
    have heq := BitVec.eq_of_toNat_eq ((utf8Value_two b0 b1).trans hv.symm)
    simp only [List.cons_append, List.nil_append, utf8First, hrow, (inRange_iff ..).mpr h1, heq, if_true]
  | [b0, b1, b2] =>
    rw [hbytes] at hpattern
    obtain ⟨h0, h1, h2, hv⟩ := (utf8Pattern_three_iff ..).mp ⟨hpattern, hvalue⟩
    have hrow := (utf8Row_eq_some_iff b0 2 _ _).mpr (.inr (.inr (.inl ⟨h0.1, h0.2, rfl, rfl, rfl⟩)))
    have heq := BitVec.eq_of_toNat_eq ((utf8Value_three b0 b1 b2).trans hv.symm)
    simp only [List.cons_append, List.nil_append, utf8First, hrow, (inRange_iff ..).mpr h1, (inRange_iff ..).mpr h2, heq,
      Bool.and_self, if_true]
  | [b0, b1, b2, b3] =>
    rw [hbytes] at hpattern
    obtain ⟨h0, h1, h2, h3, hv⟩ := (utf8Pattern_four_iff ..).mp ⟨hpattern, hvalue⟩
    have hrow := (utf8Row_eq_some_iff b0 3 _ _).mpr (.inr (.inr (.inr ⟨h0.1, h0.2, rfl, rfl, rfl⟩)))
    have heq := BitVec.eq_of_toNat_eq ((utf8Value_four b0 b1 b2 b3).trans hv.symm)
    simp only [List.cons_append, List.nil_append, utf8First, hrow, (inRange_iff ..).mpr h1, (inRange_iff ..).mpr h2,
      (inRange_iff ..).mpr h3, heq, Bool.and_self, if_true]
  | _ :: _ :: _ :: _ :: _ :: _ =>
    rw [hbytes, List.length_cons, List.length_cons, List.length_cons, List.length_cons, List.length_cons] at hlength
    split_ifs at hlength <;> omega

theorem utf8First_eq_some_iff {l rest : List Byte} {e : Word} :
    utf8First l = some (e, rest) ↔ isScalarValue e = true ∧ utf8Bytes e ++ rest = l := by
  constructor
  · intro h
    obtain ⟨he, hl⟩ := of_utf8First_eq_some h
    exact ⟨he, hl.symm⟩
  · rintro ⟨he, rfl⟩
    exact utf8First_utf8Bytes he rest

/-! ## The strict decoder -/

theorem scalarText_utf8All_nil_iff {text : List Word} : scalarText text = true ∧ utf8All text = [] ↔ text = [] := by
  cases text with
  | nil => simp [scalarText, utf8All]
  | cons e text =>
    rw [scalarText_cons, utf8All_cons, List.append_eq_nil_iff]
    simp only [reduceCtorEq, iff_false]
    rintro ⟨⟨he, _⟩, hbytes, _⟩
    exact utf8Bytes_ne_nil he hbytes

theorem utf8Rows_nil_eq_some_iff {fuel : Nat} {text : List Word} :
    utf8Rows fuel [] = some text ↔ scalarText text = true ∧ utf8All text = [] := by
  have hnil : utf8Rows fuel [] = some [] := by cases fuel <;> rfl
  rw [hnil, scalarText_utf8All_nil_iff]
  exact Option.some_inj.trans eq_comm

theorem utf8Rows_cons_eq_some_iff {fuel : Nat} {b : Byte} {t : List Byte} {text : List Word} :
    utf8Rows (fuel + 1) (b :: t) = some text ↔
      ∃ e es rest, utf8First (b :: t) = some (e, rest) ∧ utf8Rows fuel rest = some es ∧ e :: es = text := by
  rw [utf8Rows]
  split
  case h_1 h => simp [h]
  case h_2 e rest h => simp [h]

/-- Each row takes a byte at least. -/
theorem length_lt_of_utf8Bytes_append {e : Word} {rest l : List Byte} (he : isScalarValue e = true)
    (hl : utf8Bytes e ++ rest = l) : rest.length < l.length := by
  have hpos := List.length_pos_iff.mpr (utf8Bytes_ne_nil he)
  rw [← hl, List.length_append]
  omega

/-- As many rows as there are bytes suffice. -/
theorem utf8Rows_eq_some_iff {fuel : Nat} {b : List Byte} {text : List Word} (hfuel : b.length ≤ fuel) :
    utf8Rows fuel b = some text ↔ scalarText text = true ∧ utf8All text = b := by
  induction fuel generalizing b text with
  | zero =>
    obtain rfl : b = [] := List.length_eq_zero_iff.mp (by omega)
    exact utf8Rows_nil_eq_some_iff
  | succ fuel ih =>
    cases b with
    | nil => exact utf8Rows_nil_eq_some_iff
    | cons b t =>
      rw [utf8Rows_cons_eq_some_iff]
      constructor
      · rintro ⟨e, es, rest, hfirst, hrest, rfl⟩
        obtain ⟨he, hl⟩ := utf8First_eq_some_iff.mp hfirst
        have hshort := length_lt_of_utf8Bytes_append he hl
        obtain ⟨hes, hbytes⟩ := (ih (by omega)).mp hrest
        exact ⟨(scalarText_cons e es).mpr ⟨he, hes⟩, by rw [utf8All_cons, hbytes, hl]⟩
      · rintro ⟨hscalar, hl⟩
        cases text with
        | nil => cases hl
        | cons e es =>
          obtain ⟨he, hes⟩ := (scalarText_cons e es).mp hscalar
          rw [utf8All_cons] at hl
          have hshort := length_lt_of_utf8Bytes_append he hl
          exact ⟨e, es, utf8All es, utf8First_eq_some_iff.mpr ⟨he, hl⟩, (ih (by omega)).mpr ⟨hes, rfl⟩, rfl⟩

/-- Settles O37: the strict decoder has a row for every byte. -/
theorem utf8DecoderIsInverse : Obligations.Utf8DecoderIsInverse := fun _ _ => utf8Rows_eq_some_iff (Nat.le_refl _)

end Sys2Proof.Machine
end

