-- ==== Sys2Proof/Proofs/Base64Canonical.lean ====
section
/-! The canonical Base64 strings (spec/43_textcodec.md R207 to R209) are the encoder's strings: a canonical string is cut into its
6-bit digits and its padding, and the digits are put together to bytes. -/

namespace Sys2Proof.Machine

/-! ## The digits and the padding of a string -/

/-- An alphabet character is the one of its index (R206). -/
theorem b64Char_of_b64Index {ch : Byte} {v : BitVec 6} (h : b64Index ch = some v) : b64Char v = ch := by
  have hall : ∀ ch : Byte, ∀ v ∈ b64Index ch, b64Char v = ch := by decide
  exact hall ch v h

/-- The padding that the decoder counts stands at the end of the string (R207). -/
theorem exists_append_b64Pads (str : List Byte) : ∃ front, str = front ++ List.replicate (b64Pads str) b64Pad := by
  obtain ⟨rev, rfl⟩ : ∃ rev : List Byte, str = rev.reverse := ⟨str.reverse, str.reverse_reverse.symm⟩
  unfold b64Pads
  rw [List.reverse_reverse]
  match rev with
  | [] => exact ⟨[], rfl⟩
  | [x] =>
    dsimp only
    split
    case isTrue h => exact ⟨[], by rw [h]; rfl⟩
    case isFalse h => exact ⟨[x], rfl⟩
  | x :: y :: t =>
    dsimp only
    split_ifs with hx hy
    · exact ⟨t.reverse, by simp [hx, hy, List.replicate]⟩
    · exact ⟨t.reverse ++ [y], by simp [hx, List.replicate]⟩
    · exact ⟨t.reverse ++ [y, x], by simp⟩

theorem b64Pads_le_two (str : List Byte) : b64Pads str ≤ 2 := by
  unfold b64Pads
  split
  · split_ifs <;> omega
  · split_ifs <;> omega
  · omega

/-- Characters of the alphabet are the characters of digits (R206). -/
theorem exists_map_b64Char {front : List Byte} (h : ∀ ch ∈ front, (b64Index ch).isSome = true) :
    ∃ vs : List (BitVec 6), vs.map b64Char = front := by
  induction front with
  | nil => exact ⟨[], rfl⟩
  | cons ch front ih =>
    obtain ⟨hch, hfront⟩ := List.forall_mem_cons.mp h
    obtain ⟨v, hv⟩ := Option.isSome_iff_exists.mp hch
    obtain ⟨vs, rfl⟩ := ih hfront
    exact ⟨v :: vs, by rw [List.map_cons, b64Char_of_b64Index hv]⟩

/-- Digits before `p` pads with no bit set that no byte fills (R208 c, d). -/
def spareBitsZero (vs : List (BitVec 6)) (p : Nat) : Prop :=
  ∀ v ∈ vs.getLast?, (p = 1 → v.toNat % 4 = 0) ∧ (p = 2 → v.toNat % 16 = 0)

/-- A canonical string is digits and then padding, with the spare bits zero (R208). -/
theorem digits_of_b64Canonical {str : List Byte} (h : b64Canonical str = true) : ∃ vs : List (BitVec 6),
    str = vs.map b64Char ++ List.replicate (b64Pads str) b64Pad ∧ (vs.length + b64Pads str) % 4 = 0 ∧
      spareBitsZero vs (b64Pads str) := by
  obtain ⟨front, hstr⟩ := exists_append_b64Pads str
  have hlength : str.length = front.length + b64Pads str := by
    conv_lhs => rw [hstr, List.length_append, List.length_replicate]
  have htake : str.take (str.length - b64Pads str) = front := by
    conv_lhs => arg 2; rw [hstr]
    exact List.take_left' (by omega)
  simp only [b64Canonical, b64LastIndex, htake, Bool.and_eq_true, beq_iff_eq, List.all_eq_true, Bool.or_eq_true, bne_iff_ne,
    ← imp_iff_not_or] at h
  obtain ⟨⟨⟨hmod, halphabet⟩, hone⟩, htwo⟩ := h
  obtain ⟨vs, rfl⟩ := exists_map_b64Char halphabet
  refine ⟨vs, hstr, by simpa [hlength] using hmod, fun v hv => ?_⟩
  have hlast : (((vs.map b64Char).getLast?).bind b64Index) = some v := by
    rw [List.getLast?_map, Option.mem_def.mp hv]
    exact b64Index_b64Char v
  rw [hlast] at hone htwo
  exact ⟨hone, htwo⟩

/-! ## Bytes of digits -/

/-- Four 6-bit digits as one group (R205). -/
def b64Join (v0 v1 v2 v3 : BitVec 6) : BitVec 24 :=
  BitVec.ofNat 24 (v0.toNat * 2 ^ 18 + v1.toNat * 2 ^ 12 + v2.toNat * 2 ^ 6 + v3.toNat)

theorem b64Join_toNat (v0 v1 v2 v3 : BitVec 6) :
    (b64Join v0 v1 v2 v3).toNat = v0.toNat * 2 ^ 18 + v1.toNat * 2 ^ 12 + v2.toNat * 2 ^ 6 + v3.toNat := by
  rw [b64Join, BitVec.toNat_ofNat]
  omega

/-- The digits of a group of digits. -/
theorem b64Join_digits (v0 v1 v2 v3 : BitVec 6) :
    (b64Join v0 v1 v2 v3).extractLsb' 18 6 = v0 ∧ (b64Join v0 v1 v2 v3).extractLsb' 12 6 = v1 ∧
      (b64Join v0 v1 v2 v3).extractLsb' 6 6 = v2 ∧ (b64Join v0 v1 v2 v3).extractLsb' 0 6 = v3 := by
  refine ⟨?_, ?_, ?_, ?_⟩ <;> apply BitVec.eq_of_toNat_eq <;>
    rw [BitVec.extractLsb'_toNat, b64Join_toNat, Nat.shiftRight_eq_div_pow] <;> omega

/-- Three bytes put together again (R65). -/
theorem b64Group_extract (v : BitVec 24) : b64Group (v.extractLsb' 16 8) (v.extractLsb' 8 8) (v.extractLsb' 0 8) = v := by
  apply BitVec.eq_of_toNat_eq
  simp only [b64Group_toNat, b64Value24, BitVec.extractLsb'_toNat, Nat.shiftRight_eq_div_pow]
  omega

/-- The low bytes of a group whose low digits are zero (R205). -/
theorem b64Join_low_byte {v0 v1 v2 : BitVec 6} (h : v2.toNat % 4 = 0) : (b64Join v0 v1 v2 0).extractLsb' 0 8 = 0 := by
  apply BitVec.eq_of_toNat_eq
  rw [BitVec.extractLsb'_toNat, b64Join_toNat, Nat.shiftRight_eq_div_pow]
  simp
  omega

theorem b64Join_middle_byte {v0 v1 : BitVec 6} (h : v1.toNat % 16 = 0) : (b64Join v0 v1 0 0).extractLsb' 8 8 = 0 := by
  apply BitVec.eq_of_toNat_eq
  rw [BitVec.extractLsb'_toNat, b64Join_toNat, Nat.shiftRight_eq_div_pow]
  simp
  omega

/-- Digits with as many pads as fill the last group are those of some bytes (R205, R208). -/
theorem exists_b64Sextets (vs : List (BitVec 6)) {p : Nat} (hp : p ≤ 2) (hmod : (vs.length + p) % 4 = 0)
    (hspare : spareBitsZero vs p) : ∃ b, b64Sextets b = vs ∧ b64PadCount b.length = p := by
  match vs with
  | [] => exact ⟨[], rfl, by simp [b64PadCount] at hmod ⊢; omega⟩
  | [_] => simp at hmod; omega
  | [v0, v1] =>
    obtain rfl : p = 2 := by simp at hmod; omega
    obtain ⟨h0, h1, _, _⟩ := b64Join_digits v0 v1 0 0
    have hgroup := b64Group_extract (b64Join v0 v1 0 0)
    rw [b64Join_middle_byte ((hspare v1 rfl).2 rfl), b64Join_low_byte rfl] at hgroup
    exact ⟨[_], by rw [b64Sextets, hgroup, h0, h1], rfl⟩
  | [v0, v1, v2] =>
    obtain rfl : p = 1 := by simp at hmod; omega
    obtain ⟨h0, h1, h2, _⟩ := b64Join_digits v0 v1 v2 0
    have hgroup := b64Group_extract (b64Join v0 v1 v2 0)
    rw [b64Join_low_byte ((hspare v2 rfl).1 rfl)] at hgroup
    exact ⟨[_, _], by rw [b64Sextets, hgroup, h0, h1, h2], rfl⟩
  | v0 :: v1 :: v2 :: v3 :: t =>
    have htail : spareBitsZero t p := by
      intro v hv
      refine hspare v ?_
      cases t with
      | nil => cases hv
      | cons x xs => simpa [List.getLast?_cons] using hv
    obtain ⟨b, hb, hpads⟩ := exists_b64Sextets t hp (by simp at hmod; omega) htail
    obtain ⟨h0, h1, h2, h3⟩ := b64Join_digits v0 v1 v2 v3
    have hgroup := b64Group_extract (b64Join v0 v1 v2 v3)
    refine ⟨_ :: _ :: _ :: b, by rw [b64Sextets, hgroup, h0, h1, h2, h3, hb], ?_⟩
    simpa [Nat.add_assoc, b64PadCount_add_three] using hpads

/-! ## The decoder accepts the encoder's strings only -/

/-- The canonical strings are the encoder's (R207, R208). -/
theorem b64Canonical_iff (str : List Byte) : b64Canonical str = true ↔ ∃ b, b64String b = str := by
  constructor
  · intro h
    obtain ⟨vs, hstr, hmod, hspare⟩ := digits_of_b64Canonical h
    obtain ⟨b, hdigits, hpads⟩ := exists_b64Sextets vs (b64Pads_le_two str) hmod hspare
    exact ⟨b, by rw [b64String_eq_digits, hdigits, hpads, ← hstr]⟩
  · rintro ⟨b, rfl⟩
    exact b64Canonical_b64String b

theorem b64Decode_eq_ok_iff (str b : List Byte) : b64Decode str = .ok b ↔ b64String b = str := by
  constructor
  · intro h
    have hcanonical : b64Canonical str = true := by
      unfold b64Decode at h
      split at h
      · assumption
      · cases h
    obtain ⟨b', rfl⟩ := (b64Canonical_iff str).mp hcanonical
    rw [b64Decode_b64String] at h
    cases h
    rfl
  · rintro rfl
    exact b64Decode_b64String b

/-- A string that is no encoder's is malformed (R207). -/
theorem b64Decode_malformed {str : List Byte} (h : ∀ b, str ≠ b64String b) : b64Decode str = .error .malformedBase64 := by
  cases hdecode : b64Decode str with
  | ok b => exact absurd ((b64Decode_eq_ok_iff str b).mp hdecode).symm (h b)
  | error e => rw [b64Decode_error hdecode]

/-- Settles O44. -/
theorem b64DecodeOfEncode : Obligations.B64DecodeOfEncode := b64Decode_b64String

/-- Settles O45: a canonical string has the digits of some bytes and the padding that goes with them. -/
theorem b64DecoderAcceptsEncoderOutputs : Obligations.B64DecoderAcceptsEncoderOutputs :=
  fun str => ⟨b64Canonical_iff str, b64Decode_eq_ok_iff str⟩

end Sys2Proof.Machine
end

