-- ==== Sys2Proof/Proofs/TextCodecResults.lean ====
section
/-! UTF8ENC, UTF8DEC and B64DEC as the host sees them (spec/43_textcodec.md R200 to R208): what the scan of an
operand answers, and what each command then leaves. -/

namespace Sys2Proof.Machine

/-! ## UTF8ENC -/

/-- The scan goes on past scalar values whose bytes fit (R200). -/
theorem utf8Scan_append {p : Params} {pre post : List Word} {n : Nat} {e : ErrCode} (hpre : scalarText pre = true)
    (hfit : fits p (n + (utf8All pre).length) = true) (hpost : utf8Scan p post (n + (utf8All pre).length) = .error e) :
    utf8Scan p (pre ++ post) n = .error e := by
  induction pre generalizing n with
  | nil => exact hpost
  | cons x pre ih =>
    obtain ⟨hx, hpre⟩ := (scalarText_cons x pre).mp hpre
    rw [utf8All_cons, List.length_append, ← Nat.add_assoc] at hfit hpost
    have hfirst : fits p (n + (utf8Bytes x).length) = true := fits_mono hfit (by omega)
    rw [List.cons_append, utf8Scan, hx, hfirst, ih hpre hfit hpost]
    rfl

/-- The error of a scan is that of its first bad element (R200). -/
theorem utf8Encode_of_scanRaises {p : Params} {text : List Word} {e : ErrCode} (h : scanRaises p text e) :
    utf8Encode p text = .error e := by
  obtain ⟨pre, x, post, rfl, ⟨hpre, hfit⟩, hbad⟩ := h
  refine utf8Scan_append hpre (by simpa using hfit) ?_
  obtain ⟨hx, rfl⟩ | ⟨hx, hlong, rfl⟩ := hbad
  · simp [utf8Scan, hx]
  · have hfirst : fits p ((utf8All pre).length + (utf8Bytes x).length) = false := by simpa [utf8All] using hlong
    simp [utf8Scan, hx, hfirst]

/-- An element of a result read back (R40). -/
theorem Buffer.get_result_of_lt {w : Nat} (free : Nat → Nat → BitVec w) (gen : Nat) {vs : List (BitVec w)} {k : Nat}
    (hk : k < vs.length) : (Buffer.result gen vs).get free k = vs.getD k 0 := by
  rw [Buffer.get_result]
  simp [List.getD_eq_getElem?_getD, hk]

theorem resultInOut_putOut (c : Config) (bs : List Byte) (s : State) : resultInOut c (finish (putOut c bs s)) bs :=
  ⟨fun _ hk => Buffer.get_result_of_lt _ _ hk, fun h => lengthReg_toNat _ _ _ h⟩

/-- Settles O39: no check fails, so UTF8ENC leaves the bytes of the text. -/
theorem utf8EncResult : Obligations.Utf8EncResult := by
  intro s hfit hscalar hbytes
  have hscan := (utf8Encode_eq_ok_iff (fits_zero s.params)).mpr ⟨⟨hscalar, hbytes⟩, rfl⟩
  have hexec := exec_eq .utf8Enc s
  rw [effect, utf8EncCommand, hfit, hscan] at hexec
  exact ⟨_, hexec, rfl, resultInOut_putOut Config.actual _ s⟩

/-- Settles O40: the first bad element decides which error the scan raises. -/
theorem utf8EncScanErrors : Obligations.Utf8EncScanErrors := by
  intro s pre post e hfit htext hpre hprefit hbad
  have hraises : scanRaises s.params (txtText Config.actual s)
      (if isScalarValue e then .capacityExceeded else .invalidScalar) := by
    refine ⟨pre, e, post, htext, ⟨hpre, hprefit⟩, ?_⟩
    cases he : isScalarValue e with
    | false => exact .inl ⟨rfl, rfl⟩
    | true => exact .inr ⟨rfl, hbad.resolve_left (by simp [he]), rfl⟩
  have hexec := exec_eq .utf8Enc s
  rw [effect, utf8EncCommand, hfit, utf8Encode_of_scanRaises hraises] at hexec
  exact ⟨_, hexec, rfl, rfl⟩

/-! ## UTF8DEC -/

/-- Every element of a text has a byte at least. -/
theorem length_le_utf8All {text : List Word} (h : scalarText text = true) : text.length ≤ (utf8All text).length := by
  induction text with
  | nil => exact Nat.le_refl 0
  | cons e text ih =>
    obtain ⟨he, htext⟩ := (scalarText_cons e text).mp h
    have hpos := List.length_pos_iff.mpr (utf8Bytes_ne_nil he)
    have hrest := ih htext
    rw [utf8All_cons, List.length_append, List.length_cons]
    omega

section
variable {c : Config} {p : Params} {b : List Byte}

theorem utf8Decode_wellFormed {text : List Word} (htext : scalarText text = true) (hfit : fits p text.length = true) :
    utf8Decode c p (utf8All text) = .ok text := by
  have hstrict : utf8Strict (utf8All text) = some text := (utf8DecoderIsInverse _ _).mpr ⟨htext, rfl⟩
  simp [utf8Decode, utf8Text, hstrict, hfit]

/-- Malformed bytes: no text has them as its encoding (R203). -/
theorem utf8Strict_malformed (h : ∀ text, scalarText text = true → utf8All text ≠ b) : utf8Strict b = none := by
  cases hstrict : utf8Strict b with
  | none => rfl
  | some text =>
    obtain ⟨htext, hbytes⟩ := (utf8DecoderIsInverse b text).mp hstrict
    exact absurd hbytes (h text htext)

section
variable (h : ∀ text, scalarText text = true → utf8All text ≠ b)
include h

theorem utf8Decode_malformed_fail (hp : p.policy = .fail) : utf8Decode c p b = .error .malformedUtf8 := by
  simp [utf8Decode, utf8Text, utf8Strict_malformed h, hp]

theorem utf8Decode_malformed_replace (hp : p.policy = .replace)
    (hfit : fits p ((c.utf8Replace b).map Scalar.val).length = true) :
    utf8Decode c p b = .ok ((c.utf8Replace b).map Scalar.val) := by
  simp only [utf8Decode, utf8Text, utf8Strict_malformed h, hp, hfit, if_true]

theorem utf8Decode_malformed_overlong (hp : p.policy = .replace)
    (hfit : fits p ((c.utf8Replace b).map Scalar.val).length = false) :
    utf8Decode c p b = .error .capacityExceeded := by
  simp only [utf8Decode, utf8Text, utf8Strict_malformed h, hp, hfit, Bool.false_eq_true, if_false]

end

end

/-- A replacement text is made of scalar values (R204). -/
theorem scalarText_map_val (l : List Scalar) : scalarText (l.map Scalar.val) = true := by
  simp [scalarText, Scalar.ok]

theorem resultInTxt_putTxt (c : Config) (text : List Word) (s : State) : resultInTxt c (finish (putTxt c text s)) text :=
  ⟨fun _ hk => Buffer.get_result_of_lt _ _ hk, fun h => lengthReg_toNat _ _ _ h⟩

section
variable {s : State} (hfit : fits s.params s.inLen.toNat = true)
include hfit

theorem exec_utf8Dec_of_ok {text : List Word} (h : utf8Decode Config.actual s.params (inBytes Config.actual s) = .ok text) :
    exec .utf8Dec s = .next (finish (putTxt Config.actual text s)) := by
  rw [exec_eq, effect, utf8DecCommand, hfit, h]
  rfl

theorem exec_utf8Dec_of_error {e : ErrCode} (h : utf8Decode Config.actual s.params (inBytes Config.actual s) = .error e) :
    exec .utf8Dec s = .next (raise e (voidTxt s)) := by
  rw [exec_eq, effect, utf8DecCommand, hfit, h]
  rfl

end

/-- Settles O41: a text is no longer than its bytes, so it fits where they do. -/
theorem utf8DecResult : Obligations.Utf8DecResult := by
  intro s text hfit htext hbytes
  have hlength : text.length ≤ s.inLen.toNat := by
    rw [← inBytes_length (c := Config.actual), hbytes]
    exact length_le_utf8All htext
  have hdecode : utf8Decode Config.actual s.params (inBytes Config.actual s) = .ok text := by
    rw [hbytes]
    exact utf8Decode_wellFormed htext (fits_mono hfit hlength)
  refine ⟨_, exec_utf8Dec_of_ok hfit hdecode, rfl, ?_⟩
  exact txtText_putTxt Config.actual text s (Nat.lt_of_le_of_lt hlength s.inLen.isLt)

/-- Settles O42, by what `utf8Decode` answers under each policy. -/
theorem utf8DecMalformed : Obligations.Utf8DecMalformed := by
  intro s hfit hmalformed
  refine ⟨fun hpolicy => ?_, fun hpolicy => ⟨scalarText_map_val _, fun hshort => ?_, fun hlong => ?_⟩⟩
  · exact ⟨_, exec_utf8Dec_of_error hfit (utf8Decode_malformed_fail hmalformed hpolicy), rfl, rfl⟩
  · exact ⟨_, exec_utf8Dec_of_ok hfit (utf8Decode_malformed_replace hmalformed hpolicy hshort), rfl,
      resultInTxt_putTxt _ _ s⟩
  · exact ⟨_, exec_utf8Dec_of_error hfit (utf8Decode_malformed_overlong hmalformed hpolicy hlong), rfl, rfl⟩

/-! ## B64DEC -/

theorem length_le_b64String (b : List Byte) : b.length ≤ (b64String b).length := by
  rw [b64String_length, b64Length]
  omega

/-- Settles O46: a string is the encoder's or it is malformed, and the bytes are no more than its characters. -/
theorem b64DecResult : Obligations.B64DecResult := by
  intro s hfit
  have hcommand := exec_eq .b64Dec s
  rw [effect, b64DecCommand, hfit] at hcommand
  refine ⟨fun b hchars => ?_, fun hmalformed => ?_⟩
  · have hlength : b.length ≤ s.b64Len.toNat :=
      calc b.length
        _ ≤ (b64Chars Config.actual s).length := by rw [hchars]; exact length_le_b64String b
        _ = s.b64Len.toNat := Buffer.memRead_length _ _ _
    rw [hchars, b64Decode_b64String] at hcommand
    exact ⟨_, hcommand, rfl, outBytes_putOut Config.actual b s (Nat.lt_of_le_of_lt hlength s.b64Len.isLt)⟩
  · rw [b64Decode_malformed hmalformed] at hcommand
    exact hcommand

end Sys2Proof.Machine
end

