-- ==== Sys2Proof/Proofs/DecryptText.lean ====
section
/-! DECRYPT up to the decoding of the decrypted bytes (spec/44_composite.md R231, R233, R238): with its checks passed, what
`utf8Decode` answers of those bytes alone decides what it leaves. -/

namespace Sys2Proof.Machine

/-! ## Lines 5 to 9 -/

/-- The output of lines 7 to 9 of DECRYPT: the CTR transform under the derived Key, from a fresh counter block (R145, R177). -/
theorem decryptBody_output (c : Config) {n : Nat} (hn : n = 16 ∨ n = 24 ∨ n = 32) (body pw : List Byte) (s : State) :
    (decryptBody c n body pw s).1 = ctrTransform c (c.keyExpansion (derivedKey c pw n)) (freshBlock s.nonce) body := by
  have hkey : runSchedule c (loadCounter (deriveKey c pw n s)) = c.keyExpansion (derivedKey c pw n) :=
    congrArg c.keyExpansion (theKey_deriveKey c hn pw s)
  rw [decryptBody, ctrRun_output, hkey]
  rfl

/-! ## When only the decoding is left -/

/-- No check of DECRYPT up to its line 6 fails, and the payload is a nonce and a body (R74, R94, R200, R207, R231). -/
structure DecryptReady (c : Config) (nb : Nat) (s : State) (nonce : Vector Byte 8) (body : List Byte) : Prop where
  keySize : keySizeOk nb = true
  b64Fits : fits s.params s.b64Len.toNat = true
  pwtFits : fits s.params s.pwtLen.toNat = true
  payload : b64Chars c s = b64String (nonce.toList ++ body)
  password : scanSucceeds s.params (pwtText c s)

/-- The bytes that DECRYPT decrypts a body to (R177, R231). -/
def decryptedBytes (c : Config) (nb : Nat) (s : State) (nonce : Vector Byte 8) (body : List Byte) : List Byte :=
  ctrTransform c (callSchedule c nb s) (freshBlock nonce) body

/-- The state after lines 5 to 9 of DECRYPT. -/
def afterDecryption (c : Config) (nb : Nat) (s : State) (nonce : Vector Byte 8) (body : List Byte) : State :=
  (decryptBody c (keyBytes nb) body (utf8All (pwtText c s)) { s with nonce := nonce, nv := true }).2

theorem splitNonce_append (nonce : Vector Byte 8) (body : List Byte) (s : State) :
    splitNonce (nonce.toList ++ body) s = { s with nonce := nonce, nv := true } := by
  have hpack : packBytes 8 (nonce.toList ++ body) = nonce := by
    apply Vector.toList_inj.mp
    rw [packBytes_toList, padTo_append_of_length 0 _ _ 8 8 (by simp) (by omega), List.take_of_length_le (by simp)]
  rw [splitNonce, hpack]

section
variable {c : Config} {nb : Nat} {s : State} {nonce : Vector Byte 8} {body : List Byte}

theorem afterDecryption_nonce : (afterDecryption c nb s nonce body).nonce = nonce := by simp [afterDecryption, decryptBody]

theorem afterDecryption_nv : (afterDecryption c nb s nonce body).nv = true := by simp [afterDecryption, decryptBody]

theorem afterDecryption_params : (afterDecryption c nb s nonce body).params = s.params := by
  simp [afterDecryption, decryptBody]

/-- Lines 1 to 9 of DECRYPT succeed; what is left is line 10, the decoding of the decrypted bytes (R231). -/
theorem decryptCommand_of_ready (h : DecryptReady c nb s nonce body) :
    (∀ text, utf8Decode c s.params (decryptedBytes c nb s nonce body) = .ok text →
      decryptCommand c nb s = finish (discard (putTxt c text (afterDecryption c nb s nonce body)))) ∧
    (∀ e, utf8Decode c s.params (decryptedBytes c nb s nonce body) = .error e →
      decryptCommand c nb s = decryptFail e (afterDecryption c nb s nonce body)) := by
  have hpayload : b64Decode (b64Chars c s) = .ok (nonce.toList ++ body) := by rw [h.payload, b64Decode_b64String]
  have hlength : ¬ (nonce.toList ++ body).length < 8 := by simp
  have hbody : (nonce.toList ++ body).drop 8 = body := List.drop_left' (by simp)
  have hpassword := (utf8Encode_eq_ok_iff (fits_zero s.params)).mpr ⟨h.password, rfl⟩
  have houtput : (decryptBody c (keyBytes nb) body (utf8All (pwtText c s)) { s with nonce := nonce, nv := true }).1 =
      decryptedBytes c nb s nonce body := decryptBody_output c (keyBytes_of_ok h.keySize) _ _ _
  have hline6 : utf8Encode (splitNonce (nonce.toList ++ body) s).params (pwtText c (splitNonce (nonce.toList ++ body) s)) =
      .ok (utf8All (pwtText c s)) := hpassword
  constructor
  all_goals
    intro r hr
    rw [← afterDecryption_params (c := c) (nb := nb) (nonce := nonce) (body := body), afterDecryption, ← houtput] at hr
    unfold decryptCommand
    rw [h.keySize, h.b64Fits, h.pwtFits, hpayload]
    simp only [Bool.not_true, Bool.and_self, Bool.false_eq_true, if_false, if_neg hlength, hbody]
    rw [hline6]
    simp only [splitNonce_append, hr, afterDecryption]

end

/-! ## The obligation -/

/-- Settles O49: however the decrypted bytes are decoded, the nonce is kept and the discard is done; the policy decides what
`utf8Decode` answers of malformed bytes. -/
theorem decryptOfMalformedText : Obligations.DecryptOfMalformedText := by
  intro nb s nonce body hk hb64 hpwt hpayload hscalar hpwFits hmalformed
  have hready : DecryptReady Config.actual nb s nonce body :=
    { keySize := keySizeOk_of_legal hk, b64Fits := hb64, pwtFits := hpwt, payload := hpayload
      password := ⟨hscalar, hpwFits⟩ }
  obtain ⟨hok, herror⟩ := decryptCommand_of_ready hready
  have hexec := exec_eq (.decrypt nb) s
  obtain ⟨hb64Kept, hb64LenKept⟩ := (exec_leaves hexec).b64_frame rfl
  have hkept : discarded (decryptCommand Config.actual nb s) ∧ (decryptCommand Config.actual nb s).nonce = nonce ∧
      (decryptCommand Config.actual nb s).nv = true := by
    cases hdecode : utf8Decode Config.actual s.params (decryptedBytes Config.actual nb s nonce body) with
    | ok text =>
      rw [hok text hdecode]
      exact ⟨discarded_discard _, afterDecryption_nonce, afterDecryption_nv⟩
    | error e =>
      rw [herror e hdecode]
      exact ⟨discarded_discard _, afterDecryption_nonce, afterDecryption_nv⟩
  obtain ⟨hdiscarded, hnonce, hnv⟩ := hkept
  refine ⟨_, hexec, compositeFrame_of_exec (by simp) hexec, hdiscarded, hb64Kept, hb64LenKept, hnonce, hnv, fun hpolicy => ?_,
    fun hpolicy => ⟨fun hshort => ?_, fun hlong => ?_⟩⟩
  · rw [effect, herror _ (utf8Decode_malformed_fail hmalformed hpolicy)]
    exact ⟨rfl, rfl, rfl, rfl⟩
  · rw [effect, hok _ (utf8Decode_malformed_replace hmalformed hpolicy hshort)]
    exact ⟨rfl, rfl, resultInTxt_putTxt Config.actual _ _⟩
  · rw [effect, herror _ (utf8Decode_malformed_overlong hmalformed hpolicy hlong)]
    exact ⟨rfl, rfl, rfl, rfl⟩

end Sys2Proof.Machine
end

