-- ==== Sys2Proof/Proofs/CompositeErrors.lean ====
section
/-! ENCRYPT and DECRYPT past their line 2 (spec/44_composite.md R230, R231, R233, R239, R241, spec/60_exceptions.md R270 c): each
ends in the discard or in a failure that does it, and each check that fails decides the failure. -/

namespace Sys2Proof.Machine

theorem discarded_encryptFail (e : ErrCode) (s : State) : discarded (encryptFail e s) := discarded_discard _

theorem discarded_decryptFail (e : ErrCode) (s : State) : discarded (decryptFail e s) := discarded_discard _

/-! ## ENCRYPT past its line 2 -/

section
variable {c : Config} {nb : Nat} {s : State} (hk : keySizeOk nb = true) (htxt : fits s.params s.txtLen.toNat = true)
  (hpwt : fits s.params s.pwtLen.toNat = true)
include hk htxt hpwt

/-- Past its line 2 ENCRYPT ends with the discard alone, or fails with it (R230). -/
theorem encryptCommand_ends :
    (∃ u, encryptCommand c nb s = finish (discard u)) ∨ ∃ e u, encryptCommand c nb s = encryptFail e u := by
  unfold encryptCommand
  rw [hk, htxt, hpwt]
  simp only [Bool.not_true, Bool.and_self, Bool.false_eq_true, if_false]
  split
  · exact .inr ⟨_, _, rfl⟩
  split
  · exact .inr ⟨_, _, rfl⟩
  split
  · exact .inr ⟨_, _, rfl⟩
  · exact .inl ⟨_, rfl⟩

theorem encryptCommand_of_txtScan_error {e : ErrCode} (h : utf8Encode s.params (txtText c s) = .error e) :
    encryptCommand c nb s = encryptFail e s := by
  simp [encryptCommand, hk, htxt, hpwt, h]

theorem encryptCommand_of_pwtScan_error {e : ErrCode} (hplain : scanSucceeds s.params (txtText c s))
    (h : utf8Encode s.params (pwtText c s) = .error e) : encryptCommand c nb s = encryptFail e s := by
  have hscan := (utf8Encode_eq_ok_iff (fits_zero s.params)).mpr ⟨hplain, rfl⟩
  simp [encryptCommand, hk, htxt, hpwt, hscan, h]

/-- The first error of the scan of TXT, then of PWT, ends ENCRYPT before any outside call (R230, R271). -/
theorem encryptCommand_of_scanRaises {e : ErrCode} (h : scanRaises s.params (txtText c s) e ∨
    scanSucceeds s.params (txtText c s) ∧ scanRaises s.params (pwtText c s) e) :
    encryptCommand c nb s = encryptFail e s := by
  obtain hraises | ⟨hplain, hraises⟩ := h
  · exact encryptCommand_of_txtScan_error hk htxt hpwt (utf8Encode_of_scanRaises hraises)
  · exact encryptCommand_of_pwtScan_error hk htxt hpwt hplain (utf8Encode_of_scanRaises hraises)

/-- A payload or a string longer than a buffer ends ENCRYPT after its run (R239, R269). -/
theorem encryptCommand_of_overlong (hplain : scanSucceeds s.params (txtText c s))
    (hpassword : scanSucceeds s.params (pwtText c s))
    (hlong : fits s.params (8 + (utf8All (txtText c s)).length) = false ∨
      fits s.params (b64Length (8 + (utf8All (txtText c s)).length)) = false) :
    encryptCommand c nb s = encryptFail .capacityExceeded (encryptRun c nb s).2 := by
  have hscanT := (utf8Encode_eq_ok_iff (fits_zero s.params)).mpr ⟨hplain, rfl⟩
  have hscanP := (utf8Encode_eq_ok_iff (fits_zero s.params)).mpr ⟨hpassword, rfl⟩
  have hstring : b64Encode (encryptRun c nb s).2.params ((encryptRun c nb s).2.nonce.toList ++ (encryptRun c nb s).1) =
      .error .capacityExceeded := by
    rw [encryptRun_payload hk, encryptRun_params, b64Encode, payloadOf_length]
    obtain h | h := hlong <;> simp [h]
  unfold encryptCommand
  rw [hk, htxt, hpwt, hscanT, hscanP]
  simp only [Bool.not_true, Bool.and_self, Bool.false_eq_true, if_false]
  rw [← encryptRun, hstring]

end

/-! ## DECRYPT past its line 2 -/

section
variable {c : Config} {nb : Nat} {s : State} (hk : keySizeOk nb = true) (hb64 : fits s.params s.b64Len.toNat = true)
  (hpwt : fits s.params s.pwtLen.toNat = true)
include hk hb64 hpwt

/-- Past its line 2 DECRYPT ends with the discard alone, or fails with it (R231). -/
theorem decryptCommand_ends :
    (∃ u, decryptCommand c nb s = finish (discard u)) ∨ ∃ e u, decryptCommand c nb s = decryptFail e u := by
  unfold decryptCommand
  rw [hk, hb64, hpwt]
  simp only [Bool.not_true, Bool.and_self, Bool.false_eq_true, if_false]
  split
  · exact .inr ⟨_, _, rfl⟩
  split
  · exact .inr ⟨_, _, rfl⟩
  split
  · exact .inr ⟨_, _, rfl⟩
  split
  · exact .inr ⟨_, _, rfl⟩
  · exact .inl ⟨_, rfl⟩

/-- A string that is not canonical has no payload (R265). -/
theorem decryptCommand_of_malformedBase64 (h : ∀ b, b64Chars c s ≠ b64String b) :
    decryptCommand c nb s = decryptFail .malformedBase64 s := by
  simp [decryptCommand, hk, hb64, hpwt, b64Decode_malformed h]

/-- A payload shorter than a nonce (R241, R266). -/
theorem decryptCommand_of_shortPayload {payload : List Byte} (h : b64Chars c s = b64String payload)
    (hshort : payload.length < 8) : decryptCommand c nb s = decryptFail .malformedPayload s := by
  simp [decryptCommand, hk, hb64, hpwt, h, b64Decode_b64String, hshort]

/-- The error of the scan of PWT ends DECRYPT with the payload's nonce split off and no outside call (R231). -/
theorem decryptCommand_of_scanRaises {nonce : Vector Byte 8} {body : List Byte} {e : ErrCode}
    (h : b64Chars c s = b64String (nonce.toList ++ body)) (hraises : scanRaises s.params (pwtText c s) e) :
    decryptCommand c nb s = decryptFail e { s with nonce := nonce, nv := true } := by
  have hlength : ¬ (nonce.toList ++ body).length < 8 := by simp
  have hscan : utf8Encode (splitNonce (nonce.toList ++ body) s).params (pwtText c (splitNonce (nonce.toList ++ body) s)) =
      .error e := utf8Encode_of_scanRaises hraises
  unfold decryptCommand
  rw [hk, hb64, hpwt, h, b64Decode_b64String]
  simp only [Bool.not_true, Bool.and_self, Bool.false_eq_true, if_false, if_neg hlength]
  rw [hscan]
  simp only [splitNonce_append]

end

/-! ## Scans without a capacity -/

section
variable {p : Params} (hp : p.maxLen = none)
include hp

theorem scanSucceeds_of_unbounded {text : List Word} (h : scalarText text = true) : scanSucceeds p text :=
  ⟨h, fits_of_unbounded hp _⟩

/-- Without a capacity the first element that is no scalar value is the first bad one (R200). -/
theorem scanRaises_of_unbounded {text : List Word} (h : scalarText text = false) : scanRaises p text .invalidScalar := by
  induction text with
  | nil => cases h
  | cons x text ih =>
    cases hx : isScalarValue x with
    | false => exact ⟨[], x, text, rfl, scanSucceeds_of_unbounded hp rfl, .inl ⟨hx, rfl⟩⟩
    | true =>
      have hrest : scalarText text = false := by simpa [scalarText, hx] using h
      obtain ⟨pre, y, post, rfl, ⟨hpre, -⟩, hbad⟩ := ih hrest
      have hscalar : scalarText (x :: pre) = true := (scalarText_cons x pre).mpr ⟨hx, hpre⟩
      refine ⟨x :: pre, y, post, rfl, scanSucceeds_of_unbounded hp hscalar, .inl ?_⟩
      exact hbad.resolve_right fun ⟨_, _, herr⟩ => nomatch herr

end

/-! ## The obligations -/

/-- Settles O53: past line 2 both commands do the discard, and a failure voids the result first. -/
theorem compositeDiscards : Obligations.CompositeDiscards := by
  intro nb s t hlegal hpwt
  have hk := keySizeOk_of_legal hlegal
  refine ⟨fun htxt hexec => ?_, fun hb64 hexec => ?_⟩
  · obtain rfl := exec_next hexec
    rw [effect]
    obtain ⟨u, hu⟩ | ⟨e, u, hu⟩ := encryptCommand_ends (c := Config.actual) hk htxt hpwt <;> rw [hu]
    · exact ⟨discarded_discard u, nofun⟩
    · exact ⟨discarded_encryptFail e u, fun _ => ⟨rfl, rfl⟩⟩
  · obtain rfl := exec_next hexec
    rw [effect]
    obtain ⟨u, hu⟩ | ⟨e, u, hu⟩ := decryptCommand_ends (c := Config.actual) hk hb64 hpwt <;> rw [hu]
    · exact ⟨discarded_discard u, nofun⟩
    · exact ⟨discarded_decryptFail e u, fun _ => ⟨rfl, rfl⟩⟩

/-- Settles O54: the string is the encoder's, of a payload that is too short, or it is malformed. -/
theorem decryptPayloadErrors : Obligations.DecryptPayloadErrors := by
  intro nb s hlegal hb64 hpwt hshort
  have hk := keySizeOk_of_legal hlegal
  have hexec := exec_eq (.decrypt nb) s
  have hframe := compositeFrame_of_exec (by simp) hexec
  by_cases hcanonical : ∃ b, b64Chars Config.actual s = b64String b
  · obtain ⟨b, hb⟩ := hcanonical
    rw [effect, decryptCommand_of_shortPayload hk hb64 hpwt hb (hshort b hb)] at hexec hframe
    exact ⟨_, hexec, hframe, discarded_decryptFail _ _, rfl, rfl, rfl, rfl, rfl, rfl, rfl, rfl, fun _ => rfl,
      fun hnone => absurd hb (hnone b)⟩
  · have hnone : ∀ b, b64Chars Config.actual s ≠ b64String b := not_exists.mp hcanonical
    rw [effect, decryptCommand_of_malformedBase64 hk hb64 hpwt hnone] at hexec hframe
    exact ⟨_, hexec, hframe, discarded_decryptFail _ _, rfl, rfl, rfl, rfl, rfl, rfl, rfl, rfl,
      fun hsome => absurd hsome hcanonical, fun _ => rfl⟩

/-- Settles O60: a scan fails before the first outside call; the payload and its string are encoded after the draw. -/
theorem compositeScanAndCapacityErrors : Obligations.CompositeScanAndCapacityErrors := by
  intro nb s hlegal hpwt
  have hk := keySizeOk_of_legal hlegal
  refine ⟨fun htxt => ⟨fun e hraises => ?_, fun hplain hpassword hlong => ?_⟩, fun hb64 nonce body e hpayload hraises => ?_⟩
  · have hexec := exec_eq (.encrypt nb) s
    have hframe := compositeFrame_of_exec (by simp) hexec
    rw [effect, encryptCommand_of_scanRaises hk htxt hpwt hraises] at hexec hframe
    exact ⟨_, hexec, hframe, discarded_encryptFail _ _, rfl, rfl, rfl, rfl, rfl, rfl, rfl, rfl, rfl⟩
  · obtain ⟨a, r, es, hnonce, hcount, hevents⟩ := encryptBody_calls Config.actual (keyBytes_of_ok hk)
      (utf8All (txtText Config.actual s)) (utf8All (pwtText Config.actual s)) s
    obtain ⟨hclock, hrng⟩ := filter_of_callCounts hcount
    have hexec := exec_eq (.encrypt nb) s
    have hframe := compositeFrame_of_exec (by simp) hexec
    obtain ⟨htxtKept, htxtLenKept⟩ := (exec_leaves hexec).txt_frame rfl
    have hlong' : fits s.params (8 + (utf8All (txtText Config.actual s)).length) = false ∨
        fits s.params (b64Length (8 + (utf8All (txtText Config.actual s)).length)) = false := by
      rwa [b64Length, Nat.add_right_comm]
    rw [effect, encryptCommand_of_overlong hk htxt hpwt hplain hpassword hlong'] at hexec hframe htxtKept htxtLenKept
    refine ⟨_, a, r, _, hexec, hframe, discarded_encryptFail _ _, rfl, rfl, rfl, rfl, hnonce, encryptRun_nv, hevents, ?_, ?_,
      htxtKept, htxtLenKept⟩
    · rw [List.filter_append, hclock]
      rfl
    · rw [List.filter_append, hrng]
      rfl
  · have hexec := exec_eq (.decrypt nb) s
    have hframe := compositeFrame_of_exec (by simp) hexec
    rw [effect, decryptCommand_of_scanRaises hk hb64 hpwt hpayload hraises] at hexec hframe
    exact ⟨_, hexec, hframe, discarded_decryptFail _ _, rfl, rfl, rfl, rfl, rfl, rfl, rfl, rfl, rfl⟩

/-- Settles O55: in an unbounded build the scans raise InvalidScalar at the first element that is no scalar value. -/
theorem compositeInvalidScalar : Obligations.CompositeInvalidScalar := by
  intro nb s hlegal hunbounded
  have hfits := fits_of_unbounded hunbounded
  obtain ⟨hencrypt, hdecrypt⟩ := compositeScanAndCapacityErrors nb s hlegal (hfits _)
  constructor
  · intro hbad
    have hraises : scanRaises s.params (txtText Config.actual s) .invalidScalar ∨
        scanSucceeds s.params (txtText Config.actual s) ∧
          scanRaises s.params (pwtText Config.actual s) .invalidScalar := by
      cases htext : scalarText (txtText Config.actual s) with
      | false => exact .inl (scanRaises_of_unbounded hunbounded htext)
      | true =>
        have hpassword := hbad.resolve_left (by simp [htext])
        exact .inr ⟨scanSucceeds_of_unbounded hunbounded htext, scanRaises_of_unbounded hunbounded hpassword⟩
    obtain ⟨t, hexec, hframe, hdiscarded, hst, herr, hlen, -, hrest⟩ := (hencrypt (hfits _)).1 _ hraises
    exact ⟨t, hexec, hframe, hdiscarded, hst, herr, hlen, hrest⟩
  · intro nonce body hpayload hpassword
    obtain ⟨t, hexec, hframe, hdiscarded, hst, herr, hlen, -, hrest⟩ :=
      hdecrypt (hfits _) nonce body _ hpayload (scanRaises_of_unbounded hunbounded hpassword)
    exact ⟨t, hexec, hframe, hdiscarded, hst, herr, hlen, hrest⟩

end Sys2Proof.Machine
end

