-- ==== Sys2Proof/Proofs/RoundTrip.lean ====
section
/-! DECRYPT of a well-formed text, and DECRYPT after ENCRYPT (spec/44_composite.md R231, R234, R236): the payload is read back from
the string, and the CTR transform is its own inverse. -/

namespace Sys2Proof.Machine

/-! ## DECRYPT of a well-formed text -/

section
variable {c : Config} {nb : Nat} {s : State} {nonce : Vector Byte 8} {body : List Byte} {text : List Word}

/-- A text whose bytes a body decrypts to is no longer than the string in B64. -/
theorem length_le_b64Len (hpayload : b64Chars c s = b64String (nonce.toList ++ body)) (htext : scalarText text = true)
    (hbytes : decryptedBytes c nb s nonce body = utf8All text) : text.length ≤ s.b64Len.toNat :=
  calc text.length
    _ ≤ (utf8All text).length := length_le_utf8All htext
    _ = body.length := by rw [← hbytes, decryptedBytes, ctrTransform_length]
    _ ≤ (nonce.toList ++ body).length := by simp
    _ ≤ (b64Chars c s).length := by rw [hpayload]; exact length_le_b64String _
    _ = s.b64Len.toNat := Buffer.memRead_length _ _ _

/-- DECRYPT of the bytes of a text puts the text in TXT, which holds it whole (R231, R233). -/
theorem decryptCommand_of_text (h : DecryptReady c nb s nonce body) (htext : scalarText text = true)
    (hbytes : decryptedBytes c nb s nonce body = utf8All text) :
    decryptCommand c nb s = finish (discard (putTxt c text (afterDecryption c nb s nonce body))) ∧
      txtText c (finish (discard (putTxt c text (afterDecryption c nb s nonce body)))) = text := by
  have hlength := length_le_b64Len h.payload htext hbytes
  have hdecode : utf8Decode c s.params (decryptedBytes c nb s nonce body) = .ok text := by
    rw [hbytes]
    exact utf8Decode_wellFormed htext (fits_mono h.b64Fits hlength)
  exact ⟨(decryptCommand_of_ready h).1 text hdecode,
    txtText_putTxt c text (afterDecryption c nb s nonce body) (Nat.lt_of_le_of_lt hlength s.b64Len.isLt)⟩

end

/-- Settles O48: no check fails, and the decrypted bytes decode to the text that they encode. -/
theorem decryptResult : Obligations.DecryptResult := by
  intro nb s nonce body text hlegal hb64 hpwt hpayload hpassword hpwFits htext hbytes
  have hready : DecryptReady Config.actual nb s nonce body :=
    { keySize := keySizeOk_of_legal hlegal, b64Fits := hb64, pwtFits := hpwt, payload := hpayload
      password := ⟨hpassword, hpwFits⟩ }
  obtain ⟨hcommand, htxt⟩ := decryptCommand_of_text hready htext hbytes
  have hexec := exec_eq (.decrypt nb) s
  have hframe := compositeFrame_of_exec (by simp) hexec
  obtain ⟨hb64Kept, hb64LenKept⟩ := (exec_leaves hexec).b64_frame rfl
  rw [effect, hcommand] at hexec hframe hb64Kept hb64LenKept
  exact ⟨_, hexec, rfl, rfl, rfl, hframe, discarded_discard _, hb64Kept, hb64LenKept, afterDecryption_nonce,
    afterDecryption_nv, htxt⟩

/-! ## What an ENCRYPT without error leaves in B64 -/

/-- The payload depends on the operands and the nonce alone (R236). -/
theorem payloadOf_congr (c : Config) (nb : Nat) {s s' : State} (htxt : txtText c s' = txtText c s)
    (hpwt : pwtText c s' = pwtText c s) (nonce : Vector Byte 8) : payloadOf c nb s' nonce = payloadOf c nb s nonce := by
  rw [payloadOf, callSchedule, htxt, hpwt, payloadOf, callSchedule]

/-- An ENCRYPT that ends without error had no check fail, and B64 then reads as the string of its payload (R101, R230). -/
theorem b64Chars_of_encrypt_done {nb : Nat} {s t : State} (hexec : exec (.encrypt nb) s = .next t) (hdone : t.st = .done)
    (hbound : 4 * ((10 + (utf8All (txtText Config.actual s)).length) / 3) < 2 ^ 32) :
    EncryptReady Config.actual nb s ∧
      b64Chars Config.actual t = b64String (payloadOf Config.actual nb s t.nonce) := by
  have ht := exec_next hexec
  have hready := encryptReady_of_done (ht ▸ hdone)
  rw [effect, encryptCommand_of_ready hready] at ht
  subst ht
  refine ⟨hready, b64Chars_putB64 Config.actual _ (encryptRun Config.actual nb s).2 ?_⟩
  rwa [b64String_length, payloadOf_length, b64Length, Nat.add_right_comm]

/-! ## ENCRYPT, then DECRYPT -/

/-- With the string of an ENCRYPT in B64 and its password in PWT, DECRYPT decrypts the body to the plaintext's bytes (R234). -/
theorem decryptedBytes_of_encrypted (c : Config) (nb : Nat) {s s' : State} (hpwt : pwtText c s' = pwtText c s)
    (nonce : Vector Byte 8) :
    decryptedBytes c nb s' nonce (ctrTransform c (callSchedule c nb s) (freshBlock nonce) (utf8All (txtText c s))) =
      utf8All (txtText c s) := by
  rw [decryptedBytes, callSchedule, hpwt, ← callSchedule, ctrTransform_twice]

/-- Where no check of ENCRYPT failed, none of DECRYPT up to its line 6 does on the same password and the payload's string. -/
theorem decryptReady_of_encryptReady {c : Config} {nb : Nat} {s s' : State} {nonce : Vector Byte 8}
    (h : EncryptReady c nb s) (hparams : s'.params = s.params) (hpwt : pwtText c s' = pwtText c s)
    (hpayload : b64Chars c s' = b64String (payloadOf c nb s nonce)) :
    DecryptReady c nb s' nonce (ctrTransform c (callSchedule c nb s) (freshBlock nonce) (utf8All (txtText c s))) where
  keySize := h.keySize
  b64Fits := by
    have hlength : s'.b64Len.toNat = b64Length (8 + (utf8All (txtText c s)).length) :=
      calc s'.b64Len.toNat
        _ = (b64Chars c s').length := (Buffer.memRead_length _ _ _).symm
        _ = _ := by rw [hpayload, b64String_length, payloadOf_length]
    rw [hparams, hlength]
    exact h.stringFits
  pwtFits := by
    have hlength : s'.pwtLen.toNat = s.pwtLen.toNat := by
      simpa only [pwtText, Buffer.memRead_length] using congrArg List.length hpwt
    rw [hparams, hlength]
    exact h.pwtFits
  payload := hpayload
  password := by
    rw [hparams, hpwt]
    exact h.password

/-- Settles O50: DECRYPT finds the payload of ENCRYPT, and the second transform undoes the first. -/
theorem encryptDecryptRoundTrip : Obligations.EncryptDecryptRoundTrip := by
  intro nb s t s' u hencrypt hdone hbound hparams hstring hpwt hdecrypt
  obtain ⟨hready, hchars⟩ := b64Chars_of_encrypt_done hencrypt hdone hbound
  have hready' := decryptReady_of_encryptReady hready hparams hpwt (hstring.trans hchars)
  obtain ⟨hscalar, -⟩ := hready.plain
  obtain ⟨hcommand, htxt⟩ := decryptCommand_of_text hready' hscalar (decryptedBytes_of_encrypted Config.actual nb hpwt t.nonce)
  obtain rfl := exec_next hdecrypt
  rw [effect, hcommand]
  exact ⟨rfl, rfl, afterDecryption_nonce, htxt⟩

/-! ## Two ENCRYPTs -/

theorem b64String_injective : Function.Injective b64String := by
  intro b b' h
  have hdecode := b64Decode_b64String b
  rw [h, b64Decode_b64String] at hdecode
  cases hdecode
  rfl

/-- The payload begins with its nonce (R101). -/
theorem payloadOf_injective (c : Config) (nb : Nat) (s : State) : Function.Injective (payloadOf c nb s) := by
  intro nonce nonce' h
  obtain ⟨hnonce, -⟩ := List.append_inj h (by simp)
  exact Vector.toList_inj.mp hnonce

/-- Settles O51: with the operands fixed, the string is an injective function of the nonce. -/
theorem equalStringsIffEqualNonces : Obligations.EqualStringsIffEqualNonces := by
  intro nb s t s' t' hexec hexec' hdone hdone' hbound htxt hpwt
  obtain ⟨-, hchars⟩ := b64Chars_of_encrypt_done hexec hdone hbound
  obtain ⟨-, hchars'⟩ := b64Chars_of_encrypt_done hexec' hdone' (htxt ▸ hbound)
  rw [hchars, hchars', payloadOf_congr Config.actual nb htxt hpwt, b64String_injective.eq_iff,
    (payloadOf_injective Config.actual nb s).eq_iff]

end Sys2Proof.Machine
end

