-- ==== Sys2Proof/Proofs/ClrState.lean ====
section
/-! CLR and reset (spec/45_control.md R250, spec/10_state.md R44): in both states every register but CTL reads 0. -/

namespace Sys2Proof.Machine

/-- The values that R44 and R250 give the registers the host reads, CTL apart. -/
structure State.RegistersClear (s : State) : Prop where
  st : s.st = .idle
  fatal : s.fatal = false
  err : s.err = .noError
  nv : s.nv = false
  cbv : s.cbv = false
  klen : s.klen = 0
  pwLen : s.pwLen = 0
  pwtLen : s.pwtLen = 0
  txtLen : s.txtLen = 0
  inLen : s.inLen = 0
  outLen : s.outLen = 0
  b64Len : s.b64Len = 0

/-- CTL is the one register that `RegistersClear` leaves open (R36, R250). -/
theorem State.RegistersClear.readReg_eq_zero {s : State} (h : s.RegistersClear) {i : Nat} (hctl : i ≠ 3) :
    readReg s i = 0 := by
  unfold readReg
  split
  case h_1 => rw [statusWord, h.st, h.fatal]; rfl
  case h_2 => rw [errWord, h.err]; rfl
  case h_3 => exact absurd rfl hctl
  case h_4 => rw [validWord, h.nv, h.cbv]; rfl
  case h_5 => rw [h.klen]; rfl
  case h_6 => exact h.pwLen
  case h_7 => exact h.pwtLen
  case h_8 => exact h.txtLen
  case h_9 => exact h.inLen
  case h_10 => exact h.outLen
  case h_11 => exact h.b64Len
  case h_12 => rfl

/-- Reset leaves FATAL, ERROR and its code only in a core without the encoding facility (R44, R262). -/
theorem resetWith_registersClear {p : Params} (henc : p.encAvailable = true) : (State.resetWith p).RegistersClear := by
  constructor <;> simp [State.resetWith, henc]

/-- CLR does not touch FATAL; in the fatal state it would not run (R250, R262). -/
theorem clrCommand_registersClear {s : State} (hfatal : s.fatal = false) : (clrCommand s).RegistersClear := by
  constructor <;> simp [clrCommand, hfatal]

/-- Settles O56: the state after CLR is `clrCommand`, and both it and the reset state read 0 in every register but CTL. -/
theorem clrResult : Obligations.ClrResult := by
  intro s hfatal
  refine ⟨clrCommand s, exec_eq .clr s, rfl, rfl, rfl, rfl, rfl, rfl, rfl, fun p i henc hctl => ?_⟩
  rw [(clrCommand_registersClear hfatal).readReg_eq_zero hctl, (resetWith_registersClear henc).readReg_eq_zero hctl]

end Sys2Proof.Machine
end

