-- ==== Sys2Proof/Proofs/Exceptions.lean ====
section
/-! Errors and the fatal state (spec/60_exceptions.md R260 to R282): the words that start no command, the checks that come before
any work, and the two states that hold: the waiting core and the fatal one. -/

namespace Sys2Proof.Machine

/-! ## Illegal words -/

/-- The commands of format N, in the order of the opcode map (R93). -/
def formatNCommands : List Instr := [.nonceGen, .cbInit, .run, .utf8Enc, .utf8Dec, .b64Enc, .b64Dec, .clr]

theorem mem_formatNOps_iff {op : Byte} : op ∈ formatNOps ↔ ∃ i ∈ formatNCommands, opcodeOf i = op :=
  List.mem_map (f := opcodeOf) (l := formatNCommands)

theorem operandOf_formatN : ∀ i ∈ formatNCommands, operandOf i = 0 := by decide

/-- The opcode map by format: format K takes any NB, format N only 0 (R91 to R93). -/
theorem exists_opcodeOf_iff {op : Byte} {nb : BitVec 16} :
    (∃ i, op = opcodeOf i ∧ nb.toNat = operandOf i) ↔ op ∈ formatKOps ∨ (op ∈ formatNOps ∧ nb = 0) := by
  constructor
  · rintro ⟨i, rfl, hnb⟩
    cases i with
    | derive | encrypt | decrypt => exact .inl (by simp [opcodeOf, formatKOps])
    | _ => exact .inr ⟨mem_formatNOps_iff.mpr ⟨_, by decide, rfl⟩, BitVec.eq_of_toNat_eq hnb⟩
  · rintro (hop | ⟨hop, rfl⟩)
    · simp only [formatKOps, List.mem_cons, List.not_mem_nil, or_false] at hop
      obtain rfl | rfl | rfl := hop
      · exact ⟨.derive nb.toNat, rfl, rfl⟩
      · exact ⟨.encrypt nb.toNat, rfl, rfl⟩
      · exact ⟨.decrypt nb.toNat, rfl, rfl⟩
    · obtain ⟨i, hi, rfl⟩ := mem_formatNOps_iff.mp hop
      exact ⟨i, rfl, (operandOf_formatN i hi).symm⟩

/-- A word decodes to some command exactly when it is legal (R95). -/
theorem exists_decode_iff_legalWord (w : Word) : (∃ i, decode w = .ok i) ↔ legalWord w := by
  have hrow : (∃ i, fieldOp w = opcodeOf i ∧ (fieldNb w).toNat = operandOf i) ∧ fieldRsv w = 0 ↔ legalWord w := by
    rw [exists_opcodeOf_iff, and_comm]
    rfl
  simp only [decode_eq_ok_iff, ← hrow, and_left_comm, exists_and_left, and_comm]

theorem writeCommand_illegal {w : Word} {s : State} (hf : s.fatal = false) (h : ¬ legalWord w) :
    writeCommand w s = raise .illegalCommand s := by
  obtain ⟨hf', -⟩ | ⟨-, i, hd, -⟩ | ⟨-, -, -, hw⟩ := writeCommand_cases w s
  · exact absurd (hf.symm.trans hf') Bool.false_ne_true
  · exact absurd ((exists_decode_iff_legalWord w).mp ⟨i, hd⟩) h
  · exact hw

/-- Between commands, where PHASE is IDLE and KS none already, error entry changes STATUS and ERR only (R270). -/
theorem raise_of_idle (e : ErrCode) {s : State} (hphase : s.phase = .idle) (hks : s.ks = none) :
    raise e s = { s with err := e, st := .error } := by
  rw [raise, ← hphase, ← hks]

/-- Settles O4: the write of CMD completes, and the word that it brings raises IllegalCommand. -/
theorem illegalWordEndsAtOnce : Obligations.IllegalWordEndsAtOnce := by
  refine ⟨exists_decode_iff_legalWord, fun s w rest hb hphase hks hf hp hw => ?_⟩
  have hwrite : writeCommand w { s with pending := rest } = raise .illegalCommand { s with pending := rest } :=
    writeCommand_illegal hf hw
  rw [step_served hb hp rfl]
  exact congrArg Host.Outcome.next (hwrite.trans (raise_of_idle _ hphase hks))

/-! ## The fatal state -/

theorem writeCommand_of_fatal {w : Word} {s : State} (hf : s.fatal = true) : writeCommand w s = s := by
  rw [writeCommand, if_pos hf]

namespace State.Inv

variable {s t : State} (h : s.Inv)
include h

/-- No command runs on a fatal core, and ST and ERR tell the host why (R262). -/
theorem status_of_fatal (hf : s.fatal = true) : s.st = .error ∧ s.err = .encodingUnavailable := by
  have herr : s.err = .encodingUnavailable := h.fatalCode.2.mp hf
  have hb : s.st ≠ .busy := fun hb => Bool.false_ne_true ((h.busyCommand hb).1.symm.trans hf)
  exact ⟨(h.errorCode hb).mpr (by simp [herr]), herr⟩

/-- FATAL tells whether the build has the encoding facility, and no step changes the build (R10, R262). -/
theorem fatal_step (ht : step s = .next t) : t.fatal = s.fatal := by
  have hinv : t.Inv := everyStepKeepsInvariant s t h ht
  rw [hinv.fatalCode.1, step_params ht, h.fatalCode.1]

end State.Inv

/-- Settles O16: FATAL is constant under the invariant, which ties ST and ERR to it. -/
theorem fatalStateIsForever : Obligations.FatalStateIsForever := by
  intro s h hf
  refine ⟨fun w rest hp => ?_, fun t ht => ?_⟩
  · have hb : s.st ≠ .busy := by simp [(h.status_of_fatal hf).1]
    rw [step_served hb hp rfl]
    exact congrArg Host.Outcome.next (writeCommand_of_fatal hf)
  · have hft : t.fatal = true := (h.fatal_step ht).trans hf
    exact ⟨hft, (everyStepKeepsInvariant s t h ht).status_of_fatal hft⟩

/-! ## The waiting core -/

/-- Settles O9: of the cases of a step only the waiting one is left. -/
theorem waitingCoreHoldsState : Obligations.WaitingCoreHoldsState := by
  intro s hb hp
  obtain ⟨hb', -⟩ | ⟨hb', -⟩ | ⟨-, -, hs⟩ | ⟨-, a, rest, hp', -⟩ := step_cases s
  · exact absurd hb' hb
  · exact absurd hb' hb
  · exact hs
  · exact absurd (hp.symm.trans hp') (List.cons_ne_nil a rest).symm

/-! ## The key size -/

theorem keySizeOk_iff (nb : Nat) : keySizeOk nb = true ↔ legalKeySize nb := by
  simp [keySizeOk, legalKeySize, or_assoc]

section
variable (c : Config) (s : State) {nb : Nat} (h : keySizeOk nb = false)
include h

theorem deriveCommand_keySize : deriveCommand c nb s = raise .invalidKeySize s := by simp [deriveCommand, h]

theorem encryptCommand_keySize : encryptCommand c nb s = raise .invalidKeySize s := by simp [encryptCommand, h]

theorem decryptCommand_keySize : decryptCommand c nb s = raise .invalidKeySize s := by simp [decryptCommand, h]

end

/-- Settles O17: the key size is the first check of the three commands. -/
theorem invalidKeySizeComesFirst : Obligations.InvalidKeySizeComesFirst := by
  intro nb s h
  have hk : keySizeOk nb = false := by rwa [← keySizeOk_iff, Bool.not_eq_true] at h
  exact ⟨exec_raised (deriveCommand_keySize _ s hk), exec_raised (encryptCommand_keySize _ s hk),
    exec_raised (decryptCommand_keySize _ s hk)⟩

/-! ## Operands that are not ready -/

theorem cbInitCommand_of_no_nonce {s : State} (h : s.nv = false) : cbInitCommand s = raise .operandNotReady s := by
  simp [cbInitCommand, h]

/-- After the capacity check either of RUN's two checks raises the same code (R161, R268, R272). -/
theorem runCommand_of_not_ready (c : Config) {s : State} (h : ¬ runReady s) (hfit : fits s.params s.inLen.toNat = true) :
    runCommand c s = raise .operandNotReady s := by
  unfold runCommand
  rw [hfit]
  simp only [Bool.not_true, Bool.false_eq_true, if_false]
  split
  · rfl
  rename_i hkey
  split
  · rfl
  rename_i hcbv
  exact absurd ⟨(keyLenOk_iff _).mp (by simpa using hkey), by simpa using hcbv⟩ h

/-- The codes that ENCRYPT can end with: it makes its own Key and counter block, so OperandNotReady is not among them
(R230, R268). -/
def encryptCodes : List ErrCode := [.noError, .invalidKeySize, .capacityExceeded, .invalidScalar]

/-- The codes that DECRYPT can end with: those of ENCRYPT, and those of its two decoders and of the payload (R231, R268). -/
def decryptCodes : List ErrCode := encryptCodes ++ [.malformedBase64, .malformedPayload, .malformedUtf8]

theorem encryptCommand_err (c : Config) (nb : Nat) (s : State) :
    (encryptCommand c nb s).err ∈ encryptCodes := by
  unfold encryptCommand
  split
  · simp [encryptCodes]
  split
  · simp [encryptCodes]
  split
  · obtain rfl | rfl := utf8Scan_error ‹_› <;> simp [encryptFail, encryptCodes]
  split
  · obtain rfl | rfl := utf8Scan_error ‹_› <;> simp [encryptFail, encryptCodes]
  dsimp only
  split
  · obtain rfl := b64Encode_error ‹_›
    simp [encryptFail, encryptCodes]
  · simp [encryptCodes]

theorem decryptCommand_err (c : Config) (nb : Nat) (s : State) :
    (decryptCommand c nb s).err ∈ decryptCodes := by
  unfold decryptCommand
  split
  · simp [decryptCodes, encryptCodes]
  split
  · simp [decryptCodes, encryptCodes]
  split
  · obtain rfl := b64Decode_error ‹_›
    simp [decryptFail, decryptCodes, encryptCodes]
  split
  · simp [decryptFail, decryptCodes, encryptCodes]
  dsimp only
  split
  · obtain rfl | rfl := utf8Scan_error ‹_› <;> simp [decryptFail, decryptCodes, encryptCodes]
  split
  · obtain rfl | rfl := utf8Decode_error ‹_› <;> simp [decryptFail, decryptCodes, encryptCodes]
  · simp [decryptCodes, encryptCodes]

/-- Settles O18: CBINIT and RUN check before they work; the composite commands have no such code. -/
theorem operandNotReadyRaised : Obligations.OperandNotReadyRaised := by
  intro s
  refine ⟨fun h => exec_raised (cbInitCommand_of_no_nonce h), fun h => exec_raised ?_, fun nb t ht herr => ?_⟩
  · cases hfit : fits s.params s.inLen.toNat with
    | true => exact runCommand_of_not_ready _ h hfit
    | false => exact runCommand_capacity _ hfit
  · obtain ht | ht := ht
    · obtain rfl : t = encryptCommand Config.actual nb s := exec_next ht
      have hcode : .operandNotReady ∈ encryptCodes := herr ▸ encryptCommand_err Config.actual nb s
      exact absurd hcode (by decide)
    · obtain rfl : t = decryptCommand Config.actual nb s := exec_next ht
      have hcode : .operandNotReady ∈ decryptCodes := herr ▸ decryptCommand_err Config.actual nb s
      exact absurd hcode (by decide)

end Sys2Proof.Machine
end

section
/-! The outside calls of a command (spec/70_reset_and_hazards.md R314): those of its parts, added up along the command. -/

namespace Sys2Proof.Machine

/-! ## The calls between two states -/

/-- `t` comes from `s` with `n` outside calls, by kind (R314); progress signals are not counted. -/
def Calls (s t : State) (n : Nat × Nat × Nat × Nat) : Prop := ∃ es, t.events = s.events ++ es ∧ callCounts es = n

namespace Calls

variable {s t u : State} {m n : Nat × Nat × Nat × Nat}

/-- The calls of a part of a command and of the part that follows it add up. -/
theorem trans (h : Calls s t m) (h' : Calls t u n) : Calls s u (m + n) := by
  obtain ⟨es, he, hm⟩ := h
  obtain ⟨es', he', hn⟩ := h'
  exact ⟨es ++ es', by rw [he', he, List.append_assoc], by rw [callCounts_append, hm, hn]⟩

/-- An update that appends no event. -/
theorem silent (h : Calls s t n) (he : u.events = t.events) : Calls s u n := by
  rwa [Calls, he]

end Calls

/-! ## The parts of the commands -/

section
variable (c : Config) (n : Nat) (pw : List Byte) (s : State)

/-- A derivation expands its buffer and ciphers one block (R124). -/
theorem calls_deriveKey : Calls s (deriveKey c pw n s) (1, 1, 0, 0) := ⟨_, List.append_assoc s.events [_] [_], rfl⟩

theorem calls_generate : Calls s (generate c s) (0, 0, 1, 1) := ⟨_, generate_events c s, rfl⟩

theorem calls_ctrRun (x : List Byte) : Calls s (ctrRun c x s).2 (1, blockCount x.length, 0, 0) := ctrRun_calls c x s

/-- Lines 5 to 8 of ENCRYPT: a derivation, a nonce, a run over the plaintext (R230). -/
theorem calls_encryptBody (plain : List Byte) :
    Calls s (encryptBody c n plain pw s).2 (2, 1 + blockCount plain.length, 1, 1) :=
  have hload : Calls s (loadCounter (generate c (deriveKey c pw n s))) (1, 1, 1, 1) :=
    ((calls_deriveKey c n pw s).trans (calls_generate c _)).silent rfl
  hload.trans (calls_ctrRun c _ plain)

/-- Lines 7 to 9 of DECRYPT: a derivation, a run over the body (R231). -/
theorem calls_decryptBody (body : List Byte) :
    Calls s (decryptBody c n body pw s).2 (2, 1 + blockCount body.length, 0, 0) :=
  have hload : Calls s (loadCounter (deriveKey c pw n s)) (1, 1, 0, 0) := (calls_deriveKey c n pw s).silent rfl
  hload.trans (calls_ctrRun c _ body)

end

/-! ## The commands that end without error -/

/-- Every command but CLR ends in DONE or in ERROR (R31, R32). -/
theorem Leaves.st_eq_done {c : Config} {s t : State} {i : Instr} (h : Leaves c s i t) (hi : i ≠ .clr) (hst : t.st ≠ .error) :
    t.st = .done := by
  obtain ⟨hclr, -⟩ | ⟨-, u, rfl⟩ | ⟨-, e, u, -, rfl⟩ := h.ends
  · exact absurd hclr hi
  · rfl
  · exact absurd rfl hst

section
variable {c : Config} {nb : Nat} {s : State}

theorem calls_deriveCommand (h : (deriveCommand c nb s).st = .done) : Calls s (deriveCommand c nb s) (1, 1, 0, 0) := by
  obtain ⟨hk, hfit⟩ := ok_of_deriveCommand_done h
  rw [deriveCommand_of_ok hk hfit]
  exact (calls_deriveKey c _ _ s).silent rfl

theorem calls_runCommand (h : (runCommand c s).st = .done) :
    Calls s (runCommand c s) (1, blockCount s.inLen.toNat, 0, 0) := by
  obtain ⟨hready, hfit⟩ := ready_of_runCommand_done h
  have hrun := calls_ctrRun c s (inBytes c s)
  rw [inBytes_length] at hrun
  rw [runCommand_of_ready hready hfit]
  exact hrun.silent rfl

theorem calls_encryptCommand (h : (encryptCommand c nb s).st = .done) :
    Calls s (encryptCommand c nb s) (2, 1 + blockCount (utf8All (txtText c s)).length, 1, 1) := by
  rw [encryptCommand_of_ready (encryptReady_of_done h)]
  exact (calls_encryptBody c (keyBytes nb) _ s _).silent rfl

/-- DECRYPT ends without error only when B64 holds a payload, and its run is then over that payload's body. -/
theorem decryptCommand_of_done (h : (decryptCommand c nb s).st = .done) :
    ∃ payload pw text, b64Decode (b64Chars c s) = .ok payload ∧ decryptCommand c nb s =
      finish (discard (putTxt c text (decryptBody c (keyBytes nb) (payload.drop 8) pw (splitNonce payload s)).2)) := by
  unfold decryptCommand at h ⊢
  split at h
  · cases h
  rename_i hk
  split at h
  · cases h
  rename_i hfits
  split at h
  · cases h
  rename_i payload hpayload
  split at h
  · cases h
  rename_i hlength
  dsimp only at h
  split at h
  · cases h
  rename_i pw hpw
  split at h
  · cases h
  rename_i text htext
  refine ⟨payload, pw, text, hpayload, ?_⟩
  simp only [if_neg hk, if_neg hfits, if_neg hlength, hpw, htext]

theorem calls_decryptCommand (h : (decryptCommand c nb s).st = .done) :
    ∃ payload, b64Decode (b64Chars c s) = .ok payload ∧
      Calls s (decryptCommand c nb s) (2, 1 + blockCount (payload.length - 8), 0, 0) := by
  obtain ⟨payload, pw, text, hpayload, hcommand⟩ := decryptCommand_of_done h
  refine ⟨payload, hpayload, ?_⟩
  have hbody := calls_decryptBody c (keyBytes nb) pw (splitNonce payload s) (payload.drop 8)
  rw [List.length_drop] at hbody
  rw [hcommand]
  exact hbody.silent rfl

end

/-! ## The obligation -/

/-- Settles O23: a command that calls outside and ends without error ends in DONE, so it makes the calls of all its parts; the
others leave the trace as it is. -/
theorem outsideCallCounts : Obligations.OutsideCallCounts := by
  intro i s t h hst
  have hleaves := exec_leaves h
  obtain rfl := exec_next h
  cases i with
  | derive nb => exact calls_deriveCommand (hleaves.st_eq_done (by simp) hst)
  | nonceGen => exact calls_generate Config.actual s
  | run => exact calls_runCommand (hleaves.st_eq_done (by simp) hst)
  | encrypt nb => exact calls_encryptCommand (hleaves.st_eq_done (by simp) hst)
  | decrypt nb =>
    obtain ⟨payload, hpayload, es, hes, hcount⟩ := calls_decryptCommand (hleaves.st_eq_done (by simp) hst)
    exact ⟨es, hes, payload, hpayload, hcount⟩
  | cbInit | utf8Enc | utf8Dec | b64Enc | b64Dec | clr =>
    exact ⟨[], by rw [hleaves.events_frame rfl (by simp), List.append_nil], rfl⟩

end Sys2Proof.Machine
end
